-- ==== Sys2Proof/Word.lean ====
section
/-! DEFINITION. The data word of FLISP. -/

namespace Sys2Proof

/-- One data word: every register, memory cell, address and operand is 8 bits wide
(`00_scope.md` R6, R8). Sums of two of them are taken modulo 256 (R9). -/
abbrev Byte := BitVec 8

end Sys2Proof
end

