-- ==== Sys2Proof/Config.lean ====
section
/-! DEFINITION. What an implementation fixes and what the spec leaves open: the free values (constants
without a body) and the parameters of `00_scope.md` R7. -/

namespace Sys2Proof

/-- `CC_HI`: bits 7..5 of the `n`-th copy of CC that no script of the environment supplies
(`10_state.md` R32, `92_eei_decisions.md` D1). A free value: drawn afresh at each copy, nothing constrains it.
DESIGN CHOICE, safe (log 4). -/
opaque Config.ccHi : Nat → BitVec 3

/-- `PORT_IN(addr, t)`: the byte the peripheral at a port address presents at the `n`-th draw that no script of the
environment supplies (`20_memory.md` R64, `92_eei_decisions.md` D9). A free value. DESIGN CHOICE, safe (log 5). -/
opaque Config.portIn : Byte → Nat → Byte

/-- `ENTRY_CYCLES`: the clock cycles taken by the entry through the vector cell at the given address; the spec gives
no number (`70_reset_and_hazards.md` R387, D17). A free value. DESIGN CHOICE, safe (log 12). -/
opaque Config.entryCycles : Byte → Nat

/-- What a memory cell holds that neither an image nor the program has written (`MEM_INIT`, `10_state.md` R40,
`20_memory.md` R68). The spec gives no value and forbids assuming 0 (`93_implementation_defined.md` U2).
DESIGN CHOICE, unsafe (log 2). -/
def Config.unwritten : Byte := 0x20

/-- The parameters of `00_scope.md` R7 that are fixed for one machine. They stand in State as plain data, so that a
statement about every state holds for every choice of them; no step changes them (log 7). -/
structure Params where
  /-- `TRAP_SETS_I`: whether trap entry sets CC.I (`60_exceptions.md` R337, D4). -/
  trapSetsI : Bool
  /-- `CC_LOAD_WRITES_I`: whether TFR A,CC, EXG A,CC and PULC load CC.I (`41_data_movement.md` R150, R158,
  `47_stack.md` R279, D14). -/
  ccLoadWritesI : Bool
  /-- The addresses at which `WRITABLE` does not hold (`20_memory.md` R66, D10). -/
  readOnly : List Byte
deriving DecidableEq, Repr

/-- The spec's defaults (`92_eei_decisions.md`, "Parameters, gathered"). -/
def Params.default : Params := { trapSetsI := true, ccLoadWritesI := true, readOnly := [] }

end Sys2Proof
end

