-- ==== Sys2Proof/Machine/Memory.lean ====
section
/-! DEFINITION. The 256 cells of memory as plain data in one canonical form, and the two port addresses. -/

namespace Sys2Proof.Machine

/-- The two I/O ports (`20_memory.md` R63). -/
inductive Port where
  | fb
  | fc
deriving DecidableEq, Repr

/-- The address of a port (`20_memory.md` R63). -/
def Port.address : Port → Byte
  | .fb => 0xFB
  | .fc => 0xFC

/-- The port behind an address, if there is one (`20_memory.md` R61, R63). -/
def portOf (a : Byte) : Option Port :=
  if a = 0xFB then some .fb else if a = 0xFC then some .fc else none

/-- The cells of memory that do not read as `Config.unwritten`, by rising address. Every total map from the 256
addresses to bytes (`10_state.md` R38) has exactly one such list. -/
abbrev Memory := List Host.Cell

/-- The content of the cell at an address; an address not listed reads as `Config.unwritten`. -/
def Memory.read : Memory → Nat → Byte
  | [], _ => Config.unwritten
  | (k, v) :: m, a => if a = k then v else Memory.read m a

/-- The memory without the cell at an address. -/
def Memory.erase : Memory → Nat → Memory
  | [], _ => []
  | (k, v) :: m, a => if k = a then Memory.erase m a else (k, v) :: Memory.erase m a

/-- The memory with a cell put in its place by address. -/
def Memory.insert : Memory → Nat → Byte → Memory
  | [], a, v => [(a, v)]
  | (k, w) :: m, a, v =>
    if a < k then (a, v) :: (k, w) :: m
    else if a = k then (a, v) :: m
    else (k, w) :: Memory.insert m a v

/-- Write one cell, keeping the canonical form. -/
def Memory.write (m : Memory) (a : Nat) (v : Byte) : Memory :=
  if v = Config.unwritten then Memory.erase m a else Memory.insert m a v

/-- The canonical form: addresses strictly rise, each is one of the 256 and neither port, and no listed cell holds what an
unlisted one reads as. -/
abbrev Memory.wf (m : Memory) : Prop :=
  m.Pairwise (fun c d => c.1 < d.1) ∧
    ∀ c ∈ m, c.1 < 256 ∧ c.1 ≠ 0xFB ∧ c.1 ≠ 0xFC ∧ c.2 ≠ Config.unwritten

/-- A memory image as a loader places it (`MEM_INIT`, `10_state.md` R40, `70_reset_and_hazards.md` R383): the cells in
order, a later one over an earlier one. Port addresses hold no storage, so a byte aimed at one is dropped. -/
def Memory.load : Memory → List (Byte × Byte) → Memory
  | m, [] => m
  | m, (a, v) :: image =>
    Memory.load (if portOf a = none then Memory.write m a.toNat v else m) image

end Sys2Proof.Machine
end

