-- ==== Sys2Proof/Syntax.lean ====
section
/-! DEFINITION. The instructions of FLISP: one constructor per mnemonic of the opcode table, with the operand that
tells the rows of one mnemonic apart. -/

namespace Sys2Proof

/-- The registers an auto-modify mode can step (`30_encoding.md` R102 to R105). -/
inductive IndexReg where
  | x
  | y
deriving DecidableEq, Repr

/-- How an auto-modify mode steps its register: before or after the access, up or down
(`30_encoding.md` R102 to R105). -/
inductive AutoStep where
  | preInc
  | preDec
  | postInc
  | postDec
deriving DecidableEq, Repr

/-- A memory operand whose address changes no register: table T-M of `43_integer_arithmetic.md`. -/
inductive Cell where
  /-- `ab`, absolute: the operand byte is the address (`30_encoding.md` R97). -/
  | ab (adr : Byte)
  /-- `ns`: SP plus constant (R99). -/
  | ns (n : Byte)
  /-- `nx`: X plus constant (R100). -/
  | nx (n : Byte)
  /-- `ax`: X plus A (R101). -/
  | ax
  /-- `ny`: Y plus constant (R100). -/
  | ny (n : Byte)
  /-- `ay`: Y plus A (R101). -/
  | ay
deriving DecidableEq, Repr

/-- A memory operand of LDA or STA: a cell, or an auto-modify mode (`30_encoding.md` R97 to R105). -/
inductive MemOperand where
  | cell (c : Cell)
  | auto (r : IndexReg) (k : AutoStep)
deriving DecidableEq, Repr

/-- The operand of LDA: immediate (`30_encoding.md` R96) or in memory. -/
inductive LoadOperand where
  | im (d : Byte)
  | mem (m : MemOperand)
deriving DecidableEq, Repr

/-- The operand of an instruction that combines a register with data: immediate or a cell (table T-A of
`43_integer_arithmetic.md`). -/
inductive Source where
  | im (d : Byte)
  | cell (c : Cell)
deriving DecidableEq, Repr

/-- The instructions (`30_encoding.md` R107, R108; `spec/opcode_table.json`). Which operand forms exist for which
instruction is `Instr.wf`. The offset of a branch is its operand byte (R98). -/
inductive Instr where
  | nop
  | andcc (d : Byte)
  | orcc (d : Byte)
  | illegal03
  | illegal04
  | clra
  | nega
  | inca
  | deca
  | tsta
  | coma
  | lsla
  | lsra
  | rola
  | rora
  | asra
  | psha
  | pshx
  | pshy
  | pshc
  | pula
  | pulx
  | puly
  | pulc
  | tfrACc
  | tfrCcA
  | tfrXY
  | tfrYX
  | tfrXSp
  | tfrSpX
  | tfrYSp
  | tfrSpY
  | bsr (off : Byte)
  | bra (off : Byte)
  | bmi (off : Byte)
  | bpl (off : Byte)
  | beq (off : Byte)
  | bne (off : Byte)
  | bvs (off : Byte)
  | bvc (off : Byte)
  | bcs (off : Byte)
  | bcc (off : Byte)
  | bhi (off : Byte)
  | bls (off : Byte)
  | bgt (off : Byte)
  | bge (off : Byte)
  | ble (off : Byte)
  | blt (off : Byte)
  | stx (c : Cell)
  | sty (c : Cell)
  | stsp (c : Cell)
  | jmp (c : Cell)
  | jsr (c : Cell)
  | clr (c : Cell)
  | neg (c : Cell)
  | inc (c : Cell)
  | dec (c : Cell)
  | tst (c : Cell)
  | com (c : Cell)
  | lsl (c : Cell)
  | lsr (c : Cell)
  | rol (c : Cell)
  | ror (c : Cell)
  | asr (c : Cell)
  | rts
  | rti
  | ldx (o : Source)
  | ldy (o : Source)
  | ldsp (o : Source)
  | sbca (o : Source)
  | suba (o : Source)
  | adca (o : Source)
  | adda (o : Source)
  | cmpa (o : Source)
  | bita (o : Source)
  | anda (o : Source)
  | ora (o : Source)
  | eora (o : Source)
  | cmpx (o : Source)
  | cmpy (o : Source)
  | cmpsp (o : Source)
  | exgACc
  | exgXY
  | leasp (c : Cell)
  | exgXSp
  | leax (c : Cell)
  | leay (c : Cell)
  | exgYSp
  | illegalDF
  | illegalE0
  | sta (m : MemOperand)
  | illegalEF
  | lda (o : LoadOperand)
  | illegalFF
deriving DecidableEq, Repr

end Sys2Proof
end

