-- ==== Sys2Proof/Machine/State.lean ====
section
/-! DEFINITION. The state of FLISP as plain data, and the state right after reset. -/

namespace Sys2Proof.Machine

/-- The condition-code register: five flags and nothing else (`10_state.md` R26 to R32). -/
structure CC where
  /-- Interrupt mask, bit 4: 1 blocks the external interrupt (`10_state.md` R31). -/
  i : Bool
  /-- Negative, bit 3 (`10_state.md` R30). -/
  n : Bool
  /-- Zero, bit 2 (`10_state.md` R29). -/
  z : Bool
  /-- Two's-complement overflow, bit 1 (`10_state.md` R28). -/
  v : Bool
  /-- Carry or borrow, bit 0 (`10_state.md` R27). -/
  c : Bool
deriving DecidableEq, Repr

/-- The two input pins at one step boundary (`10_state.md` R39, `60_exceptions.md` R330): `true` is asserted. The spec gives
neither pin a polarity (`70_reset_and_hazards.md` R380), so no voltage level is meant: DESIGN CHOICE, safe (log 17). -/
structure Pins where
  reset : Bool
  irq : Bool
deriving DecidableEq, Repr

/-- What the environment will supply (`00_scope.md` R16): scripts the step reads from the front. The model's own fields,
not state of the processor. -/
structure Env where
  /-- The pins at the coming step boundaries (`IRQ(t)` and the reset events); an ended script is two pins
  not asserted
  (log 6). -/
  pins : List Pins
  /-- The bytes the coming reads of port $FB return (`PORT_IN`); an ended script is a free value (log 5). -/
  inFB : List Byte
  /-- The bytes the coming reads of port $FC return. -/
  inFC : List Byte
  /-- Bits 7..5 of the coming copies of CC (`CC_HI`); an ended script is a free value (log 4). -/
  ccHi : List (BitVec 3)
  /-- How many free values have been drawn. -/
  draws : Nat
deriving DecidableEq, Repr

/-- Everything the spec gives the machine (`10_state.md` R20 to R39), with the environment's scripts and the
parameters of `00_scope.md` R7. -/
structure State where
  /-- Accumulator (`10_state.md` R21). -/
  a : Byte
  /-- Address register X (R22). -/
  x : Byte
  /-- Address register Y (R23). -/
  y : Byte
  /-- Stack pointer: the address of the last pushed cell (R24). -/
  sp : Byte
  /-- Program counter: between steps the address of the next opcode byte, inside an instruction already past its
  bytes (R25). -/
  pc : Byte
  /-- Condition-code register (R26). -/
  cc : CC
  /-- Memory (R38). -/
  mem : Memory
  /-- The bytes written to the output ports, oldest first (`20_memory.md` R65). -/
  out : List (Port × Byte)
  /-- The parameters of this machine; no step changes them. -/
  params : Params
  /-- What the environment will supply. -/
  env : Env
deriving DecidableEq, Repr

/-- No step of this machine ends in a fault: the three events Reset, Trap and IRQ have next states, every address
exists and nothing is misaligned (`60_exceptions.md` R331, R342, R350; `20_memory.md` R61, R69). -/
inductive Fault where
deriving DecidableEq, Repr

/-- Why the model refuses an instruction. -/
inductive Refusal where
  /-- Raised by a dispatch arm whose instruction has no meaning yet; safe, since the model stops. No arm raises it: every
  instruction has its meaning. -/
  | notModelled (mnemonic : String)
deriving DecidableEq, Repr

/-- What a meaning answers. -/
abbrev Result := Host.Outcome State Fault Refusal

/-- An environment that supplies nothing: pins not asserted, free input bytes, free `CC_HI`. -/
def Env.quiet : Env := { pins := [], inFB := [], inFC := [], ccHi := [], draws := 0 }

/-- The machine right after reset, nothing placed in memory (`10_state.md` R40, `70_reset_and_hazards.md` R381, R382): CC.I
is 1 and PC is the content of the reset vector cell. The spec gives A, X, Y, SP, N, Z, V and C no value and forbids
assuming 0: the values below are DESIGN CHOICE, unsafe (log 1). -/
def State.reset : State where
  a := 0x11
  x := 0x40
  y := 0x60
  sp := 0xF0
  pc := Memory.read [] 0xFF
  cc := { i := true, n := true, z := true, v := true, c := true }
  mem := []
  out := []
  params := Params.default
  env := Env.quiet

end Sys2Proof.Machine
end

