-- ==== Sys2Proof/Machine/Ops.lean ====
section
/-! DEFINITION. The named operations over registers, memory, ports and stack; the copies of CC; taking an exception and
returning from one. -/

namespace Sys2Proof.Machine

/-! Register and field updates. -/

/-- A ← v. -/
def State.setA (s : State) (v : Byte) : State := { s with a := v }
/-- X ← v. -/
def State.setX (s : State) (v : Byte) : State := { s with x := v }
/-- Y ← v. -/
def State.setY (s : State) (v : Byte) : State := { s with y := v }
/-- SP ← v. -/
def State.setSp (s : State) (v : Byte) : State := { s with sp := v }
/-- PC ← v. -/
def State.setPc (s : State) (v : Byte) : State := { s with pc := v }
/-- All five flags at once. -/
def State.setCc (s : State) (cc : CC) : State := { s with cc := cc }
/-- The memory. -/
def State.setMem (s : State) (m : Memory) : State := { s with mem := m }
/-- The output events. -/
def State.setOut (s : State) (o : List (Port × Byte)) : State := { s with out := o }
/-- The environment's scripts. -/
def State.setEnv (s : State) (e : Env) : State := { s with env := e }

/-- CC.I ← 1, the one way the control unit forces I (`10_state.md` R31). -/
def State.maskIrq (s : State) : State := s.setCc { s.cc with i := true }

/-! Memory and ports. -/

/-- M[addr], the stored content of a cell, ports included (they store nothing and read as unwritten here). -/
def State.cell (s : State) (addr : Byte) : Byte := Memory.read s.mem addr.toNat

/-- The environment's script for the input side of a port. -/
def Env.input (e : Env) : Port → List Byte
  | .fb => e.inFB
  | .fc => e.inFC

/-- The environment with another script for the input side of a port. -/
def Env.setInput (e : Env) : Port → List Byte → Env
  | .fb, l => { e with inFB := l }
  | .fc, l => { e with inFC := l }

/-- Read an input port (`20_memory.md` R64): the next byte of the script, or a free value when the script has ended. The
value never depends on what the program wrote. -/
def readPort (p : Port) (s : State) : Byte × State :=
  match s.env.input p with
  | v :: rest => (v, s.setEnv (s.env.setInput p rest))
  | [] => (Config.portIn p.address s.env.draws, s.setEnv { s.env with draws := s.env.draws + 1 })

/-- `MemRead(addr, 1)` (`20_memory.md` R61, `00_scope.md` R11): a port's input, or the cell, without side effect. -/
def memRead (s : State) (addr : Byte) : Byte × State :=
  match portOf addr with
  | some p => readPort p s
  | none => (s.cell addr, s)

/-- `MemWrite(addr, 1, v)` (`20_memory.md` R61): an output event at a port (R65; the list of
events is DESIGN CHOICE, safe, log 8), no effect on a cell that is not writable (R66), else the cell takes the value. -/
def memWrite (s : State) (addr v : Byte) : State :=
  match portOf addr with
  | some p => s.setOut (s.out ++ [(p, v)])
  | none => if addr ∈ s.params.readOnly then s else s.setMem (Memory.write s.mem addr.toNat v)

/-- `Fetch8()` (`00_scope.md` R11, `10_state.md` R34): the byte at PC, and PC one further, modulo 256. -/
def fetch8 (s : State) : Byte × State :=
  let r := memRead s s.pc
  (r.1, r.2.setPc (r.2.pc + 1))

/-! The stack (`47_stack.md` R270, R271). -/

/-- `Push(v)`: SP first, then the write at the new SP. -/
def push (v : Byte) (s : State) : State :=
  memWrite (s.setSp (s.sp - 1)) (s.sp - 1) v

/-- `Pull()`: the read at SP first, then SP. -/
def pull (s : State) : Byte × State :=
  let r := memRead s s.sp
  (r.1, r.2.setSp (r.2.sp + 1))

/-! CC as a byte (`10_state.md` R32). -/

/-- `CC_HI ++ I ++ N ++ Z ++ V ++ C`. -/
def ccByte (hi : BitVec 3) (cc : CC) : Byte :=
  hi ++ BitVec.ofBool cc.i ++ BitVec.ofBool cc.n ++ BitVec.ofBool cc.z ++ BitVec.ofBool cc.v ++ BitVec.ofBool cc.c

/-- Draw `CC_HI` for one copy of CC: the next entry of the script, or a free value when the script has ended (D1, log 4). -/
def drawCcHi (s : State) : BitVec 3 × State :=
  match s.env.ccHi with
  | h :: rest => (h, s.setEnv { s.env with ccHi := rest })
  | [] => (Config.ccHi s.env.draws, s.setEnv { s.env with draws := s.env.draws + 1 })

/-- `CCbyte()`: CC copied out. -/
def copyCc (s : State) : Byte × State :=
  let r := drawCcHi s
  (ccByte r.1 s.cc, r.2)

/-- `CC <- v`: I, N, Z, V, C from bits 4..0; bits 7..5 are discarded. -/
def ccOfByte (v : Byte) : CC :=
  { i := v.getLsbD 4, n := v.getLsbD 3, z := v.getLsbD 2, v := v.getLsbD 1, c := v.getLsbD 0 }

/-- `CC <- v` by TFR A,CC, EXG A,CC and PULC: I is loaded too if `CC_LOAD_WRITES_I` holds, else kept (D14). -/
def loadCc (v : Byte) (s : State) : State :=
  if s.params.ccLoadWritesI then s.setCc (ccOfByte v)
  else s.setCc { ccOfByte v with i := s.cc.i }

/-! Events (`60_exceptions.md` R331, R336 to R338; `70_reset_and_hazards.md` R381). -/

/-- The cell with the address of the IRQ handler (`20_memory.md` R63). -/
def irqVector : Byte := 0xFD
/-- The cell with the address of the illegal-opcode handler. -/
def trapVector : Byte := 0xFE
/-- The cell with the address where execution starts after reset. -/
def resetVector : Byte := 0xFF

/-- PC ← MemRead(vector, 1): the cell holds an address (`60_exceptions.md` R338, D5). -/
def loadVector (vector : Byte) (s : State) : State :=
  let r := memRead s vector
  r.2.setPc r.1

/-- The five pushes of an entry: PC, Y, X, A, CC as they are before it (`60_exceptions.md` R336, D18, log 15). -/
def pushFrame (s : State) : State :=
  let s4 := push s.a (push s.x (push s.y (push s.pc s)))
  let r := copyCc s4
  push r.1 r.2

/-- `Entry(vector, set_I)`, taking an exception (`60_exceptions.md` R336): the frame, then I if asked (R337), then PC
from the vector cell. -/
def enterException (vector : Byte) (setI : Bool) (s : State) : State :=
  let s1 := pushFrame s
  loadVector vector (if setI then s1.maskIrq else s1)

/-- Trap entry (`60_exceptions.md` R332, R333): PC is already past the illegal opcode byte. -/
def takeTrap (s : State) : State := enterException trapVector s.params.trapSetsI s

/-- IRQ entry (`60_exceptions.md` R334, R335): PC is the instruction not yet fetched. -/
def takeIrq (s : State) : State := enterException irqVector true s

/-- Reset (`70_reset_and_hazards.md` R381): I ← 1, PC from the reset vector cell, and nothing else. That the
other registers keep their values is DEDUCED, unsafe (log 10). -/
def takeReset (s : State) : State := loadVector resetVector s.maskIrq

/-- Return from an exception (`42_flow_control.md` R190, `60_exceptions.md` R341): CC with I, A, X, Y and PC pulled in
that order. -/
def returnFromException (s : State) : State :=
  let rc := pull s
  let ra := pull (rc.2.setCc (ccOfByte rc.1))
  let rx := pull (ra.2.setA ra.1)
  let ry := pull (rx.2.setX rx.1)
  let rp := pull (ry.2.setY ry.1)
  rp.2.setPc rp.1

/-- Power-on with a memory image (`MEM_INIT`) placed before reset is released (`70_reset_and_hazards.md` R383, item 1), then the
reset (R381). Registers and flags without a reset value are those of `State.reset` (log 1). -/
def State.boot (image : List (Byte × Byte)) : State :=
  takeReset (State.reset.setMem (Memory.load [] image))

end Sys2Proof.Machine
end

