-- ==== Sys2Proof/Machine/Operands.lean ====
section
/-! DEFINITION. Effective addresses and operand accesses of every addressing mode (`30_encoding.md` R95 to R106). -/

namespace Sys2Proof.Machine

/-- x[R] for R = X or Y. -/
def State.index (s : State) : IndexReg → Byte
  | .x => s.x
  | .y => s.y

/-- x[R] ← v for R = X or Y. -/
def State.setIndex (s : State) : IndexReg → Byte → State
  | .x, v => s.setX v
  | .y, v => s.setY v

/-- The effective address of a cell operand, modulo 256 (`30_encoding.md` R97, R99, R100, R101). -/
def ea (c : Cell) (s : State) : Byte :=
  match c with
  | .ab adr => adr
  | .ns n => s.sp + n
  | .nx n => s.x + n
  | .ax => s.x + s.a
  | .ny n => s.y + n
  | .ay => s.y + s.a

/-- The register's value after an auto-modify step (`30_encoding.md` R102 to R105). -/
def steppedValue (k : AutoStep) (v : Byte) : Byte :=
  match k with
  | .preInc => v + 1
  | .preDec => v - 1
  | .postInc => v + 1
  | .postDec => v - 1

/-- The address an auto-modify mode accesses: the stepped value for the pre modes, the old one for the post modes
(`30_encoding.md` R102 to R105). -/
def steppedAddress (k : AutoStep) (v : Byte) : Byte :=
  match k with
  | .preInc => v + 1
  | .preDec => v - 1
  | .postInc => v
  | .postDec => v

/-- The effective address of an operand of LDA or STA. -/
def memAddress (m : MemOperand) (s : State) : Byte :=
  match m with
  | .cell c => ea c s
  | .auto r k => steppedAddress k (s.index r)

/-- The register side effect of an operand of LDA or STA. No access depends on X or Y once its address is formed, so the
step may stand before the access for the pre modes and the post modes alike. -/
def stepRegister (m : MemOperand) (s : State) : State :=
  match m with
  | .cell _ => s
  | .auto r k => s.setIndex r (steppedValue k (s.index r))

/-- The operand of LDA: its value, and the state after the access and the register step (`40_load_store.md` R130). -/
def readLoad (o : LoadOperand) (s : State) : Byte × State :=
  match o with
  | .im d => (d, s)
  | .mem m => memRead (stepRegister m s) (memAddress m s)

/-- The store of STA with the register step (`40_load_store.md` R137). -/
def storeTo (m : MemOperand) (v : Byte) (s : State) : State :=
  memWrite (stepRegister m s) (memAddress m s) v

/-- The operand of tables T-A: the operand byte itself, or the cell read (`30_encoding.md` R96, R97, R99, R100). -/
def readSource (o : Source) (s : State) : Byte × State :=
  match o with
  | .im d => (d, s)
  | .cell c => memRead s (ea c s)

end Sys2Proof.Machine
end

