-- ==== Sys2Proof/Machine/Flags.lean ====
section
/-! DEFINITION. The ALU: its sixteen functions and flag notes, the helpers the instructions use, the flag columns of the
instruction tables, and the shapes the instructions share. -/

namespace Sys2Proof.Machine

/-- What the ALU puts out: the result and four flag outputs (`49_alu_functions.md` R290). -/
structure AluOut where
  u : Byte
  n : Bool
  z : Bool
  v : Bool
  c : Bool
deriving DecidableEq, Repr

/-- A result with its flags: N is bit 7 of U and Z says that U is 0, for every function (`49_alu_functions.md` R290,
R307). -/
def aluOut (u : Byte) (v c : Bool) : AluOut :=
  { u := u, n := u.getLsbD 7, z := u == 0, v := v, c := c }

/-! Helpers (`49_alu_functions.md` R315). -/

/-- V of an addition: both adder operands have the same sign and the result the other (`49_alu_functions.md` R308). -/
def addOverflow (d7 e7 u7 : Bool) : Bool := (!u7 && d7 && e7) || (u7 && !d7 && !e7)

/-- `ADD8(d, e, cin)`: the sum on integers, its low eight bits, and the ninth as carry. -/
def add8 (d e : Byte) (cin : Bool) : AluOut :=
  let s := d.toNat + e.toNat + cin.toNat
  let u := BitVec.ofNat 8 s
  aluOut u (addOverflow (d.getLsbD 7) (e.getLsbD 7) (u.getLsbD 7)) (decide (256 ≤ s))

/-- `SUB8(d, e, bin)`: d + (255 - e) + (1 - bin) on integers; C is the borrow, the inverse of the ninth bit; V takes the
sign of the complemented e (`49_alu_functions.md` R303, R308, R309, D15, log 15). -/
def sub8 (d e : Byte) (bin : Bool) : AluOut :=
  let s := d.toNat + (255 - e.toNat) + (1 - bin.toNat)
  let u := BitVec.ofNat 8 s
  aluOut u (addOverflow (d.getLsbD 7) (!e.getLsbD 7) (u.getLsbD 7)) (!decide (256 ≤ s))

/-- `INC8(d)`. -/
def inc8 (d : Byte) : AluOut := aluOut (d + 1) (d == 0x7F) (d == 0xFF)

/-- `DEC8(d)`. -/
def dec8 (d : Byte) : AluOut := aluOut (d - 1) (d == 0x80) (d != 0)

/-- `NEG8(d)`. -/
def neg8 (d : Byte) : AluOut := aluOut (BitVec.ofNat 8 (256 - d.toNat)) (d == 0x80) (d != 0)

/-- `LOGIC8(op, d, e)`, given the bitwise result; V and C are 0. -/
def logic8 (u : Byte) : AluOut := aluOut u false false

/-- `PASS8(e)`. -/
def pass8 (e : Byte) : AluOut := aluOut e false false

/-- `SHL8(d, cin)`: `cin` enters bit 0, bit 7 leaves into C, V is bit 7 xor bit 6. -/
def shl8 (d : Byte) (cin : Bool) : AluOut :=
  aluOut (d.extractLsb 6 0 ++ BitVec.ofBool cin) (d.getLsbD 7 ^^ d.getLsbD 6) (d.getLsbD 7)

/-- `SHR8(d, in7)`: `in7` enters bit 7, bit 0 leaves into C, V is `in7` xor bit 7. -/
def shr8 (d : Byte) (in7 : Bool) : AluOut :=
  aluOut (BitVec.ofBool in7 ++ d.extractLsb 7 1) (in7 ^^ d.getLsbD 7) (d.getLsbD 0)

/-! The ALU function table (`49_alu_functions.md` R290 to R314). -/

/-- The sixteen functions, by the value of f3 f2 f1 f0 (R291 to R306). -/
inductive AluFn where
  | f0000
  | f0001
  | f0010
  | f0011
  | f0100
  | f0101
  | f0110
  | f0111
  | f1000
  | f1001
  | f1010
  | f1011
  | f1100
  | f1101
  | f1110
  | f1111
deriving DecidableEq, Repr

/-- An adder function: the low eight bits of the sum of its three inputs, V by note (2) with e7 the sign of the second adder
input, C by note (3): c8, or its inverse for a subtraction (`49_alu_functions.md` R308, R309). -/
def aluAdder (d second : Byte) (cin subtract : Bool) : AluOut :=
  let s := d.toNat + second.toNat + cin.toNat
  let u := BitVec.ofNat 8 s
  aluOut u (addOverflow (d.getLsbD 7) (second.getLsbD 7) (u.getLsbD 7)) (decide (256 ≤ s) ^^ subtract)

/-- The outputs of the ALU for a function and its three operands (`49_alu_functions.md` R291 to R306). -/
def alu (f : AluFn) (d e : Byte) (cin : Bool) : AluOut :=
  match f with
  | .f0000 => aluOut 0 false false
  | .f0001 => aluOut 0xFD false false
  | .f0010 => aluOut 0xFE false false
  | .f0011 => aluOut 0xFF false false
  | .f0100 => aluOut e false false
  | .f0101 => aluOut (~~~d + BitVec.zeroExtend 8 (BitVec.ofBool cin)) (d == 0x80) (d != 0)
  | .f0110 => aluOut (d ||| e) false false
  | .f0111 => aluOut (d &&& e) false false
  | .f1000 => aluOut (d ^^^ e) false false
  | .f1001 => aluAdder d 0 cin false
  | .f1010 => aluAdder d 0xFF false false
  | .f1011 => aluAdder d e cin false
  | .f1100 => aluAdder d (~~~e) cin true
  | .f1101 => aluOut ((d <<< 1) ||| BitVec.zeroExtend 8 (BitVec.ofBool cin)) (d.getLsbD 7 ^^ d.getLsbD 6) (d.getLsbD 7)
  | .f1110 => aluOut (BitVec.ofBool cin ++ d.extractLsb 7 1) (cin ^^ d.getLsbD 7) (d.getLsbD 0)
  | .f1111 => aluOut (d.sshiftRight 1) false (d.getLsbD 0)

/-! The flag columns of the instruction tables (`00_scope.md` R13, `10_state.md` R33). -/

/-- One entry of a flag column. -/
inductive FlagRule where
  /-- "-": the flag is not affected. -/
  | keep
  /-- "0": the flag is cleared. -/
  | clear
  /-- "1": the flag is set. -/
  | set
  /-- "Δ": the flag takes the ALU's output. -/
  | delta
deriving DecidableEq, Repr

/-- The flag after an instruction, from the ALU's output and the flag before. -/
def FlagRule.apply (r : FlagRule) (output old : Bool) : Bool :=
  match r with
  | .keep => old
  | .clear => false
  | .set => true
  | .delta => output

/-- The N Z V C columns of one instruction. -/
structure FlagRow where
  n : FlagRule
  z : FlagRule
  v : FlagRule
  c : FlagRule
deriving DecidableEq, Repr

/-- CC after an instruction with these columns; I is not an ALU output and stays (`10_state.md` R31). -/
def FlagRow.apply (r : FlagRow) (o : AluOut) (cc : CC) : CC :=
  { i := cc.i, n := r.n.apply o.n cc.n, z := r.z.apply o.z cc.z, v := r.v.apply o.v cc.v, c := r.c.apply o.c cc.c }

/-- Δ Δ Δ Δ: add, subtract, compare, negate, shift left, rotate (`10_state.md` R33). -/
def rowArith : FlagRow := { n := .delta, z := .delta, v := .delta, c := .delta }
/-- 0 1 0 0: CLRA, CLR. -/
def rowClear : FlagRow := { n := .clear, z := .set, v := .clear, c := .clear }
/-- Δ Δ Δ -: INC, DEC. -/
def rowIncDec : FlagRow := { n := .delta, z := .delta, v := .delta, c := .keep }
/-- Δ Δ 0 -: loads, logic, BITA. -/
def rowLogic : FlagRow := { n := .delta, z := .delta, v := .clear, c := .keep }
/-- Δ Δ 0 0: TSTA, TST. -/
def rowTest : FlagRow := { n := .delta, z := .delta, v := .clear, c := .clear }
/-- 0 Δ Δ Δ: LSRA, LSR. -/
def rowLsr : FlagRow := { n := .clear, z := .delta, v := .delta, c := .delta }
/-- Δ Δ 0 Δ: ASRA, ASR. -/
def rowAsr : FlagRow := { n := .delta, z := .delta, v := .clear, c := .delta }

/-- Write the flags of an ALU result through an instruction's columns. -/
def State.setFlags (s : State) (r : FlagRow) (o : AluOut) : State := s.setCc (r.apply o s.cc)

/-! Shapes of instruction, over an ALU helper. -/

/-- A ← result, with flags: the accumulator instructions of `43_integer_arithmetic.md`, `45_logical.md`,
`46_shift_rotate.md`. -/
def writeA (row : FlagRow) (o : AluOut) (s : State) : State := (s.setA o.u).setFlags row o

/-- A ← f(operand), with flags, for an operand of table T-A. -/
def accumulate (row : FlagRow) (f : Byte → AluOut) (o : Source) (s : State) : State :=
  let r := readSource o s
  writeA row (f r.1) r.2

/-- Flags of f(operand) only, for an operand of table T-A (compare and bit test). -/
def testSource (row : FlagRow) (f : Byte → AluOut) (o : Source) (s : State) : State :=
  let r := readSource o s
  r.2.setFlags row (f r.1)

/-- Read-modify-write of a cell of table T-M: one read, then one write of the same address, then the flags
(`20_memory.md` R70, R71). -/
def modifyCell (row : FlagRow) (f : Byte → AluOut) (c : Cell) (s : State) : State :=
  let r := memRead s (ea c s)
  let o := f r.1
  (memWrite r.2 (ea c s) o.u).setFlags row o

/-- PC ← PC + offset if the condition holds; PC already points after the branch (`30_encoding.md` R98, R174). -/
def branchIf (cond : Bool) (off : Byte) (s : State) : State :=
  if cond then s.setPc (s.pc + off) else s

end Sys2Proof.Machine
end

