-- ==== Sys2Proof/Machine/Arithmetic.lean ====
section
/-! DEFINITION. Integer arithmetic (`43_integer_arithmetic.md`). In each meaning PC already points after the instruction's bytes
(`10_state.md` R25, R34). -/

namespace Sys2Proof.Machine

/-- ADDA: A ← A + m; N, Z, V, C (`43_integer_arithmetic.md` R200). -/
def execAdda (o : Source) (s : State) : Result :=
  .next (accumulate rowArith (fun m => add8 s.a m false) o s)

/-- ADCA: A ← A + m + C; N, Z, V, C (`43_integer_arithmetic.md` R201). -/
def execAdca (o : Source) (s : State) : Result :=
  .next (accumulate rowArith (fun m => add8 s.a m s.cc.c) o s)

/-- SUBA: A ← A - m; N, Z, V, C (`43_integer_arithmetic.md` R202). -/
def execSuba (o : Source) (s : State) : Result :=
  .next (accumulate rowArith (fun m => sub8 s.a m false) o s)

/-- SBCA: A ← A - m - C; N, Z, V, C (`43_integer_arithmetic.md` R203). -/
def execSbca (o : Source) (s : State) : Result :=
  .next (accumulate rowArith (fun m => sub8 s.a m s.cc.c) o s)

/-- CLRA: A ← 0; N = 0, Z = 1, V = 0, C = 0 (`43_integer_arithmetic.md` R204). -/
def execClra (s : State) : Result :=
  .next (writeA rowClear (alu .f0000 0 0 false) s)

/-- CLR: M[EA] ← 0 without reading it; flags as CLRA (`43_integer_arithmetic.md` R205, D25). -/
def execClr (c : Cell) (s : State) : Result :=
  .next ((memWrite s (ea c s) 0).setFlags rowClear (alu .f0000 0 0 false))

/-- NEGA: A ← 0 - A; N, Z, V, C (`43_integer_arithmetic.md` R206). -/
def execNega (s : State) : Result :=
  .next (writeA rowArith (neg8 s.a) s)

/-- NEG: M[EA] ← 0 - M[EA]; N, Z, V, C (`43_integer_arithmetic.md` R207). -/
def execNeg (c : Cell) (s : State) : Result :=
  .next (modifyCell rowArith neg8 c s)

/-- DECA: A ← A - 1; N, Z, V, C kept (`43_integer_arithmetic.md` R208). -/
def execDeca (s : State) : Result :=
  .next (writeA rowIncDec (dec8 s.a) s)

/-- DEC: M[EA] ← M[EA] - 1; N, Z, V, C kept (`43_integer_arithmetic.md` R209). -/
def execDec (c : Cell) (s : State) : Result :=
  .next (modifyCell rowIncDec dec8 c s)

/-- INCA: A ← A + 1; N, Z, V, C kept (`43_integer_arithmetic.md` R210). -/
def execInca (s : State) : Result :=
  .next (writeA rowIncDec (inc8 s.a) s)

/-- INC: M[EA] ← M[EA] + 1; N, Z, V, C kept (`43_integer_arithmetic.md` R211). -/
def execInc (c : Cell) (s : State) : Result :=
  .next (modifyCell rowIncDec inc8 c s)

end Sys2Proof.Machine
end

