-- ==== Sys2Proof/Machine/DataMovement.lean ====
section
/-! DEFINITION. Register transfer and exchange (`41_data_movement.md`). In each meaning PC already points after the instruction's bytes
(`10_state.md` R25, R34). -/

namespace Sys2Proof.Machine

/-- TFR A,CC: the flags from bits 4..0 of A (`41_data_movement.md` R150, D14). -/
def execTfrACc (s : State) : Result :=
  .next (loadCc s.a s)

/-- TFR CC,A: A ← CC copied out (`41_data_movement.md` R151, D1). -/
def execTfrCcA (s : State) : Result :=
  let r := copyCc s
  .next (r.2.setA r.1)

/-- TFR X,Y: Y ← X (`41_data_movement.md` R152). -/
def execTfrXY (s : State) : Result :=
  .next (s.setY s.x)

/-- TFR Y,X: X ← Y (`41_data_movement.md` R153). -/
def execTfrYX (s : State) : Result :=
  .next (s.setX s.y)

/-- TFR X,SP: SP ← X (`41_data_movement.md` R154). -/
def execTfrXSp (s : State) : Result :=
  .next (s.setSp s.x)

/-- TFR SP,X: X ← SP (`41_data_movement.md` R155). -/
def execTfrSpX (s : State) : Result :=
  .next (s.setX s.sp)

/-- TFR Y,SP: SP ← Y (`41_data_movement.md` R156). -/
def execTfrYSp (s : State) : Result :=
  .next (s.setSp s.y)

/-- TFR SP,Y: Y ← SP (`41_data_movement.md` R157). -/
def execTfrSpY (s : State) : Result :=
  .next (s.setY s.sp)

/-- EXG A,CC: both sides read before either is written (`41_data_movement.md` R158, D1, D14). -/
def execExgACc (s : State) : Result :=
  let r := copyCc s
  .next ((loadCc s.a r.2).setA r.1)

/-- EXG X,Y (`41_data_movement.md` R159). -/
def execExgXY (s : State) : Result :=
  .next ((s.setX s.y).setY s.x)

/-- EXG X,SP (`41_data_movement.md` R160). -/
def execExgXSp (s : State) : Result :=
  .next ((s.setX s.sp).setSp s.x)

/-- EXG Y,SP (`41_data_movement.md` R161). -/
def execExgYSp (s : State) : Result :=
  .next ((s.setY s.sp).setSp s.y)

end Sys2Proof.Machine
end

