-- ==== Sys2Proof/Machine/FlowControl.lean ====
section
/-! DEFINITION. Program flow control (`42_flow_control.md`). In each meaning PC already points after the instruction's bytes
(`10_state.md` R25, R34). -/

namespace Sys2Proof.Machine

/-- JMP: PC ← the effective address itself (`42_flow_control.md` R170, `30_encoding.md` R106). -/
def execJmp (c : Cell) (s : State) : Result :=
  .next (s.setPc (ea c s))

/-- JSR: push the return address, PC ← the effective address (`42_flow_control.md` R171). -/
def execJsr (c : Cell) (s : State) : Result :=
  .next ((push s.pc s).setPc (ea c s))

/-- BRA: PC ← PC + offset (`42_flow_control.md` R172). -/
def execBra (off : Byte) (s : State) : Result :=
  .next (branchIf true off s)

/-- BSR: push the return address, PC ← PC + offset (`42_flow_control.md` R173). -/
def execBsr (off : Byte) (s : State) : Result :=
  .next ((push s.pc s).setPc (s.pc + off))

/-- BMI: branch if N = 1 (`42_flow_control.md` R174, R175). -/
def execBmi (off : Byte) (s : State) : Result :=
  .next (branchIf s.cc.n off s)

/-- BPL: branch if N = 0 (`42_flow_control.md` R174, R176). -/
def execBpl (off : Byte) (s : State) : Result :=
  .next (branchIf (!s.cc.n) off s)

/-- BEQ: branch if Z = 1 (`42_flow_control.md` R174, R177). -/
def execBeq (off : Byte) (s : State) : Result :=
  .next (branchIf s.cc.z off s)

/-- BNE: branch if Z = 0 (`42_flow_control.md` R174, R178). -/
def execBne (off : Byte) (s : State) : Result :=
  .next (branchIf (!s.cc.z) off s)

/-- BVS: branch if V = 1 (`42_flow_control.md` R174, R179). -/
def execBvs (off : Byte) (s : State) : Result :=
  .next (branchIf s.cc.v off s)

/-- BVC: branch if V = 0 (`42_flow_control.md` R174, R180). -/
def execBvc (off : Byte) (s : State) : Result :=
  .next (branchIf (!s.cc.v) off s)

/-- BCS: branch if C = 1 (`42_flow_control.md` R174, R181). -/
def execBcs (off : Byte) (s : State) : Result :=
  .next (branchIf s.cc.c off s)

/-- BCC: branch if C = 0 (`42_flow_control.md` R174, R182). -/
def execBcc (off : Byte) (s : State) : Result :=
  .next (branchIf (!s.cc.c) off s)

/-- BHI: branch if C or Z = 0 (`42_flow_control.md` R174, R183). -/
def execBhi (off : Byte) (s : State) : Result :=
  .next (branchIf (!(s.cc.c || s.cc.z)) off s)

/-- BLS: branch if C or Z = 1 (`42_flow_control.md` R174, R184). -/
def execBls (off : Byte) (s : State) : Result :=
  .next (branchIf (s.cc.c || s.cc.z) off s)

/-- BGT: branch if (N xor V) or Z = 0 (`42_flow_control.md` R174, R185). -/
def execBgt (off : Byte) (s : State) : Result :=
  .next (branchIf (!((s.cc.n ^^ s.cc.v) || s.cc.z)) off s)

/-- BGE: branch if N xor V = 0 (`42_flow_control.md` R174, R186). -/
def execBge (off : Byte) (s : State) : Result :=
  .next (branchIf (!(s.cc.n ^^ s.cc.v)) off s)

/-- BLE: branch if (N xor V) or Z = 1 (`42_flow_control.md` R174, R187). -/
def execBle (off : Byte) (s : State) : Result :=
  .next (branchIf ((s.cc.n ^^ s.cc.v) || s.cc.z) off s)

/-- BLT: branch if N xor V = 1 (`42_flow_control.md` R174, R188). -/
def execBlt (off : Byte) (s : State) : Result :=
  .next (branchIf (s.cc.n ^^ s.cc.v) off s)

/-- RTS: PC ← pulled byte (`42_flow_control.md` R189). -/
def execRts (s : State) : Result :=
  let r := pull s
  .next (r.2.setPc r.1)

/-- RTI: return from exception (`42_flow_control.md` R190). -/
def execRti (s : State) : Result :=
  .next (returnFromException s)

end Sys2Proof.Machine
end

