-- ==== Sys2Proof/Machine/LoadStore.lean ====
section
/-! DEFINITION. Load, load effective address and store (`40_load_store.md`). In each meaning PC already points after the instruction's bytes
(`10_state.md` R25, R34). -/

namespace Sys2Proof.Machine

/-- LDA: A ← operand; N, Z from it, V cleared (`40_load_store.md` R130). -/
def execLda (o : LoadOperand) (s : State) : Result :=
  let r := readLoad o s
  .next (writeA rowLogic (pass8 r.1) r.2)

/-- LDX: X ← operand; N, Z from it, V cleared (`40_load_store.md` R131). -/
def execLdx (o : Source) (s : State) : Result :=
  let r := readSource o s
  .next ((r.2.setX r.1).setFlags rowLogic (pass8 r.1))

/-- LDY: Y ← operand; N, Z from it, V cleared (`40_load_store.md` R132). -/
def execLdy (o : Source) (s : State) : Result :=
  let r := readSource o s
  .next ((r.2.setY r.1).setFlags rowLogic (pass8 r.1))

/-- LDSP: SP ← operand; N, Z from it, V cleared (`40_load_store.md` R133). -/
def execLdsp (o : Source) (s : State) : Result :=
  let r := readSource o s
  .next ((r.2.setSp r.1).setFlags rowLogic (pass8 r.1))

/-- LEAX: X ← the effective address itself; no flag (`40_load_store.md` R134). -/
def execLeax (c : Cell) (s : State) : Result :=
  .next (s.setX (ea c s))

/-- LEAY: Y ← the effective address itself; no flag (`40_load_store.md` R135). -/
def execLeay (c : Cell) (s : State) : Result :=
  .next (s.setY (ea c s))

/-- LEASP: SP ← the effective address itself; no flag (`40_load_store.md` R136). -/
def execLeasp (c : Cell) (s : State) : Result :=
  .next (s.setSp (ea c s))

/-- STA: M[EA] ← A, with the register step; no flag (`40_load_store.md` R137). -/
def execSta (m : MemOperand) (s : State) : Result :=
  .next (storeTo m s.a s)

/-- STX: M[EA] ← X; no flag (`40_load_store.md` R138). -/
def execStx (c : Cell) (s : State) : Result :=
  .next (memWrite s (ea c s) s.x)

/-- STY: M[EA] ← Y; no flag (`40_load_store.md` R139). -/
def execSty (c : Cell) (s : State) : Result :=
  .next (memWrite s (ea c s) s.y)

/-- STSP: M[EA] ← SP; no flag (`40_load_store.md` R140). -/
def execStsp (c : Cell) (s : State) : Result :=
  .next (memWrite s (ea c s) s.sp)

end Sys2Proof.Machine
end

