-- ==== Sys2Proof/Machine/Logical.lean ====
section
/-! DEFINITION. Logical operations (`45_logical.md`). In each meaning PC already points after the instruction's bytes
(`10_state.md` R25, R34). -/

namespace Sys2Proof.Machine

/-- ANDA: A ← A &&& m; N, Z, V cleared, C kept (`45_logical.md` R235). -/
def execAnda (o : Source) (s : State) : Result :=
  .next (accumulate rowLogic (fun m => logic8 (s.a &&& m)) o s)

/-- ORA: A ← A ||| m; N, Z, V cleared, C kept (`45_logical.md` R236). -/
def execOra (o : Source) (s : State) : Result :=
  .next (accumulate rowLogic (fun m => logic8 (s.a ||| m)) o s)

/-- EORA: A ← A ^^^ m; N, Z, V cleared, C kept (`45_logical.md` R239). -/
def execEora (o : Source) (s : State) : Result :=
  .next (accumulate rowLogic (fun m => logic8 (s.a ^^^ m)) o s)

/-- ANDCC: each flag and its bit of the operand; bits 7..5 have no effect (`45_logical.md` R237). -/
def execAndcc (d : Byte) (s : State) : Result :=
  let b := ccOfByte d
  .next (s.setCc (CC.mk (s.cc.i && b.i) (s.cc.n && b.n) (s.cc.z && b.z) (s.cc.v && b.v) (s.cc.c && b.c)))

/-- ORCC: each flag or its bit of the operand; bits 7..5 have no effect (`45_logical.md` R238). -/
def execOrcc (d : Byte) (s : State) : Result :=
  let b := ccOfByte d
  .next (s.setCc (CC.mk (s.cc.i || b.i) (s.cc.n || b.n) (s.cc.z || b.z) (s.cc.v || b.v) (s.cc.c || b.c)))

/-- COMA: A ← complement of A; N, Z, V cleared, C kept (`45_logical.md` R240). -/
def execComa (s : State) : Result :=
  .next (writeA rowLogic (logic8 (~~~s.a)) s)

/-- COM: M[EA] ← its complement; N, Z, V cleared, C kept (`45_logical.md` R241). -/
def execCom (c : Cell) (s : State) : Result :=
  .next (modifyCell rowLogic (fun m => logic8 (~~~m)) c s)

end Sys2Proof.Machine
end

