-- ==== Sys2Proof/Machine/Misc.lean ====
section
/-! DEFINITION. NOP (`48_misc.md`) and the six illegal opcodes (`30_encoding.md` R108). In each meaning PC already points after the instruction's bytes
(`10_state.md` R25, R34). -/

namespace Sys2Proof.Machine

/-- NOP: nothing beyond the fetch (`48_misc.md` R285). -/
def execNop (s : State) : Result :=
  .next s

/-- The illegal opcode $03: trap entry (`30_encoding.md` R108, `60_exceptions.md` R332). -/
def execIllegal03 (s : State) : Result :=
  .next (takeTrap s)

/-- The illegal opcode $04: trap entry (`30_encoding.md` R108, `60_exceptions.md` R332). -/
def execIllegal04 (s : State) : Result :=
  .next (takeTrap s)

/-- The illegal opcode $DF: trap entry (`30_encoding.md` R108, `60_exceptions.md` R332). -/
def execIllegalDF (s : State) : Result :=
  .next (takeTrap s)

/-- The illegal opcode $E0: trap entry (`30_encoding.md` R108, `60_exceptions.md` R332). -/
def execIllegalE0 (s : State) : Result :=
  .next (takeTrap s)

/-- The illegal opcode $EF: trap entry (`30_encoding.md` R108, `60_exceptions.md` R332). -/
def execIllegalEF (s : State) : Result :=
  .next (takeTrap s)

/-- The illegal opcode $FF: trap entry (`30_encoding.md` R108, `60_exceptions.md` R332). -/
def execIllegalFF (s : State) : Result :=
  .next (takeTrap s)

end Sys2Proof.Machine
end

