-- ==== Sys2Proof/Machine/Shift.lean ====
section
/-! DEFINITION. Shift and rotate by one place (`46_shift_rotate.md`). In each meaning PC already points after the instruction's bytes
(`10_state.md` R25, R34). -/

namespace Sys2Proof.Machine

/-- ASRA: A shifted right, bit 7 kept; V cleared (`46_shift_rotate.md` R250). -/
def execAsra (s : State) : Result :=
  .next (writeA rowAsr (shr8 s.a (s.a.getLsbD 7)) s)

/-- ASR: M[EA] shifted right, bit 7 kept; V cleared (`46_shift_rotate.md` R251). -/
def execAsr (c : Cell) (s : State) : Result :=
  .next (modifyCell rowAsr (fun m => shr8 m (m.getLsbD 7)) c s)

/-- LSLA: A shifted left, 0 into bit 0 (`46_shift_rotate.md` R252). -/
def execLsla (s : State) : Result :=
  .next (writeA rowArith (shl8 s.a false) s)

/-- LSL: M[EA] shifted left, 0 into bit 0 (`46_shift_rotate.md` R253). -/
def execLsl (c : Cell) (s : State) : Result :=
  .next (modifyCell rowArith (fun m => shl8 m false) c s)

/-- LSRA: A shifted right, 0 into bit 7; N cleared (`46_shift_rotate.md` R254). -/
def execLsra (s : State) : Result :=
  .next (writeA rowLsr (shr8 s.a false) s)

/-- LSR: M[EA] shifted right, 0 into bit 7; N cleared (`46_shift_rotate.md` R255). -/
def execLsr (c : Cell) (s : State) : Result :=
  .next (modifyCell rowLsr (fun m => shr8 m false) c s)

/-- ROLA: A rotated left through C (`46_shift_rotate.md` R256). -/
def execRola (s : State) : Result :=
  .next (writeA rowArith (shl8 s.a s.cc.c) s)

/-- ROL: M[EA] rotated left through C (`46_shift_rotate.md` R257). -/
def execRol (c : Cell) (s : State) : Result :=
  .next (modifyCell rowArith (fun m => shl8 m s.cc.c) c s)

/-- RORA: A rotated right through C (`46_shift_rotate.md` R258). -/
def execRora (s : State) : Result :=
  .next (writeA rowArith (shr8 s.a s.cc.c) s)

/-- ROR: M[EA] rotated right through C (`46_shift_rotate.md` R259). -/
def execRor (c : Cell) (s : State) : Result :=
  .next (modifyCell rowArith (fun m => shr8 m s.cc.c) c s)

end Sys2Proof.Machine
end

