-- ==== Sys2Proof/Machine/Stack.lean ====
section
/-! DEFINITION. Stack instructions (`47_stack.md`). In each meaning PC already points after the instruction's bytes
(`10_state.md` R25, R34). -/

namespace Sys2Proof.Machine

/-- PSHA: push A; no flag (`47_stack.md` R272). -/
def execPsha (s : State) : Result :=
  .next (push s.a s)

/-- PSHX: push X; no flag (`47_stack.md` R273). -/
def execPshx (s : State) : Result :=
  .next (push s.x s)

/-- PSHY: push Y; no flag (`47_stack.md` R274). -/
def execPshy (s : State) : Result :=
  .next (push s.y s)

/-- PSHC: push CC copied out; no flag (`47_stack.md` R275, D1). -/
def execPshc (s : State) : Result :=
  let r := copyCc s
  .next (push r.1 r.2)

/-- PULA: A ← pulled byte; no flag (`47_stack.md` R276). -/
def execPula (s : State) : Result :=
  let r := pull s
  .next (r.2.setA r.1)

/-- PULX: X ← pulled byte; no flag (`47_stack.md` R277). -/
def execPulx (s : State) : Result :=
  let r := pull s
  .next (r.2.setX r.1)

/-- PULY: Y ← pulled byte; no flag (`47_stack.md` R278). -/
def execPuly (s : State) : Result :=
  let r := pull s
  .next (r.2.setY r.1)

/-- PULC: the flags from bits 4..0 of the pulled byte (`47_stack.md` R279, D14). -/
def execPulc (s : State) : Result :=
  let r := pull s
  .next (loadCc r.1 r.2)

end Sys2Proof.Machine
end

