-- ==== Sys2Proof/Machine/Test.lean ====
section
/-! DEFINITION. Integer test (`44_integer_test.md`). In each meaning PC already points after the instruction's bytes
(`10_state.md` R25, R34). -/

namespace Sys2Proof.Machine

/-- CMPA: flags of A - m (`44_integer_test.md` R220). -/
def execCmpa (o : Source) (s : State) : Result :=
  .next (testSource rowArith (fun m => sub8 s.a m false) o s)

/-- CMPX: flags of X - m (`44_integer_test.md` R221). -/
def execCmpx (o : Source) (s : State) : Result :=
  .next (testSource rowArith (fun m => sub8 s.x m false) o s)

/-- CMPY: flags of Y - m (`44_integer_test.md` R222). -/
def execCmpy (o : Source) (s : State) : Result :=
  .next (testSource rowArith (fun m => sub8 s.y m false) o s)

/-- CMPSP: flags of SP - m (`44_integer_test.md` R223). -/
def execCmpsp (o : Source) (s : State) : Result :=
  .next (testSource rowArith (fun m => sub8 s.sp m false) o s)

/-- BITA: N, Z of A and m, V cleared, C kept (`44_integer_test.md` R224). -/
def execBita (o : Source) (s : State) : Result :=
  .next (testSource rowLogic (fun m => logic8 (s.a &&& m)) o s)

/-- TSTA: N, Z of A; V and C cleared (`44_integer_test.md` R225). -/
def execTsta (s : State) : Result :=
  .next (s.setFlags rowTest (pass8 s.a))

/-- TST: N, Z of M[EA], read once and not written; V and C cleared (`44_integer_test.md` R226, D25). -/
def execTst (c : Cell) (s : State) : Result :=
  let r := memRead s (ea c s)
  .next (r.2.setFlags rowTest (pass8 r.1))

end Sys2Proof.Machine
end

