-- ==== Sys2Proof/Machine/Dispatch.lean ====
section
/-! DEFINITION. One arm per instruction, each one direct call of its meaning. -/

namespace Sys2Proof.Machine

open Sys2Proof

def exec (i : Instr) (s : State) : Host.Outcome State Fault Refusal :=
  match i with
  | .nop => Sys2Proof.Machine.execNop s
  | .andcc d => Sys2Proof.Machine.execAndcc d s
  | .orcc d => Sys2Proof.Machine.execOrcc d s
  | .illegal03 => Sys2Proof.Machine.execIllegal03 s
  | .illegal04 => Sys2Proof.Machine.execIllegal04 s
  | .clra => Sys2Proof.Machine.execClra s
  | .nega => Sys2Proof.Machine.execNega s
  | .inca => Sys2Proof.Machine.execInca s
  | .deca => Sys2Proof.Machine.execDeca s
  | .tsta => Sys2Proof.Machine.execTsta s
  | .coma => Sys2Proof.Machine.execComa s
  | .lsla => Sys2Proof.Machine.execLsla s
  | .lsra => Sys2Proof.Machine.execLsra s
  | .rola => Sys2Proof.Machine.execRola s
  | .rora => Sys2Proof.Machine.execRora s
  | .asra => Sys2Proof.Machine.execAsra s
  | .psha => Sys2Proof.Machine.execPsha s
  | .pshx => Sys2Proof.Machine.execPshx s
  | .pshy => Sys2Proof.Machine.execPshy s
  | .pshc => Sys2Proof.Machine.execPshc s
  | .pula => Sys2Proof.Machine.execPula s
  | .pulx => Sys2Proof.Machine.execPulx s
  | .puly => Sys2Proof.Machine.execPuly s
  | .pulc => Sys2Proof.Machine.execPulc s
  | .tfrACc => Sys2Proof.Machine.execTfrACc s
  | .tfrCcA => Sys2Proof.Machine.execTfrCcA s
  | .tfrXY => Sys2Proof.Machine.execTfrXY s
  | .tfrYX => Sys2Proof.Machine.execTfrYX s
  | .tfrXSp => Sys2Proof.Machine.execTfrXSp s
  | .tfrSpX => Sys2Proof.Machine.execTfrSpX s
  | .tfrYSp => Sys2Proof.Machine.execTfrYSp s
  | .tfrSpY => Sys2Proof.Machine.execTfrSpY s
  | .bsr off => Sys2Proof.Machine.execBsr off s
  | .bra off => Sys2Proof.Machine.execBra off s
  | .bmi off => Sys2Proof.Machine.execBmi off s
  | .bpl off => Sys2Proof.Machine.execBpl off s
  | .beq off => Sys2Proof.Machine.execBeq off s
  | .bne off => Sys2Proof.Machine.execBne off s
  | .bvs off => Sys2Proof.Machine.execBvs off s
  | .bvc off => Sys2Proof.Machine.execBvc off s
  | .bcs off => Sys2Proof.Machine.execBcs off s
  | .bcc off => Sys2Proof.Machine.execBcc off s
  | .bhi off => Sys2Proof.Machine.execBhi off s
  | .bls off => Sys2Proof.Machine.execBls off s
  | .bgt off => Sys2Proof.Machine.execBgt off s
  | .bge off => Sys2Proof.Machine.execBge off s
  | .ble off => Sys2Proof.Machine.execBle off s
  | .blt off => Sys2Proof.Machine.execBlt off s
  | .stx c => Sys2Proof.Machine.execStx c s
  | .sty c => Sys2Proof.Machine.execSty c s
  | .stsp c => Sys2Proof.Machine.execStsp c s
  | .jmp c => Sys2Proof.Machine.execJmp c s
  | .jsr c => Sys2Proof.Machine.execJsr c s
  | .clr c => Sys2Proof.Machine.execClr c s
  | .neg c => Sys2Proof.Machine.execNeg c s
  | .inc c => Sys2Proof.Machine.execInc c s
  | .dec c => Sys2Proof.Machine.execDec c s
  | .tst c => Sys2Proof.Machine.execTst c s
  | .com c => Sys2Proof.Machine.execCom c s
  | .lsl c => Sys2Proof.Machine.execLsl c s
  | .lsr c => Sys2Proof.Machine.execLsr c s
  | .rol c => Sys2Proof.Machine.execRol c s
  | .ror c => Sys2Proof.Machine.execRor c s
  | .asr c => Sys2Proof.Machine.execAsr c s
  | .rts => Sys2Proof.Machine.execRts s
  | .rti => Sys2Proof.Machine.execRti s
  | .ldx o => Sys2Proof.Machine.execLdx o s
  | .ldy o => Sys2Proof.Machine.execLdy o s
  | .ldsp o => Sys2Proof.Machine.execLdsp o s
  | .sbca o => Sys2Proof.Machine.execSbca o s
  | .suba o => Sys2Proof.Machine.execSuba o s
  | .adca o => Sys2Proof.Machine.execAdca o s
  | .adda o => Sys2Proof.Machine.execAdda o s
  | .cmpa o => Sys2Proof.Machine.execCmpa o s
  | .bita o => Sys2Proof.Machine.execBita o s
  | .anda o => Sys2Proof.Machine.execAnda o s
  | .ora o => Sys2Proof.Machine.execOra o s
  | .eora o => Sys2Proof.Machine.execEora o s
  | .cmpx o => Sys2Proof.Machine.execCmpx o s
  | .cmpy o => Sys2Proof.Machine.execCmpy o s
  | .cmpsp o => Sys2Proof.Machine.execCmpsp o s
  | .exgACc => Sys2Proof.Machine.execExgACc s
  | .exgXY => Sys2Proof.Machine.execExgXY s
  | .leasp c => Sys2Proof.Machine.execLeasp c s
  | .exgXSp => Sys2Proof.Machine.execExgXSp s
  | .leax c => Sys2Proof.Machine.execLeax c s
  | .leay c => Sys2Proof.Machine.execLeay c s
  | .exgYSp => Sys2Proof.Machine.execExgYSp s
  | .illegalDF => Sys2Proof.Machine.execIllegalDF s
  | .illegalE0 => Sys2Proof.Machine.execIllegalE0 s
  | .sta m => Sys2Proof.Machine.execSta m s
  | .illegalEF => Sys2Proof.Machine.execIllegalEF s
  | .lda o => Sys2Proof.Machine.execLda o s
  | .illegalFF => Sys2Proof.Machine.execIllegalFF s

end Sys2Proof.Machine
end

