-- ==== Sys2Proof/WellFormed.lean ====
section
/-! DEFINITION. Which operand forms the opcode map has an opcode for (`30_encoding.md` R107). -/

namespace Sys2Proof

/-- The modes of JMP and JSR: ab, nx, ax, ny, ay; there is no `n,SP` form (`42_flow_control.md` R170, R171). -/
def Cell.isJumpTarget : Cell → Bool
  | .ns _ => false
  | _ => true

/-- The modes of table T-A and of LDX, LDY, LDSP: im, ab, ns, nx, ny; no accumulator offset
(`43_integer_arithmetic.md` table T-A, `40_load_store.md` R131 to R133). -/
def Source.isTableTA : Source → Bool
  | .cell .ax => false
  | .cell .ay => false
  | _ => true

/-- The modes of CMPX and CMPY: im, ab, ns (`44_integer_test.md` R221, R222). -/
def Source.isIndexCompare : Source → Bool
  | .im _ => true
  | .cell (.ab _) => true
  | .cell (.ns _) => true
  | _ => false

/-- The modes of CMPSP: im, ab (`44_integer_test.md` R223). -/
def Source.isSpCompare : Source → Bool
  | .im _ => true
  | .cell (.ab _) => true
  | _ => false

/-- The modes of LEAX: nx, ns (`40_load_store.md` R134). -/
def Cell.isLeax : Cell → Bool
  | .nx _ => true
  | .ns _ => true
  | _ => false

/-- The modes of LEAY: ny, ns (`40_load_store.md` R135). -/
def Cell.isLeay : Cell → Bool
  | .ny _ => true
  | .ns _ => true
  | _ => false

/-- The modes of LEASP: ns, nx, ny (`40_load_store.md` R136). -/
def Cell.isLeasp : Cell → Bool
  | .ns _ => true
  | .nx _ => true
  | .ny _ => true
  | _ => false

/-- An instruction is well formed when the opcode map has an opcode for its operand form. STX, STY, STSP and the
unary instructions have all six cell modes, LDA and STA every form their operand type admits
(`40_load_store.md` R130, R137 to R140, `43_integer_arithmetic.md` table T-M). The meanings are total all the same:
DESIGN CHOICE, safe (log 11). -/
def Instr.wf : Instr → Bool
  | .jmp c => c.isJumpTarget
  | .jsr c => c.isJumpTarget
  | .ldx o => o.isTableTA
  | .ldy o => o.isTableTA
  | .ldsp o => o.isTableTA
  | .sbca o => o.isTableTA
  | .suba o => o.isTableTA
  | .adca o => o.isTableTA
  | .adda o => o.isTableTA
  | .cmpa o => o.isTableTA
  | .bita o => o.isTableTA
  | .anda o => o.isTableTA
  | .ora o => o.isTableTA
  | .eora o => o.isTableTA
  | .cmpx o => o.isIndexCompare
  | .cmpy o => o.isIndexCompare
  | .cmpsp o => o.isSpCompare
  | .leax c => c.isLeax
  | .leay c => c.isLeay
  | .leasp c => c.isLeasp
  | _ => true

end Sys2Proof
end

