-- ==== Sys2Proof/Decode.lean ====
section
/-! DEFINITION. Decoding and encoding: the opcode map (`30_encoding.md` R90 to R109) read by columns, and an encoder
written from the instruction tables of the family files. -/

namespace Sys2Proof

/-- What an opcode byte says: a whole one-byte instruction (format F1) or an instruction that awaits its operand byte
(format F2) (`30_encoding.md` R91, R92). -/
inductive OpForm where
  | f1 (i : Instr)
  | f2 (mk : Byte → Instr)

/-- Column 0x of the opcode map, rows x0 to xF (`30_encoding.md` R107). -/
def mapColumn0 : List OpForm :=
  [ .f1 .nop,
    .f2 .andcc,
    .f2 .orcc,
    .f1 .illegal03,
    .f1 .illegal04,
    .f1 .clra,
    .f1 .nega,
    .f1 .inca,
    .f1 .deca,
    .f1 .tsta,
    .f1 .coma,
    .f1 .lsla,
    .f1 .lsra,
    .f1 .rola,
    .f1 .rora,
    .f1 .asra ]

/-- Column 1x of the opcode map, rows x0 to xF (`30_encoding.md` R107). -/
def mapColumn1 : List OpForm :=
  [ .f1 .psha,
    .f1 .pshx,
    .f1 .pshy,
    .f1 .pshc,
    .f1 .pula,
    .f1 .pulx,
    .f1 .puly,
    .f1 .pulc,
    .f1 .tfrACc,
    .f1 .tfrCcA,
    .f1 .tfrXY,
    .f1 .tfrYX,
    .f1 .tfrXSp,
    .f1 .tfrSpX,
    .f1 .tfrYSp,
    .f1 .tfrSpY ]

/-- Column 2x of the opcode map, rows x0 to xF (`30_encoding.md` R107). -/
def mapColumn2 : List OpForm :=
  [ .f2 .bsr,
    .f2 .bra,
    .f2 .bmi,
    .f2 .bpl,
    .f2 .beq,
    .f2 .bne,
    .f2 .bvs,
    .f2 .bvc,
    .f2 .bcs,
    .f2 .bcc,
    .f2 .bhi,
    .f2 .bls,
    .f2 .bgt,
    .f2 .bge,
    .f2 .ble,
    .f2 .blt ]

/-- Column 3x of the opcode map, rows x0 to xF (`30_encoding.md` R107). -/
def mapColumn3 : List OpForm :=
  [ .f2 fun b => .stx (.ab b),
    .f2 fun b => .sty (.ab b),
    .f2 fun b => .stsp (.ab b),
    .f2 fun b => .jmp (.ab b),
    .f2 fun b => .jsr (.ab b),
    .f2 fun b => .clr (.ab b),
    .f2 fun b => .neg (.ab b),
    .f2 fun b => .inc (.ab b),
    .f2 fun b => .dec (.ab b),
    .f2 fun b => .tst (.ab b),
    .f2 fun b => .com (.ab b),
    .f2 fun b => .lsl (.ab b),
    .f2 fun b => .lsr (.ab b),
    .f2 fun b => .rol (.ab b),
    .f2 fun b => .ror (.ab b),
    .f2 fun b => .asr (.ab b) ]

/-- Column 4x of the opcode map, rows x0 to xF (`30_encoding.md` R107). -/
def mapColumn4 : List OpForm :=
  [ .f2 fun b => .stx (.ns b),
    .f2 fun b => .sty (.ns b),
    .f2 fun b => .stsp (.ns b),
    .f1 .rts,
    .f1 .rti,
    .f2 fun b => .clr (.ns b),
    .f2 fun b => .neg (.ns b),
    .f2 fun b => .inc (.ns b),
    .f2 fun b => .dec (.ns b),
    .f2 fun b => .tst (.ns b),
    .f2 fun b => .com (.ns b),
    .f2 fun b => .lsl (.ns b),
    .f2 fun b => .lsr (.ns b),
    .f2 fun b => .rol (.ns b),
    .f2 fun b => .ror (.ns b),
    .f2 fun b => .asr (.ns b) ]

/-- Column 5x of the opcode map, rows x0 to xF (`30_encoding.md` R107). -/
def mapColumn5 : List OpForm :=
  [ .f2 fun b => .stx (.nx b),
    .f2 fun b => .sty (.nx b),
    .f2 fun b => .stsp (.nx b),
    .f2 fun b => .jmp (.nx b),
    .f2 fun b => .jsr (.nx b),
    .f2 fun b => .clr (.nx b),
    .f2 fun b => .neg (.nx b),
    .f2 fun b => .inc (.nx b),
    .f2 fun b => .dec (.nx b),
    .f2 fun b => .tst (.nx b),
    .f2 fun b => .com (.nx b),
    .f2 fun b => .lsl (.nx b),
    .f2 fun b => .lsr (.nx b),
    .f2 fun b => .rol (.nx b),
    .f2 fun b => .ror (.nx b),
    .f2 fun b => .asr (.nx b) ]

/-- Column 6x of the opcode map, rows x0 to xF (`30_encoding.md` R107). -/
def mapColumn6 : List OpForm :=
  [ .f1 (.stx .ax),
    .f1 (.sty .ax),
    .f1 (.stsp .ax),
    .f1 (.jmp .ax),
    .f1 (.jsr .ax),
    .f1 (.clr .ax),
    .f1 (.neg .ax),
    .f1 (.inc .ax),
    .f1 (.dec .ax),
    .f1 (.tst .ax),
    .f1 (.com .ax),
    .f1 (.lsl .ax),
    .f1 (.lsr .ax),
    .f1 (.rol .ax),
    .f1 (.ror .ax),
    .f1 (.asr .ax) ]

/-- Column 7x of the opcode map, rows x0 to xF (`30_encoding.md` R107). -/
def mapColumn7 : List OpForm :=
  [ .f2 fun b => .stx (.ny b),
    .f2 fun b => .sty (.ny b),
    .f2 fun b => .stsp (.ny b),
    .f2 fun b => .jmp (.ny b),
    .f2 fun b => .jsr (.ny b),
    .f2 fun b => .clr (.ny b),
    .f2 fun b => .neg (.ny b),
    .f2 fun b => .inc (.ny b),
    .f2 fun b => .dec (.ny b),
    .f2 fun b => .tst (.ny b),
    .f2 fun b => .com (.ny b),
    .f2 fun b => .lsl (.ny b),
    .f2 fun b => .lsr (.ny b),
    .f2 fun b => .rol (.ny b),
    .f2 fun b => .ror (.ny b),
    .f2 fun b => .asr (.ny b) ]

/-- Column 8x of the opcode map, rows x0 to xF (`30_encoding.md` R107). -/
def mapColumn8 : List OpForm :=
  [ .f1 (.stx .ay),
    .f1 (.sty .ay),
    .f1 (.stsp .ay),
    .f1 (.jmp .ay),
    .f1 (.jsr .ay),
    .f1 (.clr .ay),
    .f1 (.neg .ay),
    .f1 (.inc .ay),
    .f1 (.dec .ay),
    .f1 (.tst .ay),
    .f1 (.com .ay),
    .f1 (.lsl .ay),
    .f1 (.lsr .ay),
    .f1 (.rol .ay),
    .f1 (.ror .ay),
    .f1 (.asr .ay) ]

/-- Column 9x of the opcode map, rows x0 to xF (`30_encoding.md` R107). -/
def mapColumn9 : List OpForm :=
  [ .f2 fun b => .ldx (.im b),
    .f2 fun b => .ldy (.im b),
    .f2 fun b => .ldsp (.im b),
    .f2 fun b => .sbca (.im b),
    .f2 fun b => .suba (.im b),
    .f2 fun b => .adca (.im b),
    .f2 fun b => .adda (.im b),
    .f2 fun b => .cmpa (.im b),
    .f2 fun b => .bita (.im b),
    .f2 fun b => .anda (.im b),
    .f2 fun b => .ora (.im b),
    .f2 fun b => .eora (.im b),
    .f2 fun b => .cmpx (.im b),
    .f2 fun b => .cmpy (.im b),
    .f2 fun b => .cmpsp (.im b),
    .f1 .exgACc ]

/-- Column Ax of the opcode map, rows x0 to xF (`30_encoding.md` R107). -/
def mapColumnA : List OpForm :=
  [ .f2 fun b => .ldx (.cell (.ab b)),
    .f2 fun b => .ldy (.cell (.ab b)),
    .f2 fun b => .ldsp (.cell (.ab b)),
    .f2 fun b => .sbca (.cell (.ab b)),
    .f2 fun b => .suba (.cell (.ab b)),
    .f2 fun b => .adca (.cell (.ab b)),
    .f2 fun b => .adda (.cell (.ab b)),
    .f2 fun b => .cmpa (.cell (.ab b)),
    .f2 fun b => .bita (.cell (.ab b)),
    .f2 fun b => .anda (.cell (.ab b)),
    .f2 fun b => .ora (.cell (.ab b)),
    .f2 fun b => .eora (.cell (.ab b)),
    .f2 fun b => .cmpx (.cell (.ab b)),
    .f2 fun b => .cmpy (.cell (.ab b)),
    .f2 fun b => .cmpsp (.cell (.ab b)),
    .f1 .exgXY ]

/-- Column Bx of the opcode map, rows x0 to xF (`30_encoding.md` R107). -/
def mapColumnB : List OpForm :=
  [ .f2 fun b => .ldx (.cell (.ns b)),
    .f2 fun b => .ldy (.cell (.ns b)),
    .f2 fun b => .ldsp (.cell (.ns b)),
    .f2 fun b => .sbca (.cell (.ns b)),
    .f2 fun b => .suba (.cell (.ns b)),
    .f2 fun b => .adca (.cell (.ns b)),
    .f2 fun b => .adda (.cell (.ns b)),
    .f2 fun b => .cmpa (.cell (.ns b)),
    .f2 fun b => .bita (.cell (.ns b)),
    .f2 fun b => .anda (.cell (.ns b)),
    .f2 fun b => .ora (.cell (.ns b)),
    .f2 fun b => .eora (.cell (.ns b)),
    .f2 fun b => .cmpx (.cell (.ns b)),
    .f2 fun b => .cmpy (.cell (.ns b)),
    .f2 fun b => .leasp (.ns b),
    .f1 .exgXSp ]

/-- Column Cx of the opcode map, rows x0 to xF (`30_encoding.md` R107). -/
def mapColumnC : List OpForm :=
  [ .f2 fun b => .ldx (.cell (.nx b)),
    .f2 fun b => .ldy (.cell (.nx b)),
    .f2 fun b => .ldsp (.cell (.nx b)),
    .f2 fun b => .sbca (.cell (.nx b)),
    .f2 fun b => .suba (.cell (.nx b)),
    .f2 fun b => .adca (.cell (.nx b)),
    .f2 fun b => .adda (.cell (.nx b)),
    .f2 fun b => .cmpa (.cell (.nx b)),
    .f2 fun b => .bita (.cell (.nx b)),
    .f2 fun b => .anda (.cell (.nx b)),
    .f2 fun b => .ora (.cell (.nx b)),
    .f2 fun b => .eora (.cell (.nx b)),
    .f2 fun b => .leax (.nx b),
    .f2 fun b => .leay (.ny b),
    .f2 fun b => .leasp (.nx b),
    .f1 .exgYSp ]

/-- Column Dx of the opcode map, rows x0 to xF (`30_encoding.md` R107). -/
def mapColumnD : List OpForm :=
  [ .f2 fun b => .ldx (.cell (.ny b)),
    .f2 fun b => .ldy (.cell (.ny b)),
    .f2 fun b => .ldsp (.cell (.ny b)),
    .f2 fun b => .sbca (.cell (.ny b)),
    .f2 fun b => .suba (.cell (.ny b)),
    .f2 fun b => .adca (.cell (.ny b)),
    .f2 fun b => .adda (.cell (.ny b)),
    .f2 fun b => .cmpa (.cell (.ny b)),
    .f2 fun b => .bita (.cell (.ny b)),
    .f2 fun b => .anda (.cell (.ny b)),
    .f2 fun b => .ora (.cell (.ny b)),
    .f2 fun b => .eora (.cell (.ny b)),
    .f2 fun b => .leax (.ns b),
    .f2 fun b => .leay (.ns b),
    .f2 fun b => .leasp (.ny b),
    .f1 .illegalDF ]

/-- Column Ex of the opcode map, rows x0 to xF (`30_encoding.md` R107). -/
def mapColumnE : List OpForm :=
  [ .f1 .illegalE0,
    .f2 fun b => .sta (.cell (.ab b)),
    .f2 fun b => .sta (.cell (.ns b)),
    .f2 fun b => .sta (.cell (.nx b)),
    .f1 (.sta (.cell .ax)),
    .f1 (.sta (.auto .x .postInc)),
    .f1 (.sta (.auto .x .postDec)),
    .f1 (.sta (.auto .x .preInc)),
    .f1 (.sta (.auto .x .preDec)),
    .f2 fun b => .sta (.cell (.ny b)),
    .f1 (.sta (.cell .ay)),
    .f1 (.sta (.auto .y .postInc)),
    .f1 (.sta (.auto .y .postDec)),
    .f1 (.sta (.auto .y .preInc)),
    .f1 (.sta (.auto .y .preDec)),
    .f1 .illegalEF ]

/-- Column Fx of the opcode map, rows x0 to xF (`30_encoding.md` R107). -/
def mapColumnF : List OpForm :=
  [ .f2 fun b => .lda (.im b),
    .f2 fun b => .lda (.mem (.cell (.ab b))),
    .f2 fun b => .lda (.mem (.cell (.ns b))),
    .f2 fun b => .lda (.mem (.cell (.nx b))),
    .f1 (.lda (.mem (.cell .ax))),
    .f1 (.lda (.mem (.auto .x .postInc))),
    .f1 (.lda (.mem (.auto .x .postDec))),
    .f1 (.lda (.mem (.auto .x .preInc))),
    .f1 (.lda (.mem (.auto .x .preDec))),
    .f2 fun b => .lda (.mem (.cell (.ny b))),
    .f1 (.lda (.mem (.cell .ay))),
    .f1 (.lda (.mem (.auto .y .postInc))),
    .f1 (.lda (.mem (.auto .y .postDec))),
    .f1 (.lda (.mem (.auto .y .preInc))),
    .f1 (.lda (.mem (.auto .y .preDec))),
    .f1 .illegalFF ]

/-- The opcode map, columns 0x to Fx (`30_encoding.md` R107). -/
def opcodeMap : List (List OpForm) :=
  [ mapColumn0, mapColumn1, mapColumn2, mapColumn3, mapColumn4, mapColumn5, mapColumn6, mapColumn7,
    mapColumn8, mapColumn9, mapColumnA, mapColumnB, mapColumnC, mapColumnD, mapColumnE, mapColumnF ]

/-- The opcode byte alone selects operation, mode, registers and length (`30_encoding.md` R93). The map has an entry
for every byte, so neither default is ever taken. -/
def decodeOp (op : Byte) : OpForm :=
  (opcodeMap.getD (op.toNat / 16) []).getD (op.toNat % 16) (.f1 .illegalFF)

/-- Why a list of bytes holds no instruction. -/
inductive DecodeError where
  /-- There is no opcode byte. -/
  | noOpcode
  /-- The opcode has format F2 and its operand byte is missing. -/
  | noOperand (op : Byte)
deriving DecidableEq, Repr

/-- Read one instruction from the front of a list of bytes, lowest address first (`30_encoding.md` R90): the instruction
and the bytes after it. Every opcode value is an instruction or an illegal opcode of length 1 (R108, R109), so only
a missing byte is rejected. -/
def decode : List Byte → Except DecodeError (Instr × List Byte)
  | [] => .error .noOpcode
  | op :: rest =>
    match decodeOp op with
    | .f1 i => .ok (i, rest)
    | .f2 mk =>
      match rest with
      | [] => .error (.noOperand op)
      | b :: rest' => .ok (mk b, rest')

/-- The length in bytes of the instruction whose opcode is `op` (`30_encoding.md` R93). -/
def opLength (op : Byte) : Nat :=
  match decodeOp op with
  | .f1 _ => 1
  | .f2 _ => 2

/-- The instruction in the low `nbits` bits of `w`, first byte in bits 7..0; every bit above is 0. -/
def tableBytes (nbits w : Nat) : List Byte :=
  [BitVec.ofNat 8 (w % 2 ^ nbits), BitVec.ofNat 8 (w % 2 ^ nbits / 256)]

/-- The instruction the decoder reads from a word of the opcode table. -/
def decodeTableWord (nbits w : Nat) : Option Instr :=
  match decode (tableBytes nbits w) with
  | .ok (i, _) => some i
  | .error _ => none

/-! The encoder. -/

/-- Table T-M: the high digit 3, 4, 5, 6, 7, 8 is the mode ab, ns, nx, ax, ny, ay, the low digit the operation
(`43_integer_arithmetic.md` table T-M, `40_load_store.md` R138 to R140). -/
def cellBytes (lo : Byte) : Cell → List Byte
  | .ab b => [0x30 + lo, b]
  | .ns b => [0x40 + lo, b]
  | .nx b => [0x50 + lo, b]
  | .ax => [0x60 + lo]
  | .ny b => [0x70 + lo, b]
  | .ay => [0x80 + lo]

/-- The five forms of JMP and JSR (`42_flow_control.md` R170, R171). -/
def jumpBytes (lo : Byte) : Cell → Option (List Byte)
  | .ab b => some [0x30 + lo, b]
  | .nx b => some [0x50 + lo, b]
  | .ax => some [0x60 + lo]
  | .ny b => some [0x70 + lo, b]
  | .ay => some [0x80 + lo]
  | .ns _ => none

/-- Table T-A: the high digit 9, A, B, C, D is the mode im, ab, ns, nx, ny (`43_integer_arithmetic.md` table T-A,
`40_load_store.md` R131 to R133). -/
def sourceBytes (lo : Byte) : Source → Option (List Byte)
  | .im b => some [0x90 + lo, b]
  | .cell (.ab b) => some [0xA0 + lo, b]
  | .cell (.ns b) => some [0xB0 + lo, b]
  | .cell (.nx b) => some [0xC0 + lo, b]
  | .cell (.ny b) => some [0xD0 + lo, b]
  | .cell .ax => none
  | .cell .ay => none

/-- The compares of X, Y and SP have only the first rows of table T-A (`44_integer_test.md` R221 to R223). -/
def indexCompareBytes (lo : Byte) : Source → Option (List Byte)
  | .im b => some [0x90 + lo, b]
  | .cell (.ab b) => some [0xA0 + lo, b]
  | .cell (.ns b) => some [0xB0 + lo, b]
  | _ => none

/-- STA, opcodes $E1 to $EE (`40_load_store.md` R137). -/
def staBytes : MemOperand → List Byte
  | .cell (.ab b) => [0xE1, b]
  | .cell (.ns b) => [0xE2, b]
  | .cell (.nx b) => [0xE3, b]
  | .cell .ax => [0xE4]
  | .auto .x .postInc => [0xE5]
  | .auto .x .postDec => [0xE6]
  | .auto .x .preInc => [0xE7]
  | .auto .x .preDec => [0xE8]
  | .cell (.ny b) => [0xE9, b]
  | .cell .ay => [0xEA]
  | .auto .y .postInc => [0xEB]
  | .auto .y .postDec => [0xEC]
  | .auto .y .preInc => [0xED]
  | .auto .y .preDec => [0xEE]

/-- LDA, opcodes $F0 to $FE (`40_load_store.md` R130). -/
def ldaBytes : LoadOperand → List Byte
  | .im b => [0xF0, b]
  | .mem (.cell (.ab b)) => [0xF1, b]
  | .mem (.cell (.ns b)) => [0xF2, b]
  | .mem (.cell (.nx b)) => [0xF3, b]
  | .mem (.cell .ax) => [0xF4]
  | .mem (.auto .x .postInc) => [0xF5]
  | .mem (.auto .x .postDec) => [0xF6]
  | .mem (.auto .x .preInc) => [0xF7]
  | .mem (.auto .x .preDec) => [0xF8]
  | .mem (.cell (.ny b)) => [0xF9, b]
  | .mem (.cell .ay) => [0xFA]
  | .mem (.auto .y .postInc) => [0xFB]
  | .mem (.auto .y .postDec) => [0xFC]
  | .mem (.auto .y .preInc) => [0xFD]
  | .mem (.auto .y .preDec) => [0xFE]

/-- The bytes of an instruction, opcode first, from the tables of the family files (`40_load_store.md` to
`48_misc.md`); `none` for an operand form that has no opcode. -/
def encode : Instr → Option (List Byte)
  | .nop => some [0x00]
  | .andcc d => some [0x01, d]
  | .orcc d => some [0x02, d]
  | .illegal03 => some [0x03]
  | .illegal04 => some [0x04]
  | .illegalDF => some [0xDF]
  | .illegalE0 => some [0xE0]
  | .illegalEF => some [0xEF]
  | .illegalFF => some [0xFF]
  | .clra => some [0x05]
  | .nega => some [0x06]
  | .inca => some [0x07]
  | .deca => some [0x08]
  | .tsta => some [0x09]
  | .coma => some [0x0A]
  | .lsla => some [0x0B]
  | .lsra => some [0x0C]
  | .rola => some [0x0D]
  | .rora => some [0x0E]
  | .asra => some [0x0F]
  | .psha => some [0x10]
  | .pshx => some [0x11]
  | .pshy => some [0x12]
  | .pshc => some [0x13]
  | .pula => some [0x14]
  | .pulx => some [0x15]
  | .puly => some [0x16]
  | .pulc => some [0x17]
  | .tfrACc => some [0x18]
  | .tfrCcA => some [0x19]
  | .tfrXY => some [0x1A]
  | .tfrYX => some [0x1B]
  | .tfrXSp => some [0x1C]
  | .tfrSpX => some [0x1D]
  | .tfrYSp => some [0x1E]
  | .tfrSpY => some [0x1F]
  | .bsr o => some [0x20, o]
  | .bra o => some [0x21, o]
  | .bmi o => some [0x22, o]
  | .bpl o => some [0x23, o]
  | .beq o => some [0x24, o]
  | .bne o => some [0x25, o]
  | .bvs o => some [0x26, o]
  | .bvc o => some [0x27, o]
  | .bcs o => some [0x28, o]
  | .bcc o => some [0x29, o]
  | .bhi o => some [0x2A, o]
  | .bls o => some [0x2B, o]
  | .bgt o => some [0x2C, o]
  | .bge o => some [0x2D, o]
  | .ble o => some [0x2E, o]
  | .blt o => some [0x2F, o]
  | .stx c => some (cellBytes 0x0 c)
  | .sty c => some (cellBytes 0x1 c)
  | .stsp c => some (cellBytes 0x2 c)
  | .jmp c => jumpBytes 0x3 c
  | .jsr c => jumpBytes 0x4 c
  | .clr c => some (cellBytes 0x5 c)
  | .neg c => some (cellBytes 0x6 c)
  | .inc c => some (cellBytes 0x7 c)
  | .dec c => some (cellBytes 0x8 c)
  | .tst c => some (cellBytes 0x9 c)
  | .com c => some (cellBytes 0xA c)
  | .lsl c => some (cellBytes 0xB c)
  | .lsr c => some (cellBytes 0xC c)
  | .rol c => some (cellBytes 0xD c)
  | .ror c => some (cellBytes 0xE c)
  | .asr c => some (cellBytes 0xF c)
  | .rts => some [0x43]
  | .rti => some [0x44]
  | .ldx o => sourceBytes 0x0 o
  | .ldy o => sourceBytes 0x1 o
  | .ldsp o => sourceBytes 0x2 o
  | .sbca o => sourceBytes 0x3 o
  | .suba o => sourceBytes 0x4 o
  | .adca o => sourceBytes 0x5 o
  | .adda o => sourceBytes 0x6 o
  | .cmpa o => sourceBytes 0x7 o
  | .bita o => sourceBytes 0x8 o
  | .anda o => sourceBytes 0x9 o
  | .ora o => sourceBytes 0xA o
  | .eora o => sourceBytes 0xB o
  | .cmpx o => indexCompareBytes 0xC o
  | .cmpy o => indexCompareBytes 0xD o
  | .cmpsp (.im b) => some [0x9E, b]
  | .cmpsp (.cell (.ab b)) => some [0xAE, b]
  | .cmpsp _ => none
  | .exgACc => some [0x9F]
  | .exgXY => some [0xAF]
  | .exgXSp => some [0xBF]
  | .exgYSp => some [0xCF]
  | .leax (.nx b) => some [0xCC, b]
  | .leax (.ns b) => some [0xDC, b]
  | .leax _ => none
  | .leay (.ny b) => some [0xCD, b]
  | .leay (.ns b) => some [0xDD, b]
  | .leay _ => none
  | .leasp (.ns b) => some [0xBE, b]
  | .leasp (.nx b) => some [0xCE, b]
  | .leasp (.ny b) => some [0xDE, b]
  | .leasp _ => none
  | .sta m => some (staBytes m)
  | .lda o => some (ldaBytes o)

end Sys2Proof
end

