-- ==== Sys2Proof/Machine/Fetch.lean ====
section
/-! DEFINITION. What a step does around the instruction: the pins at the boundary, and the fetch. -/

namespace Sys2Proof.Machine

/-- The pins at this step boundary; an ended script is two pins not asserted (`60_exceptions.md` R330, R334, log 6). -/
def State.pinsNow (s : State) : Pins := s.env.pins.headD { reset := false, irq := false }

/-- The state with this boundary's sample used up. -/
def State.passBoundary (s : State) : State := s.setEnv { s.env with pins := s.env.pins.tail }

/-- Fetch one instruction at PC (`30_encoding.md` R90, R93): the opcode byte, and the operand byte if the opcode's format is
F2. PC ends after the instruction's bytes; an illegal opcode is one byte long (R108). -/
def fetchInstr (s : State) : Instr × State :=
  let r := fetch8 s
  match decodeOp r.1 with
  | .f1 i => (i, r.2)
  | .f2 mk =>
    let q := fetch8 r.2
    (mk q.1, q.2)

/-- Put a byte where a fetch at this address finds it: the cell, or the front of a port's input script. -/
def placeFetchByte (s : State) (addr v : Byte) : State :=
  match portOf addr with
  | some p => s.setEnv (s.env.setInput p (v :: s.env.input p))
  | none => s.setMem (Memory.write s.mem addr.toNat v)

/-- The coming boundary with neither pin asserted, if the script has a sample for it. -/
def State.calmPins (s : State) : State :=
  match s.env.pins with
  | [] => s
  | _ :: rest => s.setEnv { s.env with pins := { reset := false, irq := false } :: rest }

/-- Put the two bytes of a table word at PC and PC + 1. -/
def placeInstr (s : State) (nbits w : Nat) : State :=
  let b := tableBytes nbits w
  placeFetchByte (placeFetchByte s.calmPins s.pc (b.getD 0 0)) (s.pc + 1) (b.getD 1 0)

end Sys2Proof.Machine
end

