-- ==== Sys2Proof/Machine/Boundary.lean ====
section
/-! DEFINITION. What happens at one step boundary: the priority of the events and the instruction. -/

namespace Sys2Proof.Machine

/-- One step (`60_exceptions.md` R330, R340): Reset if it is asserted, else the interrupt entry if Interrupt is asserted
and CC.I is 0, else one whole instruction. Asserted is `true` in the sample; which level of the pin that is the spec does
not say (`70_reset_and_hazards.md` R380), and the model leaves it out: DESIGN CHOICE, safe (log 17). An illegal opcode decodes to an instruction whose meaning is the trap
entry. A reset that arrives inside an instruction is one at the boundary before or after it, as R380 says
(log 9). -/
def takeStep (s : State) : Result :=
  let now := s.pinsNow
  let s0 := s.passBoundary
  if now.reset then .next (takeReset s0)
  else if now.irq && !s0.cc.i then .next (takeIrq s0)
  else
    let f := fetchInstr s0
    exec f.1 f.2

end Sys2Proof.Machine
end

