-- ==== Sys2Proof/Machine/Step.lean ====
section
/-! DEFINITION. One step of the processor, and placing an instruction where it fetches. -/

namespace Sys2Proof.Machine

/-- One step of the processor (`60_exceptions.md` R330). -/
def step (s : State) : Host.Outcome State Fault Refusal := takeStep s

/-- The state with one instruction of the opcode table placed where the next step fetches, and that step's pins not asserted
(log 3). -/
def State.withFetchWord (s : State) (nbits w : Nat) : State := placeInstr s nbits w

end Sys2Proof.Machine
end

