-- ==== Sys2Proof/Machine/Ascii.lean ====
section
/-! DEFINITION. The ASCII table of the handbook's Part III (`30_encoding.md` R121), used by the directive FCS only. -/

namespace Sys2Proof.Machine

/-- One cell of the ASCII table: a control code by its name, or a graphic character. -/
inductive AsciiCell where
  | control (name : String)
  | graphic (c : Char)
deriving DecidableEq, Repr

/-- Column 0x, rows x0 to xF (`30_encoding.md` R121). The source prints $0F as "S1"; SI is PRESUMED (log 14). -/
def asciiColumn0 : List AsciiCell :=
  [.control "NUL", .control "SOH", .control "STX", .control "ETX",
   .control "EOT", .control "ENQ", .control "ACK", .control "BEL",
   .control "BS", .control "HT", .control "LF", .control "VT",
   .control "FF", .control "CR", .control "SO", .control "SI"]

/-- Column 1x, rows x0 to xF (`30_encoding.md` R121). -/
def asciiColumn1 : List AsciiCell :=
  [.control "DLE", .control "DC1", .control "DC2", .control "DC3",
   .control "DC4", .control "NAK", .control "SYN", .control "ETB",
   .control "CAN", .control "EM", .control "SUB", .control "ESC",
   .control "FS", .control "GS", .control "RS", .control "US"]

/-- Column 2x, rows x0 to xF (`30_encoding.md` R121). -/
def asciiColumn2 : List AsciiCell :=
  [.graphic ' ', .graphic '!', .graphic (Char.ofNat 0x22), .graphic '#',
   .graphic '$', .graphic '%', .graphic '&', .graphic '\'',
   .graphic '(', .graphic ')', .graphic '*', .graphic '+',
   .graphic ',', .graphic '-', .graphic '.', .graphic '/']

/-- Column 3x, rows x0 to xF (`30_encoding.md` R121). -/
def asciiColumn3 : List AsciiCell :=
  [.graphic '0', .graphic '1', .graphic '2', .graphic '3',
   .graphic '4', .graphic '5', .graphic '6', .graphic '7',
   .graphic '8', .graphic '9', .graphic ':', .graphic ';',
   .graphic '<', .graphic '=', .graphic '>', .graphic '?']

/-- Column 4x, rows x0 to xF (`30_encoding.md` R121). -/
def asciiColumn4 : List AsciiCell :=
  [.graphic '@', .graphic 'A', .graphic 'B', .graphic 'C',
   .graphic 'D', .graphic 'E', .graphic 'F', .graphic 'G',
   .graphic 'H', .graphic 'I', .graphic 'J', .graphic 'K',
   .graphic 'L', .graphic 'M', .graphic 'N', .graphic 'O']

/-- Column 5x, rows x0 to xF (`30_encoding.md` R121). -/
def asciiColumn5 : List AsciiCell :=
  [.graphic 'P', .graphic 'Q', .graphic 'R', .graphic 'S',
   .graphic 'T', .graphic 'U', .graphic 'V', .graphic 'W',
   .graphic 'X', .graphic 'Y', .graphic 'Z', .graphic '[',
   .graphic '\\', .graphic ']', .graphic '^', .graphic '_']

/-- Column 6x, rows x0 to xF (`30_encoding.md` R121). -/
def asciiColumn6 : List AsciiCell :=
  [.graphic '`', .graphic 'a', .graphic 'b', .graphic 'c',
   .graphic 'd', .graphic 'e', .graphic 'f', .graphic 'g',
   .graphic 'h', .graphic 'i', .graphic 'j', .graphic 'k',
   .graphic 'l', .graphic 'm', .graphic 'n', .graphic 'o']

/-- Column 7x, rows x0 to xF (`30_encoding.md` R121). The source leaves $7C blank; the vertical bar is PRESUMED (log 14). -/
def asciiColumn7 : List AsciiCell :=
  [.graphic 'p', .graphic 'q', .graphic 'r', .graphic 's',
   .graphic 't', .graphic 'u', .graphic 'v', .graphic 'w',
   .graphic 'x', .graphic 'y', .graphic 'z', .graphic (Char.ofNat 0x7B),
   .graphic '|', .graphic (Char.ofNat 0x7D), .graphic '~', .control "DEL"]

/-- The whole table: entry `n` is the cell of code `n`, $00 to $7F (`30_encoding.md` R121). -/
def asciiTable : List AsciiCell :=
  asciiColumn0 ++ asciiColumn1 ++ asciiColumn2 ++ asciiColumn3 ++ asciiColumn4 ++ asciiColumn5 ++ asciiColumn6 ++
    asciiColumn7

/-- The cell with this code is the one of this character. A graphic cell shows its character. A control cell shows a name
only; the character it names is taken to be Lean's of the same code (HT is `Char.ofNat 9`): DESIGN CHOICE, safe (log 16). -/
def AsciiCell.isFor (code : Nat) (c : Char) : AsciiCell → Bool
  | .control _ => c.toNat == code
  | .graphic g => c == g

/-- The code of a character in a list of cells, of which the first has code `code`. -/
def findAscii (c : Char) : List AsciiCell → Nat → Option Nat
  | [], _ => none
  | cell :: rest, code => if cell.isFor code c then some code else findAscii c rest (code + 1)

/-- The code of a character in the table (`30_encoding.md` R115, R121); none if the table does not have it. All 128 cells
count, the control characters among them: which of them a source string may hold the spec does not say
(`91_not_in_source.md` N7), DESIGN CHOICE, unsafe for source text only (log 16). -/
def asciiCode (c : Char) : Option Byte := (findAscii c asciiTable 0).map (BitVec.ofNat 8)

end Sys2Proof.Machine
end

