-- ==== Sys2Proof/Machine/Assembler.lean ====
section
/-! DEFINITION. The assembler as far as the spec gives it (`00_scope.md` R4, `30_encoding.md` R110 to R118): mnemonics and
aliases, operand syntax, number prefixes, the five directives, relative operands, and the memory image of a program. The
layout of a source line is not given (`91_not_in_source.md` N7), so a program is a list of lines already read (log 13). -/

namespace Sys2Proof.Machine

open Sys2Proof

/-- The assembler's mnemonics (`30_encoding.md` R119), the aliases BLO, BHS, ASLA and ASL among them (R117). -/
inductive Mnemonic where
  | lda
  | ldx
  | ldy
  | ldsp
  | leax
  | leay
  | leasp
  | sta
  | stx
  | sty
  | stsp
  | tfr
  | exg
  | jmp
  | jsr
  | bra
  | bsr
  | bmi
  | bpl
  | beq
  | bne
  | bvs
  | bvc
  | bcs
  | blo
  | bcc
  | bhs
  | bhi
  | bls
  | bgt
  | bge
  | ble
  | blt
  | rts
  | rti
  | adda
  | adca
  | suba
  | sbca
  | clra
  | clr
  | nega
  | neg
  | deca
  | dec
  | inca
  | inc
  | cmpa
  | cmpx
  | cmpy
  | cmpsp
  | bita
  | tsta
  | tst
  | anda
  | ora
  | andcc
  | orcc
  | eora
  | coma
  | com
  | asra
  | asr
  | lsla
  | asla
  | lsl
  | asl
  | lsra
  | lsr
  | rola
  | rol
  | rora
  | ror
  | psha
  | pshx
  | pshy
  | pshc
  | pula
  | pulx
  | puly
  | pulc
  | nop
deriving DecidableEq, Repr

/-- How a mnemonic is written. -/
def Mnemonic.text : Mnemonic → String
  | .lda => "LDA"
  | .ldx => "LDX"
  | .ldy => "LDY"
  | .ldsp => "LDSP"
  | .leax => "LEAX"
  | .leay => "LEAY"
  | .leasp => "LEASP"
  | .sta => "STA"
  | .stx => "STX"
  | .sty => "STY"
  | .stsp => "STSP"
  | .tfr => "TFR"
  | .exg => "EXG"
  | .jmp => "JMP"
  | .jsr => "JSR"
  | .bra => "BRA"
  | .bsr => "BSR"
  | .bmi => "BMI"
  | .bpl => "BPL"
  | .beq => "BEQ"
  | .bne => "BNE"
  | .bvs => "BVS"
  | .bvc => "BVC"
  | .bcs => "BCS"
  | .blo => "BLO"
  | .bcc => "BCC"
  | .bhs => "BHS"
  | .bhi => "BHI"
  | .bls => "BLS"
  | .bgt => "BGT"
  | .bge => "BGE"
  | .ble => "BLE"
  | .blt => "BLT"
  | .rts => "RTS"
  | .rti => "RTI"
  | .adda => "ADDA"
  | .adca => "ADCA"
  | .suba => "SUBA"
  | .sbca => "SBCA"
  | .clra => "CLRA"
  | .clr => "CLR"
  | .nega => "NEGA"
  | .neg => "NEG"
  | .deca => "DECA"
  | .dec => "DEC"
  | .inca => "INCA"
  | .inc => "INC"
  | .cmpa => "CMPA"
  | .cmpx => "CMPX"
  | .cmpy => "CMPY"
  | .cmpsp => "CMPSP"
  | .bita => "BITA"
  | .tsta => "TSTA"
  | .tst => "TST"
  | .anda => "ANDA"
  | .ora => "ORA"
  | .andcc => "ANDCC"
  | .orcc => "ORCC"
  | .eora => "EORA"
  | .coma => "COMA"
  | .com => "COM"
  | .asra => "ASRA"
  | .asr => "ASR"
  | .lsla => "LSLA"
  | .asla => "ASLA"
  | .lsl => "LSL"
  | .asl => "ASL"
  | .lsra => "LSRA"
  | .lsr => "LSR"
  | .rola => "ROLA"
  | .rol => "ROL"
  | .rora => "RORA"
  | .ror => "ROR"
  | .psha => "PSHA"
  | .pshx => "PSHX"
  | .pshy => "PSHY"
  | .pshc => "PSHC"
  | .pula => "PULA"
  | .pulx => "PULX"
  | .puly => "PULY"
  | .pulc => "PULC"
  | .nop => "NOP"

/-- The base of an alias: an alias assembles to the same opcodes (`30_encoding.md` R117). -/
def Mnemonic.base : Mnemonic → Mnemonic
  | .asla => .lsla
  | .asl => .lsl
  | .bhs => .bcc
  | .blo => .bcs
  | m => m

/-- Register names in operands (`30_encoding.md` R110). -/
inductive AsmReg where
  | a
  | x
  | y
  | sp
  | cc
deriving DecidableEq, Repr

/-- An operand as written (`30_encoding.md` R110), over values not yet or already resolved. -/
inductive AsmOperand (α : Type) where
  /-- Nothing after the mnemonic (ih). -/
  | none
  /-- `#<DATA>` (im). -/
  | imm (v : α)
  /-- `<ADRESS>`, an address or a destination (ab, pc). -/
  | adr (v : α)
  /-- `n,SP`, `n,X`, `n,Y` (ns, nx, ny). -/
  | idx (v : α) (r : AsmReg)
  /-- `A,X`, `A,Y` (ax, ay). -/
  | acc (r : IndexReg)
  /-- `,X+` and its kin. -/
  | auto (r : IndexReg) (k : AutoStep)
  /-- The two register names of TFR and EXG. -/
  | pair (r1 r2 : AsmReg)
deriving DecidableEq, Repr

/-- A register name. -/
def AsmReg.text : AsmReg → String
  | .a => "A"
  | .x => "X"
  | .y => "Y"
  | .sp => "SP"
  | .cc => "CC"

/-- The name of an index register. -/
def indexText : IndexReg → String
  | .x => "X"
  | .y => "Y"

/-- How an operand is written, given how its value is (`30_encoding.md` R110). -/
def AsmOperand.text {α : Type} (value : α → String) : AsmOperand α → String
  | .none => ""
  | .imm v => "#" ++ value v
  | .adr v => value v
  | .idx v r => value v ++ "," ++ r.text
  | .acc r => "A," ++ indexText r
  | .auto r .postInc => "," ++ indexText r ++ "+"
  | .auto r .postDec => "," ++ indexText r ++ "-"
  | .auto r .preInc => ",+" ++ indexText r
  | .auto r .preDec => ",-" ++ indexText r
  | .pair r1 r2 => r1.text ++ "," ++ r2.text

/-! Number prefixes (`30_encoding.md` R111). -/

/-- The value of a digit character. That a hexadecimal digit may be a small letter too is DESIGN CHOICE, unsafe for source
text only (log 13): the spec does not give the case. -/
def digitValue (c : Char) : Option Nat :=
  let n := c.toNat
  if 0x30 ≤ n ∧ n ≤ 0x39 then some (n - 0x30)
  else if 0x41 ≤ n ∧ n ≤ 0x46 then some (n - 0x41 + 10)
  else if 0x61 ≤ n ∧ n ≤ 0x66 then some (n - 0x61 + 10)
  else none

/-- The number written by digits in a base, on top of what stands before them. -/
def readDigits (base : Nat) : List Char → Nat → Option Nat
  | [], acc => some acc
  | c :: cs, acc =>
    match digitValue c with
    | some d => if d < base then readDigits base cs (acc * base + d) else none
    | none => none

/-- A number without sign: prefix % binary, $ hexadecimal, none decimal (`30_encoding.md` R111). A sign is read by
`readConst`; a prefix without digits is refused: DESIGN CHOICE (log 13). -/
def readNumber : List Char → Option Nat
  | '%' :: c :: cs => readDigits 2 (c :: cs) 0
  | '$' :: c :: cs => readDigits 16 (c :: cs) 0
  | c :: cs => readDigits 10 (c :: cs) 0
  | [] => none

/-- A constant, "with or without sign" (`30_encoding.md` R99). The spec does not show a sign: that it is one + or - and
stands before the number's prefix is DESIGN CHOICE, unsafe for source text only (log 13). -/
def readConst : List Char → Option Int
  | '-' :: cs => (readNumber cs).map fun n => -(n : Int)
  | '+' :: cs => (readNumber cs).map fun n => (n : Int)
  | cs => (readNumber cs).map fun n => (n : Int)

/-! One instruction. -/

/-- A cell operand (`30_encoding.md` R110, modes ab, ns, nx, ax, ny, ay). -/
def asmCell : AsmOperand Byte → Option Cell
  | .adr v => some (.ab v)
  | .idx v .sp => some (.ns v)
  | .idx v .x => some (.nx v)
  | .idx v .y => some (.ny v)
  | .acc .x => some .ax
  | .acc .y => some .ay
  | _ => none

/-- An operand of table T-A. -/
def asmSource : AsmOperand Byte → Option Source
  | .imm v => some (.im v)
  | o => (asmCell o).map .cell

/-- An operand of STA. -/
def asmMem : AsmOperand Byte → Option MemOperand
  | .auto r k => some (.auto r k)
  | o => (asmCell o).map .cell

/-- An operand of LDA. -/
def asmLoad : AsmOperand Byte → Option LoadOperand
  | .imm v => some (.im v)
  | o => (asmMem o).map .mem

/-- The offset byte of a relative operand at `op_addr`: (Adr - (op_addr + 2)) mod 256 (`30_encoding.md` R118). -/
def asmOffset (opAddr : Byte) : AsmOperand Byte → Option Byte
  | .adr v => some (v - (opAddr + 2))
  | _ => none

/-- An instruction written without operand. -/
def asmPlain (i : Instr) : AsmOperand Byte → Option Instr
  | .none => some i
  | _ => none

/-- The immediate operand of ANDCC and ORCC. -/
def asmImm : AsmOperand Byte → Option Byte
  | .imm v => some v
  | _ => none

/-- TFR's register pairs (`41_data_movement.md` R150 to R157). -/
def asmTfr : AsmOperand Byte → Option Instr
  | .pair .a .cc => some .tfrACc
  | .pair .cc .a => some .tfrCcA
  | .pair .x .y => some .tfrXY
  | .pair .y .x => some .tfrYX
  | .pair .x .sp => some .tfrXSp
  | .pair .sp .x => some .tfrSpX
  | .pair .y .sp => some .tfrYSp
  | .pair .sp .y => some .tfrSpY
  | _ => none

/-- EXG's register pairs (`41_data_movement.md` R158 to R161). -/
def asmExg : AsmOperand Byte → Option Instr
  | .pair .a .cc => some .exgACc
  | .pair .x .y => some .exgXY
  | .pair .x .sp => some .exgXSp
  | .pair .y .sp => some .exgYSp
  | _ => none

/-- The instruction of a mnemonic and an operand at `opAddr`, an operand form without opcode included. -/
def asmForm (opAddr : Byte) (m : Mnemonic) (o : AsmOperand Byte) : Option Instr :=
  match m.base with
  | .tfr => asmTfr o
  | .exg => asmExg o
  | .lda => (asmLoad o).map .lda
  | .sta => (asmMem o).map .sta
  | .andcc => (asmImm o).map .andcc
  | .orcc => (asmImm o).map .orcc
  | .ldx => (asmSource o).map .ldx
  | .ldy => (asmSource o).map .ldy
  | .ldsp => (asmSource o).map .ldsp
  | .adda => (asmSource o).map .adda
  | .adca => (asmSource o).map .adca
  | .suba => (asmSource o).map .suba
  | .sbca => (asmSource o).map .sbca
  | .cmpa => (asmSource o).map .cmpa
  | .cmpx => (asmSource o).map .cmpx
  | .cmpy => (asmSource o).map .cmpy
  | .cmpsp => (asmSource o).map .cmpsp
  | .bita => (asmSource o).map .bita
  | .anda => (asmSource o).map .anda
  | .ora => (asmSource o).map .ora
  | .eora => (asmSource o).map .eora
  | .leax => (asmCell o).map .leax
  | .leay => (asmCell o).map .leay
  | .leasp => (asmCell o).map .leasp
  | .stx => (asmCell o).map .stx
  | .sty => (asmCell o).map .sty
  | .stsp => (asmCell o).map .stsp
  | .jmp => (asmCell o).map .jmp
  | .jsr => (asmCell o).map .jsr
  | .clr => (asmCell o).map .clr
  | .neg => (asmCell o).map .neg
  | .dec => (asmCell o).map .dec
  | .inc => (asmCell o).map .inc
  | .tst => (asmCell o).map .tst
  | .com => (asmCell o).map .com
  | .asr => (asmCell o).map .asr
  | .lsl => (asmCell o).map .lsl
  | .lsr => (asmCell o).map .lsr
  | .rol => (asmCell o).map .rol
  | .ror => (asmCell o).map .ror
  | .bra => (asmOffset opAddr o).map .bra
  | .bsr => (asmOffset opAddr o).map .bsr
  | .bmi => (asmOffset opAddr o).map .bmi
  | .bpl => (asmOffset opAddr o).map .bpl
  | .beq => (asmOffset opAddr o).map .beq
  | .bne => (asmOffset opAddr o).map .bne
  | .bvs => (asmOffset opAddr o).map .bvs
  | .bvc => (asmOffset opAddr o).map .bvc
  | .bcs => (asmOffset opAddr o).map .bcs
  | .bcc => (asmOffset opAddr o).map .bcc
  | .bhi => (asmOffset opAddr o).map .bhi
  | .bls => (asmOffset opAddr o).map .bls
  | .bgt => (asmOffset opAddr o).map .bgt
  | .bge => (asmOffset opAddr o).map .bge
  | .ble => (asmOffset opAddr o).map .ble
  | .blt => (asmOffset opAddr o).map .blt
  | .rts => asmPlain .rts o
  | .rti => asmPlain .rti o
  | .clra => asmPlain .clra o
  | .nega => asmPlain .nega o
  | .deca => asmPlain .deca o
  | .inca => asmPlain .inca o
  | .tsta => asmPlain .tsta o
  | .coma => asmPlain .coma o
  | .asra => asmPlain .asra o
  | .lsla => asmPlain .lsla o
  | .lsra => asmPlain .lsra o
  | .rola => asmPlain .rola o
  | .rora => asmPlain .rora o
  | .psha => asmPlain .psha o
  | .pshx => asmPlain .pshx o
  | .pshy => asmPlain .pshy o
  | .pshc => asmPlain .pshc o
  | .pula => asmPlain .pula o
  | .pulx => asmPlain .pulx o
  | .puly => asmPlain .puly o
  | .pulc => asmPlain .pulc o
  | .nop => asmPlain .nop o
  | .asla => asmPlain .lsla o
  | .asl => (asmCell o).map .lsl
  | .bhs => (asmOffset opAddr o).map .bcc
  | .blo => (asmOffset opAddr o).map .bcs

/-- Assemble one instruction: the operand form must have an opcode (`30_encoding.md` R107, R110). -/
def assembleInstr (opAddr : Byte) (m : Mnemonic) (o : AsmOperand Byte) : Option Instr :=
  match asmForm opAddr m o with
  | some i => if i.wf then some i else none
  | none => none

/-! The other direction: how an instruction is written. -/

/-- A cell operand as written. -/
def cellSyntax : Cell → AsmOperand Byte
  | .ab v => .adr v
  | .ns v => .idx v .sp
  | .nx v => .idx v .x
  | .ny v => .idx v .y
  | .ax => .acc .x
  | .ay => .acc .y

/-- A source operand as written. -/
def sourceSyntax : Source → AsmOperand Byte
  | .im v => .imm v
  | .cell c => cellSyntax c

/-- An operand of STA as written. -/
def memSyntax : MemOperand → AsmOperand Byte
  | .cell c => cellSyntax c
  | .auto r k => .auto r k

/-- An operand of LDA as written. -/
def loadSyntax : LoadOperand → AsmOperand Byte
  | .im v => .imm v
  | .mem m => memSyntax m

/-- The mnemonic and operand of an instruction at `opAddr`; an illegal opcode has none (`30_encoding.md` R108, R110). A branch
is written with its destination (R98, R118). -/
def instrSyntax (opAddr : Byte) : Instr → Option (Mnemonic × AsmOperand Byte)
  | .illegal03 | .illegal04 | .illegalDF | .illegalE0 | .illegalEF | .illegalFF => none
  | .tfrACc => some (.tfr, .pair .a .cc)
  | .tfrCcA => some (.tfr, .pair .cc .a)
  | .tfrXY => some (.tfr, .pair .x .y)
  | .tfrYX => some (.tfr, .pair .y .x)
  | .tfrXSp => some (.tfr, .pair .x .sp)
  | .tfrSpX => some (.tfr, .pair .sp .x)
  | .tfrYSp => some (.tfr, .pair .y .sp)
  | .tfrSpY => some (.tfr, .pair .sp .y)
  | .exgACc => some (.exg, .pair .a .cc)
  | .exgXY => some (.exg, .pair .x .y)
  | .exgXSp => some (.exg, .pair .x .sp)
  | .exgYSp => some (.exg, .pair .y .sp)
  | .lda o => some (.lda, loadSyntax o)
  | .sta m => some (.sta, memSyntax m)
  | .andcc d => some (.andcc, .imm d)
  | .orcc d => some (.orcc, .imm d)
  | .ldx o => some (.ldx, sourceSyntax o)
  | .ldy o => some (.ldy, sourceSyntax o)
  | .ldsp o => some (.ldsp, sourceSyntax o)
  | .adda o => some (.adda, sourceSyntax o)
  | .adca o => some (.adca, sourceSyntax o)
  | .suba o => some (.suba, sourceSyntax o)
  | .sbca o => some (.sbca, sourceSyntax o)
  | .cmpa o => some (.cmpa, sourceSyntax o)
  | .cmpx o => some (.cmpx, sourceSyntax o)
  | .cmpy o => some (.cmpy, sourceSyntax o)
  | .cmpsp o => some (.cmpsp, sourceSyntax o)
  | .bita o => some (.bita, sourceSyntax o)
  | .anda o => some (.anda, sourceSyntax o)
  | .ora o => some (.ora, sourceSyntax o)
  | .eora o => some (.eora, sourceSyntax o)
  | .leax c => some (.leax, cellSyntax c)
  | .leay c => some (.leay, cellSyntax c)
  | .leasp c => some (.leasp, cellSyntax c)
  | .stx c => some (.stx, cellSyntax c)
  | .sty c => some (.sty, cellSyntax c)
  | .stsp c => some (.stsp, cellSyntax c)
  | .jmp c => some (.jmp, cellSyntax c)
  | .jsr c => some (.jsr, cellSyntax c)
  | .clr c => some (.clr, cellSyntax c)
  | .neg c => some (.neg, cellSyntax c)
  | .dec c => some (.dec, cellSyntax c)
  | .inc c => some (.inc, cellSyntax c)
  | .tst c => some (.tst, cellSyntax c)
  | .com c => some (.com, cellSyntax c)
  | .asr c => some (.asr, cellSyntax c)
  | .lsl c => some (.lsl, cellSyntax c)
  | .lsr c => some (.lsr, cellSyntax c)
  | .rol c => some (.rol, cellSyntax c)
  | .ror c => some (.ror, cellSyntax c)
  | .bra off => some (.bra, .adr (opAddr + 2 + off))
  | .bsr off => some (.bsr, .adr (opAddr + 2 + off))
  | .bmi off => some (.bmi, .adr (opAddr + 2 + off))
  | .bpl off => some (.bpl, .adr (opAddr + 2 + off))
  | .beq off => some (.beq, .adr (opAddr + 2 + off))
  | .bne off => some (.bne, .adr (opAddr + 2 + off))
  | .bvs off => some (.bvs, .adr (opAddr + 2 + off))
  | .bvc off => some (.bvc, .adr (opAddr + 2 + off))
  | .bcs off => some (.bcs, .adr (opAddr + 2 + off))
  | .bcc off => some (.bcc, .adr (opAddr + 2 + off))
  | .bhi off => some (.bhi, .adr (opAddr + 2 + off))
  | .bls off => some (.bls, .adr (opAddr + 2 + off))
  | .bgt off => some (.bgt, .adr (opAddr + 2 + off))
  | .bge off => some (.bge, .adr (opAddr + 2 + off))
  | .ble off => some (.ble, .adr (opAddr + 2 + off))
  | .blt off => some (.blt, .adr (opAddr + 2 + off))
  | .rts => some (.rts, .none)
  | .rti => some (.rti, .none)
  | .clra => some (.clra, .none)
  | .nega => some (.nega, .none)
  | .deca => some (.deca, .none)
  | .inca => some (.inca, .none)
  | .tsta => some (.tsta, .none)
  | .coma => some (.coma, .none)
  | .asra => some (.asra, .none)
  | .lsla => some (.lsla, .none)
  | .lsra => some (.lsra, .none)
  | .rola => some (.rola, .none)
  | .rora => some (.rora, .none)
  | .psha => some (.psha, .none)
  | .pshx => some (.pshx, .none)
  | .pshy => some (.pshy, .none)
  | .pshc => some (.pshc, .none)
  | .pula => some (.pula, .none)
  | .pulx => some (.pulx, .none)
  | .puly => some (.puly, .none)
  | .pulc => some (.pulc, .none)
  | .nop => some (.nop, .none)

/-! Programs (`30_encoding.md` R111 to R116). -/

/-- `<Val>`: a constant, with or without sign, or a symbol (`30_encoding.md` R99, R111). -/
inductive Val where
  | const (n : Int)
  | sym (name : String)
deriving DecidableEq, Repr

/-- A line of a program. -/
inductive Line where
  /-- `ORG <Val>`: the start address of what follows (R112). -/
  | org (v : Val)
  /-- `Sym EQU <Val>` (R113). -/
  | equ (sym : String) (v : Val)
  /-- `[Sym] FCB <Val>,<Val>...` (R114). -/
  | fcb (label : Option String) (vs : List Val)
  /-- `[Sym] FCS "<ASCII>"` (R115). -/
  | fcs (label : Option String) (text : List Char)
  /-- `[Sym] RMB <Val>` (R116). -/
  | rmb (label : Option String) (v : Val)
  /-- An instruction, with the label that names its address (R110). -/
  | op (label : Option String) (m : Mnemonic) (o : AsmOperand Val)
deriving DecidableEq, Repr

/-- Why a program does not assemble. -/
inductive AsmError where
  /-- A symbol has no value where one is needed. -/
  | undefinedSymbol (name : String)
  /-- The operand form has no opcode. -/
  | noSuchForm (m : Mnemonic)
  /-- A character is not in the ASCII table, so the spec gives it no code (log 16). -/
  | notAscii (c : Char)
deriving DecidableEq, Repr

/-- Symbols and their values. -/
abbrev Symbols := List (String × Int)

/-- The value of a symbol, the latest definition first. -/
def lookup (name : String) : Symbols → Option Int
  | [] => none
  | (n, v) :: rest => if n = name then some v else lookup name rest

/-- The value of a `<Val>`. -/
def resolve (t : Symbols) : Val → Except AsmError Int
  | .const n => .ok n
  | .sym name =>
    match lookup name t with
    | some v => .ok v
    | none => .error (.undefinedSymbol name)

/-- The byte a `<Val>` stands for: its value modulo 256 (`30_encoding.md` R99). -/
def resolveByte (t : Symbols) (v : Val) : Except AsmError Byte := (resolve t v).map (BitVec.ofInt 8)

/-- An operand with its values resolved. -/
def resolveOperand (t : Symbols) : AsmOperand Val → Except AsmError (AsmOperand Byte)
  | .none => .ok .none
  | .imm v => (resolveByte t v).map .imm
  | .adr v => (resolveByte t v).map .adr
  | .idx v r => (resolveByte t v).map (fun b => .idx b r)
  | .acc r => .ok (.acc r)
  | .auto r k => .ok (.auto r k)
  | .pair r1 r2 => .ok (.pair r1 r2)

/-- The bytes of one instruction at `opAddr`. -/
def assembleBytes (opAddr : Byte) (m : Mnemonic) (o : AsmOperand Byte) : Except AsmError (List Byte) :=
  match assembleInstr opAddr m o with
  | some i =>
    match encode i with
    | some bs => .ok bs
    | none => .error (.noSuchForm m)
  | none => .error (.noSuchForm m)

/-- The same operand with every value 0: it decides the length of the instruction. -/
def operandShape : AsmOperand Val → AsmOperand Byte
  | .none => .none
  | .imm _ => .imm 0
  | .adr _ => .adr 0
  | .idx _ r => .idx 0 r
  | .acc r => .acc r
  | .auto r k => .auto r k
  | .pair r1 r2 => .pair r1 r2

/-- A label takes the current location (`30_encoding.md` R114). -/
def define (label : Option String) (loc : Byte) (t : Symbols) : Symbols :=
  match label with
  | some name => (name, (loc.toNat : Int)) :: t
  | none => t

/-- What one line does to the location and the symbols. Its labels take the location before it. A symbol in ORG, EQU or RMB
has its value from an earlier line, the latest of them, and there alone: a later definition does not reach back
(`30_encoding.md` R112 to R116; for EQU and RMB, and for a symbol defined twice, DESIGN CHOICE, unsafe for source text
only, log 13). -/
def passLine (loc : Byte) (t : Symbols) : Line → Except AsmError (Byte × Symbols)
  | .org v => (resolveByte t v).map fun start => (start, t)
  | .equ sym v => (resolve t v).map fun n => (loc, (sym, n) :: t)
  | .fcb label vs => .ok (loc + BitVec.ofNat 8 vs.length, define label loc t)
  | .fcs label text => .ok (loc + BitVec.ofNat 8 text.length, define label loc t)
  | .rmb label v => (resolveByte t v).map fun n => (loc + n, define label loc t)
  | .op label m o =>
    (assembleBytes loc m (operandShape o)).map fun bs => (loc + BitVec.ofNat 8 bs.length, define label loc t)

/-- First pass: the value of every symbol, and the location of every line. -/
def collect : List Line → Byte → Symbols → Except AsmError (Symbols × List (Byte × Line))
  | [], _, t => .ok (t, [])
  | l :: rest, loc, t => do
    let next ← passLine loc t l
    let r ← collect rest next.1 next.2
    .ok (r.1, (loc, l) :: r.2)

/-- Bytes at consecutive increasing addresses from a location (`30_encoding.md` R114). -/
def placeBytes : Byte → List Byte → List (Byte × Byte)
  | _, [] => []
  | loc, b :: bs => (loc, b) :: placeBytes (loc + 1) bs

/-- The values of FCB. -/
def resolveAll (t : Symbols) : List Val → Except AsmError (List Byte)
  | [] => .ok []
  | v :: vs => do
    let b ← resolveByte t v
    let bs ← resolveAll t vs
    .ok (b :: bs)

/-- The codes of FCS: one byte per character, any of the 128 of the table (log 16), and no
terminator (`30_encoding.md` R115, log 13). -/
def stringCodes : List Char → Except AsmError (List Byte)
  | [] => .ok []
  | c :: cs =>
    match asciiCode c with
    | some b => (stringCodes cs).map (b :: ·)
    | none => .error (.notAscii c)

/-- The bytes of a line at its location, under all symbols of the program. ORG, EQU and RMB emit nothing
(`30_encoding.md` R112 to R116). -/
def lineBytes (t : Symbols) (loc : Byte) : Line → Except AsmError (List Byte)
  | .org _ | .equ _ _ | .rmb _ _ => .ok []
  | .fcb _ vs => resolveAll t vs
  | .fcs _ text => stringCodes text
  | .op _ m o => do
    let o' ← resolveOperand t o
    assembleBytes loc m o'

/-- Second pass: the image, each line's bytes at the location the first pass gave the line. -/
def emit (t : Symbols) : List (Byte × Line) → Except AsmError (List (Byte × Byte))
  | [] => .ok []
  | (loc, l) :: rest => do
    let bs ← lineBytes t loc l
    let more ← emit t rest
    .ok (placeBytes loc bs ++ more)

/-- The memory image of a program, for `State.boot` (`MEM_INIT`, `10_state.md` R40). -/
def assemble (program : List Line) : Except AsmError (List (Byte × Byte)) := do
  let r ← collect program 0 []
  emit r.1 r.2

end Sys2Proof.Machine
end

