-- ==== Sys2Proof/Machine/Timing.lean ====
section
/-! DEFINITION. Clock cycles (`70_reset_and_hazards.md` R386, R387, `30_encoding.md` R120). No result of an instruction
depends on them, so State holds no clock. -/

namespace Sys2Proof.Machine

/-- `imm` cycles for an immediate operand, else `memory`. -/
def sourceCycles (imm memory : Nat) : Source → Nat
  | .im _ => imm
  | .cell _ => memory

/-- The "~" column: the fixed number of clock cycles of each instruction, taken branch or not; none is given for an
illegal opcode (`70_reset_and_hazards.md` R386, R387). -/
def cycles : Instr → Option Nat
  | .illegal03 | .illegal04 | .illegalDF | .illegalE0 | .illegalEF | .illegalFF => none
  | .nop | .tsta | .rts => some 2
  | .tfrACc | .tfrCcA | .tfrXY | .tfrYX | .tfrXSp | .tfrSpX | .tfrYSp | .tfrSpY => some 2
  | .jmp (.ab _) => some 2
  | .jmp _ => some 4
  | .jsr (.ab _) => some 4
  | .jsr _ => some 5
  | .clra | .nega | .inca | .deca | .coma | .lsla | .lsra | .rola | .rora | .asra => some 3
  | .psha | .pshx | .pshy | .pshc | .pula | .pulx | .puly | .pulc => some 3
  | .andcc _ | .orcc _ => some 4
  | .bra _ | .bmi _ | .bpl _ | .beq _ | .bne _ | .bvs _ | .bvc _ | .bcs _ | .bcc _ => some 4
  | .bhi _ | .bls _ | .bgt _ | .bge _ | .ble _ | .blt _ => some 4
  | .bsr _ => some 5
  | .exgACc | .exgXY | .exgXSp | .exgYSp => some 4
  | .leax _ | .leay _ | .leasp _ => some 4
  | .lda (.im _) => some 2
  | .lda (.mem (.cell _)) => some 3
  | .lda (.mem (.auto _ _)) => some 4
  | .sta (.cell _) => some 3
  | .sta (.auto _ _) => some 4
  | .ldx o | .ldy o | .ldsp o => some (sourceCycles 2 3 o)
  | .stx _ | .sty _ | .stsp _ | .clr _ | .tst _ => some 3
  | .neg _ | .inc _ | .dec _ | .com _ | .lsl _ | .lsr _ | .rol _ | .ror _ | .asr _ => some 4
  | .cmpa o | .bita o | .cmpx o | .cmpy o | .cmpsp o => some (sourceCycles 3 4 o)
  | .adda o | .adca o | .suba o | .sbca o | .anda o | .ora o | .eora o => some (sourceCycles 4 5 o)
  | .rti => some 6

/-- The clock cycles one step takes: an instruction's count, or the unknown count of an entry, named by its vector
(`ENTRY_CYCLES`, `70_reset_and_hazards.md` R387, D17). -/
def stepCycles (s : State) : Nat :=
  if s.pinsNow.reset then Config.entryCycles resetVector
  else if s.pinsNow.irq && !s.cc.i then Config.entryCycles irqVector
  else (cycles (fetchInstr s.passBoundary).1).getD (Config.entryCycles trapVector)

end Sys2Proof.Machine
end

