-- ==== Sys2Proof/Safety.lean ====
section
/-! DEFINITION. The words the statements use: what one store does, where an instruction stores, which registers and flags
it may write, how its rows of the opcode table read, when an entry frame is kept, and when a run is over. -/

namespace Sys2Proof.Machine

open Sys2Proof

/-! Cells and stores. -/

/-- The address holds a cell that keeps what is written to it: no port, and writable (`20_memory.md` R61, R66). -/
abbrev State.keeps (s : State) (adr : Byte) : Prop := portOf adr = none ∧ adr ∉ s.params.readOnly

/-- `t` has the memory and the output events of `s` after the one store of `v` at `adr`: a writable cell takes the value, a
read-only one does not, a port sends it out, and every other byte is unchanged (`20_memory.md` R61, R65, R66). -/
abbrev Stored (s t : State) (adr v : Byte) : Prop :=
  (s.keeps adr → t.cell adr = v) ∧
  (¬ s.keeps adr → t.cell adr = s.cell adr) ∧
  (∀ b : Byte, b ≠ adr → t.cell b = s.cell b) ∧
  (portOf adr = none → t.out = s.out) ∧
  (∀ p : Port, portOf adr = some p → t.out = s.out ++ [(p, v)])

/-- The addresses an instruction stores to, in the order of its stores, computed as its meaning computes them
(`40_load_store.md`, `42_flow_control.md`, `43_integer_arithmetic.md` table T-M, `47_stack.md` R270,
`60_exceptions.md` R336). -/
def storeAddresses (i : Instr) (s : State) : List Byte :=
  match i with
  | .sta m => [memAddress m s]
  | .stx c | .sty c | .stsp c => [ea c s]
  | .clr c | .neg c | .inc c | .dec c | .com c => [ea c s]
  | .lsl c | .lsr c | .rol c | .ror c | .asr c => [ea c s]
  | .psha | .pshx | .pshy | .pshc | .jsr _ | .bsr _ => [s.sp - 1]
  | .illegal03 | .illegal04 | .illegalDF | .illegalE0 | .illegalEF | .illegalFF =>
    [s.sp - 1, s.sp - 2, s.sp - 3, s.sp - 4, s.sp - 5]
  | _ => []

/-! Which registers and flags an instruction may write. -/

/-- The six illegal opcodes, whose meaning is the trap entry (`30_encoding.md` R108). -/
def isIllegal : Instr → Bool
  | .illegal03 | .illegal04 | .illegalDF | .illegalE0 | .illegalEF | .illegalFF => true
  | _ => false

/-- The instructions that write A (`10_state.md` R21). -/
def writesA : Instr → Bool
  | .lda _ | .pula | .tfrCcA | .exgACc | .rti => true
  | .adda _ | .adca _ | .suba _ | .sbca _ | .anda _ | .ora _ | .eora _ => true
  | .clra | .nega | .inca | .deca | .coma | .lsla | .lsra | .asra | .rola | .rora => true
  | _ => false

/-- The instructions that write X, the auto-modify operands on X among them (`10_state.md` R22). -/
def writesX : Instr → Bool
  | .ldx _ | .leax _ | .pulx | .tfrYX | .tfrSpX | .exgXY | .exgXSp | .rti => true
  | .lda (.mem (.auto .x _)) | .sta (.auto .x _) => true
  | _ => false

/-- The instructions that write Y, the auto-modify operands on Y among them (`10_state.md` R23). -/
def writesY : Instr → Bool
  | .ldy _ | .leay _ | .puly | .tfrXY | .tfrSpY | .exgXY | .exgYSp | .rti => true
  | .lda (.mem (.auto .y _)) | .sta (.auto .y _) => true
  | _ => false

/-- The instructions that write SP, and the trap entry (`10_state.md` R24). -/
def writesSp : Instr → Bool
  | .ldsp _ | .leasp _ | .tfrXSp | .tfrYSp | .exgXSp | .exgYSp => true
  | .psha | .pshx | .pshy | .pshc | .pula | .pulx | .puly | .pulc => true
  | .jsr _ | .bsr _ | .rts | .rti => true
  | i => isIllegal i

/-- The instructions that write PC beyond the fetch, and the trap entry (`10_state.md` R25). -/
def writesPc : Instr → Bool
  | .jmp _ | .jsr _ | .bra _ | .bsr _ | .rts | .rti => true
  | .bmi _ | .bpl _ | .beq _ | .bne _ | .bvs _ | .bvc _ | .bcs _ | .bcc _ => true
  | .bhi _ | .bls _ | .bgt _ | .bge _ | .ble _ | .blt _ => true
  | i => isIllegal i

/-- What an entry of a flag column allows of a flag: unchanged, cleared, set, or any value (`10_state.md` R33). -/
def FlagRule.allows (r : FlagRule) (old new : Bool) : Prop :=
  match r with
  | .keep => new = old
  | .clear => new = false
  | .set => new = true
  | .delta => True

/-- One row of the table of `10_state.md` R33. -/
structure FlagColumns where
  i : FlagRule
  n : FlagRule
  z : FlagRule
  v : FlagRule
  c : FlagRule
deriving DecidableEq, Repr

/-- The flag columns of an instruction (`10_state.md` R33); TFR A,CC, EXG A,CC and PULC keep I where `CC_LOAD_WRITES_I` does
not hold (D14), and the trap entry sets I where `TRAP_SETS_I` holds (R337). -/
def flagColumns (p : Params) : Instr → FlagColumns
  | .adda _ | .adca _ | .suba _ | .sbca _ | .nega | .neg _ => ⟨.keep, .delta, .delta, .delta, .delta⟩
  | .cmpa _ | .cmpx _ | .cmpy _ | .cmpsp _ => ⟨.keep, .delta, .delta, .delta, .delta⟩
  | .lsla | .lsl _ | .rola | .rol _ | .rora | .ror _ => ⟨.keep, .delta, .delta, .delta, .delta⟩
  | .clra | .clr _ => ⟨.keep, .clear, .set, .clear, .clear⟩
  | .deca | .dec _ | .inca | .inc _ => ⟨.keep, .delta, .delta, .delta, .keep⟩
  | .bita _ | .anda _ | .ora _ | .eora _ | .coma | .com _ => ⟨.keep, .delta, .delta, .clear, .keep⟩
  | .lda _ | .ldx _ | .ldy _ | .ldsp _ => ⟨.keep, .delta, .delta, .clear, .keep⟩
  | .tsta | .tst _ => ⟨.keep, .delta, .delta, .clear, .clear⟩
  | .lsra | .lsr _ => ⟨.keep, .clear, .delta, .delta, .delta⟩
  | .asra | .asr _ => ⟨.keep, .delta, .delta, .clear, .delta⟩
  | .andcc _ | .orcc _ | .rti => ⟨.delta, .delta, .delta, .delta, .delta⟩
  | .tfrACc | .exgACc | .pulc =>
    ⟨if p.ccLoadWritesI then .delta else .keep, .delta, .delta, .delta, .delta⟩
  | .illegal03 | .illegal04 | .illegalDF | .illegalE0 | .illegalEF | .illegalFF =>
    ⟨if p.trapSetsI then .set else .keep, .keep, .keep, .keep, .keep⟩
  | _ => ⟨.keep, .keep, .keep, .keep, .keep⟩

/-! Rows of the opcode table. -/

/-- The instruction is written with these bytes, is read back from them alone, and takes this many clock cycles: its row of
the opcode table (`30_encoding.md` R107). -/
abbrev OpcodeOf (bytes : List Byte) (i : Instr) (clocks : Nat) : Prop :=
  encode i = some bytes ∧ decode bytes = .ok (i, []) ∧ cycles i = some clocks

/-- The six rows of a memory operation of table T-M: high digits 3 to 8 are ab, ns, nx, ax, ny, ay, the low digit is the
operation's (`43_integer_arithmetic.md`). -/
abbrev TableTM (mk : Cell → Instr) (lo : Byte) (clocks : Nat) : Prop :=
  ∀ b : Byte,
    OpcodeOf [0x30 + lo, b] (mk (.ab b)) clocks ∧ OpcodeOf [0x40 + lo, b] (mk (.ns b)) clocks ∧
    OpcodeOf [0x50 + lo, b] (mk (.nx b)) clocks ∧ OpcodeOf [0x60 + lo] (mk .ax) clocks ∧
    OpcodeOf [0x70 + lo, b] (mk (.ny b)) clocks ∧ OpcodeOf [0x80 + lo] (mk .ay) clocks

/-- The five rows of a register-with-operand instruction of table T-A: high digits 9 to D are im, ab, ns, nx, ny
(`43_integer_arithmetic.md`). -/
abbrev TableTA (mk : Source → Instr) (lo : Byte) (immediate memory : Nat) : Prop :=
  ∀ b : Byte,
    OpcodeOf [0x90 + lo, b] (mk (.im b)) immediate ∧ OpcodeOf [0xA0 + lo, b] (mk (.cell (.ab b))) memory ∧
    OpcodeOf [0xB0 + lo, b] (mk (.cell (.ns b))) memory ∧ OpcodeOf [0xC0 + lo, b] (mk (.cell (.nx b))) memory ∧
    OpcodeOf [0xD0 + lo, b] (mk (.cell (.ny b))) memory

/-- The row of an inherent instruction: one byte (`30_encoding.md` R91, R95). -/
abbrev Inherent (op : Byte) (i : Instr) (clocks : Nat) : Prop := OpcodeOf [op] i clocks

/-- The row of a two-byte instruction with one form (`30_encoding.md` R92). -/
abbrev OneForm (op : Byte) (mk : Byte → Instr) (clocks : Nat) : Prop := ∀ b : Byte, OpcodeOf [op, b] (mk b) clocks

/-! Results and their flags. -/

/-- N is the sign bit of the result and Z says that all its bits are zero (`10_state.md` R29, R30). -/
abbrev SignZero (cc : CC) (u : Byte) : Prop := (cc.n = true ↔ 128 ≤ u.toNat) ∧ (cc.z = true ↔ u.toNat = 0)

/-- The value lies outside what eight bits hold in two's complement (`10_state.md` R28). -/
abbrev signedOverflow (v : Int) : Prop := v < -128 ∨ 127 < v

/-- `u` and the flags are those of a + m + carry: C is the ninth bit, V the two's-complement overflow (`10_state.md` R27,
R28). -/
abbrev SumOf (a m : Byte) (carry : Bool) (u : Byte) (cc : CC) : Prop :=
  u.toNat = (a.toNat + m.toNat + carry.toNat) % 256 ∧ SignZero cc u ∧
  (cc.v = true ↔ signedOverflow (a.toInt + m.toInt + carry.toNat)) ∧
  (cc.c = true ↔ 256 ≤ a.toNat + m.toNat + carry.toNat)

/-- `u` and the flags are those of r - m - borrow: C is the borrow, V the two's-complement overflow (`10_state.md` R27,
R28). -/
abbrev DifferenceOf (r m : Byte) (borrow : Bool) (u : Byte) (cc : CC) : Prop :=
  (u.toNat + m.toNat + borrow.toNat) % 256 = r.toNat ∧ SignZero cc u ∧
  (cc.v = true ↔ signedOverflow (r.toInt - m.toInt - borrow.toNat)) ∧
  (cc.c = true ↔ r.toNat < m.toNat + borrow.toNat)

/-- `u` and the flags are those of 0 - m (`43_integer_arithmetic.md` R206). -/
abbrev NegationOf (m u : Byte) (cc : CC) : Prop :=
  u.toNat = (256 - m.toNat) % 256 ∧ SignZero cc u ∧ (cc.v = true ↔ m.toNat = 128) ∧ (cc.c = true ↔ m.toNat ≠ 0)

/-- `u` and the flags are those of m - 1; C is kept (`43_integer_arithmetic.md` R208). -/
abbrev DecrementOf (m : Byte) (old : CC) (u : Byte) (cc : CC) : Prop :=
  u.toNat = (m.toNat + 255) % 256 ∧ SignZero cc u ∧ (cc.v = true ↔ m.toNat = 128) ∧ cc.c = old.c

/-- `u` and the flags are those of m + 1; C is kept (`43_integer_arithmetic.md` R210). -/
abbrev IncrementOf (m : Byte) (old : CC) (u : Byte) (cc : CC) : Prop :=
  u.toNat = (m.toNat + 1) % 256 ∧ SignZero cc u ∧ (cc.v = true ↔ m.toNat = 127) ∧ cc.c = old.c

/-- The flags of a loaded or logical result: N and Z from it, V cleared, C kept (`40_load_store.md` R130,
`45_logical.md` R235). -/
abbrev LogicFlags (old : CC) (u : Byte) (cc : CC) : Prop := SignZero cc u ∧ cc.v = false ∧ cc.c = old.c

/-- `u` and the flags are those of m shifted left with `bit` entering bit 0: C is the old bit 7, V says that C and the new
bit 7 differ (`46_shift_rotate.md` R252, R256). -/
abbrev LeftShiftOf (m : Byte) (bit : Bool) (u : Byte) (cc : CC) : Prop :=
  u.toNat = (2 * m.toNat + bit.toNat) % 256 ∧ SignZero cc u ∧
  (cc.v = true ↔ cc.c ≠ cc.n) ∧ (cc.c = true ↔ 128 ≤ m.toNat)

/-- `u`, N, Z and C are those of m shifted right with `bit` entering bit 7: C is the old bit 0
(`46_shift_rotate.md` R250, R254, R258). -/
abbrev RightShiftOf (m : Byte) (bit : Bool) (u : Byte) (cc : CC) : Prop :=
  u.toNat = 128 * bit.toNat + m.toNat / 2 ∧ SignZero cc u ∧ (cc.c = true ↔ m.toNat % 2 = 1)

/-- The CC byte: bits 4..0 are I N Z V C, bits 7..5 are `hi` (`10_state.md` R26, R32). -/
abbrev CcImage (b : Byte) (hi : BitVec 3) (cc : CC) : Prop :=
  b.extractLsb 7 5 = hi ∧ b.getLsbD 4 = cc.i ∧ b.getLsbD 3 = cc.n ∧ b.getLsbD 2 = cc.z ∧ b.getLsbD 1 = cc.v ∧
  b.getLsbD 0 = cc.c

/-- `t` differs from `s` in A and the flags N, Z, V, C at most. -/
abbrev ChangedA (s t : State) : Prop := t = { s with a := t.a, cc := t.cc } ∧ t.cc.i = s.cc.i

/-- `t` differs from `s` in A, the flags N, Z, V, C, and the read of the operand at most. -/
abbrev CombinedA (o : Source) (s t : State) : Prop :=
  t = { s with a := t.a, cc := t.cc, env := (readSource o s).2.env } ∧ t.cc.i = s.cc.i

/-- `t` differs from `s` in the flags N, Z, V, C and the read of the operand at most. -/
abbrev TestedSource (o : Source) (s t : State) : Prop :=
  t = { s with cc := t.cc, env := (readSource o s).2.env } ∧ t.cc.i = s.cc.i

/-- `t` follows `s` by one read of the operand's cell and one store of `u` to it, and differs otherwise in the flags N, Z, V,
C at most (`20_memory.md` R70). -/
abbrev ModifiedCell (c : Cell) (s t : State) (u : Byte) : Prop :=
  t = { s with mem := t.mem, out := t.out, cc := t.cc, env := (memRead s (ea c s)).2.env } ∧ t.cc.i = s.cc.i ∧
  Stored s t (ea c s) u

/-- The branch, executed in `t`, goes to PC + offset if the condition holds and to the next instruction if it does not, and
changes nothing else: in `t`, PC already stands after the branch (`42_flow_control.md` R174). -/
abbrev BranchesOn (mk : Byte → Instr) (t : State) (condition : Prop) : Prop :=
  ∀ off : Byte, (condition → exec (mk off) t = .next { t with pc := t.pc + off }) ∧
    (¬ condition → exec (mk off) t = .next t)

/-- Every conditional branch, executed in `t`, is taken exactly when its relation holds between r and m: the table
"Villkorstest" of `42_flow_control.md` R174. -/
abbrev BranchesCompare (t : State) (r m : Byte) : Prop :=
  BranchesOn .beq t (r = m) ∧ BranchesOn .bne t (r ≠ m) ∧
  BranchesOn .bmi t (128 ≤ (r - m).toNat) ∧ BranchesOn .bpl t ((r - m).toNat < 128) ∧
  BranchesOn .bvs t (signedOverflow (r.toInt - m.toInt)) ∧
  BranchesOn .bvc t (¬ signedOverflow (r.toInt - m.toInt)) ∧
  BranchesOn .bhi t (m.toNat < r.toNat) ∧ BranchesOn .bcc t (m.toNat ≤ r.toNat) ∧
  BranchesOn .bcs t (r.toNat < m.toNat) ∧ BranchesOn .bls t (r.toNat ≤ m.toNat) ∧
  BranchesOn .bgt t (m.toInt < r.toInt) ∧ BranchesOn .bge t (m.toInt ≤ r.toInt) ∧
  BranchesOn .blt t (r.toInt < m.toInt) ∧ BranchesOn .ble t (r.toInt ≤ m.toInt)

/-! Entry and return. -/

/-- The five cells below SP keep what an entry pushes there (`60_exceptions.md` R336, `70_reset_and_hazards.md`
R385). -/
abbrev State.frameKept (s : State) : Prop :=
  s.keeps (s.sp - 1) ∧ s.keeps (s.sp - 2) ∧ s.keeps (s.sp - 3) ∧ s.keeps (s.sp - 4) ∧ s.keeps (s.sp - 5)

/-- The output events of the five pushes of an entry, in order: those that land on a port (`60_exceptions.md` R336,
`20_memory.md` R65). -/
def frameOutputs (sp pc y x a cc : Byte) : List (Port × Byte) :=
  [(sp - 1, pc), (sp - 2, y), (sp - 3, x), (sp - 4, a), (sp - 5, cc)].filterMap
    fun w => (portOf w.1).map fun p => (p, w.2)

/-- `t` follows `s` by an entry through a vector cell that is no port: the frame pushed with CC as it was, I set if asked,
PC from the vector cell as it stands after the pushes, and nothing else changed but the script or counter behind
`CC_HI`. The pushed byte of CC has I N Z V C in bits 4..0 and the value drawn for this copy in bits 7..5
(`60_exceptions.md` R336 to R338, `10_state.md` R32, D1, log 4). -/
abbrev Entered (vector : Byte) (setI : Bool) (s t : State) : Prop :=
  ∃ copy : Byte, CcImage copy (s.env.ccHi.headD (Config.ccHi s.env.draws)) s.cc ∧
  t = { s with cc := { s.cc with i := setI || s.cc.i }, sp := s.sp - 5, pc := t.cell vector, mem := t.mem,
               out := t.out,
               env := if s.env.ccHi = [] then { s.env with draws := s.env.draws + 1 }
                      else { s.env with ccHi := s.env.ccHi.tail } } ∧
  (s.keeps (s.sp - 1) → t.cell (s.sp - 1) = s.pc) ∧
  (s.keeps (s.sp - 2) → t.cell (s.sp - 2) = s.y) ∧
  (s.keeps (s.sp - 3) → t.cell (s.sp - 3) = s.x) ∧
  (s.keeps (s.sp - 4) → t.cell (s.sp - 4) = s.a) ∧
  (s.keeps (s.sp - 5) → t.cell (s.sp - 5) = copy) ∧
  (∀ b : Byte, (b ∈ [s.sp - 1, s.sp - 2, s.sp - 3, s.sp - 4, s.sp - 5] → ¬ s.keeps b) → t.cell b = s.cell b) ∧
  t.out = s.out ++ frameOutputs s.sp s.pc s.y s.x s.a copy

/-! Runs. -/

/-- A number of steps, if each of them answers a next state. -/
def State.steps : Nat → State → Option State
  | 0, s => some s
  | n + 1, s =>
    match step s with
    | .next t => State.steps n t
    | _ => none

/-- The boundary lets an instruction start: no reset, and no interrupt that is not masked (`60_exceptions.md` R330). -/
abbrev State.fetches (s : State) : Prop := s.pinsNow.reset = false ∧ (s.pinsNow.irq = false ∨ s.cc.i = true)

/-- The step that starts here raises no trap and, if it enters the interrupt handler, keeps the frame: what a program must
see to (`70_reset_and_hazards.md` R383, R385). -/
abbrev State.safeHere (s : State) : Prop :=
  s.pinsNow.reset = true ∨
  (s.pinsNow.irq = true ∧ s.cc.i = false ∧ s.frameKept) ∨
  (s.fetches ∧ isIllegal (fetchInstr s.passBoundary).1 = false)

/-- The end of a run by the spec's convention: nothing is to be taken at this boundary and the processor is about to execute
a BRA or a JMP to itself (`70_reset_and_hazards.md` R388, D12). -/
abbrev State.atEnd (s : State) : Prop :=
  s.fetches ∧ portOf s.pc = none ∧ portOf (s.pc + 1) = none ∧
  ((s.cell s.pc = 0x21 ∧ s.cell (s.pc + 1) = 0xFE) ∨ (s.cell s.pc = 0x33 ∧ s.cell (s.pc + 1) = s.pc))

end Sys2Proof.Machine
end

