-- ==== Sys2Proof/Certificates/Slice0/Obligations.lean ====
section
/-! DEFINITION. The statements about this machine, each a proposition named for what it says. -/

open Sys2Proof Sys2Proof.Machine

/-- Sanity: words of the opcode map (`30_encoding.md` R107), one per family or more. -/
def Obligations.WrittenOutWordsDecode : Prop :=
  decode [0x00] = .ok (.nop, []) ∧
  decode [0xF0, 0x80] = .ok (.lda (.im 0x80), []) ∧
  decode [0xE5] = .ok (.sta (.auto .x .postInc), []) ∧
  decode [0xDC, 0x02] = .ok (.leax (.ns 0x02), []) ∧
  decode [0x1E] = .ok (.tfrYSp, []) ∧
  decode [0x9F] = .ok (.exgACc, []) ∧
  decode [0x34, 0x60] = .ok (.jsr (.ab 0x60), []) ∧
  decode [0x43] = .ok (.rts, []) ∧
  decode [0x44] = .ok (.rti, []) ∧
  decode [0x25, 0xFA] = .ok (.bne 0xFA, []) ∧
  decode [0xC5, 0x01] = .ok (.adca (.cell (.nx 0x01)), []) ∧
  decode [0x68] = .ok (.dec .ax, []) ∧
  decode [0x9E, 0xF8] = .ok (.cmpsp (.im 0xF8), []) ∧
  decode [0x79, 0x10] = .ok (.tst (.ny 0x10), []) ∧
  decode [0x01, 0xEF] = .ok (.andcc 0xEF, []) ∧
  decode [0x8D] = .ok (.rol .ay, []) ∧
  decode [0x17] = .ok (.pulc, []) ∧
  decode [0xE0] = .ok (.illegalE0, []) ∧
  decodeTableWord 16 0x02DC = some (.leax (.ns 0x02))

/-- Decode and encode agree, for all instructions (`30_encoding.md` R107 against the tables of the family files). -/
def Obligations.DecodeInvertsEncode : Prop :=
  ∀ i : Instr, i.wf = true → ∃ bytes : List Byte, encode i = some bytes ∧
    ∀ rest : List Byte, decode (bytes ++ rest) = .ok (i, rest)

/-- The other direction of decode and encode (`30_encoding.md` R107). -/
def Obligations.EncodeInvertsDecode : Prop :=
  ∀ (bytes rest : List Byte) (i : Instr), decode bytes = .ok (i, rest) →
    i.wf = true ∧ ∃ used : List Byte, encode i = some used ∧ bytes = used ++ rest

/-- The opcode byte alone decides (`30_encoding.md` R93); the six illegal values (R108); no operand byte is illegal
(R109). -/
def Obligations.OpcodeByteFixesInstructionAndLength : Prop :=
  ∀ op : Byte,
    (opLength op = 1 ∨ opLength op = 2) ∧
    (op ∈ [0x03, 0x04, 0xDF, 0xE0, 0xEF, 0xFF] → opLength op = 1) ∧
    (opLength op = 1 → ∃ i : Instr, (∀ rest : List Byte, decode (op :: rest) = .ok (i, rest)) ∧
      (isIllegal i = true ↔ op ∈ [0x03, 0x04, 0xDF, 0xE0, 0xEF, 0xFF])) ∧
    (opLength op = 2 → decode [op] = .error (.noOperand op) ∧ ∃ mk : Byte → Instr, ∀ b : Byte,
      (∀ rest : List Byte, decode (op :: b :: rest) = .ok (mk b, rest)) ∧ isIllegal (mk b) = false)

/-- The operand syntax of `30_encoding.md` R110 and the offset rule R118. -/
def Obligations.AssemblerReadsBackItsSyntax : Prop :=
  ∀ (opAddr : Byte) (i : Instr), i.wf = true →
    (isIllegal i = true → instrSyntax opAddr i = none) ∧
    (isIllegal i = false → ∃ (m : Mnemonic) (o : AsmOperand Byte) (bytes : List Byte),
      instrSyntax opAddr i = some (m, o) ∧ assembleInstr opAddr m o = some i ∧ encode i = some bytes ∧
      assembleBytes opAddr m o = .ok bytes)

/-- One step (`60_exceptions.md` R330) and the fetch (`30_encoding.md` R90). -/
def Obligations.StepRunsDecodedInstruction : Prop :=
  ∀ s : State, s.fetches →
    let s0 : State := { s with env := { s.env with pins := s.env.pins.tail } }
    let first := memRead s0 s.pc
    let second := memRead first.2 (s.pc + 1)
    (∀ i : Instr, decode [first.1] = .ok (i, []) →
      step s = exec i { s0 with pc := s.pc + 1, env := first.2.env }) ∧
    (∀ i : Instr, decode [first.1, second.1] = .ok (i, []) →
      step s = exec i { s0 with pc := s.pc + 2, env := second.2.env })

/-- Reset values (`10_state.md` R40) and the image placed before reset (`70_reset_and_hazards.md` R383). That an
unlisted cell reads as `Config.unwritten` is the model's choice (log 2); PC from the cell and I = 1 follow decisions
D5 and D6. -/
def Obligations.BootPlacesImageAndStartsAtVector : Prop :=
  State.reset.cc.i = true ∧ State.reset.pc = State.reset.cell 0xFF ∧
  ∀ image : List (Byte × Byte),
    (State.boot image).cc.i = true ∧
    (State.boot image).pc = (State.boot image).cell 0xFF ∧
    ∀ adr : Byte, portOf adr = none →
      (State.boot image).cell adr =
        ((image.reverse.find? fun c => c.1 == adr).map Prod.snd).getD Config.unwritten

/-- Reset (`70_reset_and_hazards.md` R381, decisions D5, D6, D20). That the other registers keep their values is log 10. -/
def Obligations.ResetEventMasksAndLoadsVector : Prop :=
  ∀ s : State, s.pinsNow.reset = true →
    step s = .next { s with cc := { s.cc with i := true }, pc := s.cell 0xFF,
                            env := { s.env with pins := s.env.pins.tail } }

/-- IRQ entry (`60_exceptions.md` R334 to R338, decisions D2, D3, D5, D18; log 15). Bits 7..5 of the pushed byte are
`CC_HI` (`10_state.md` R32, D1, log 4). -/
def Obligations.InterruptEntryPushesFrame : Prop :=
  ∀ s : State, s.pinsNow.reset = false → s.pinsNow.irq = true → s.cc.i = false →
    ∃ t : State, step s = .next t ∧ Entered 0xFD true s.passBoundary t

/-- Trap entry (`60_exceptions.md` R332, R333, R336 to R338, decisions D4, D5, D18, D22; log 15). Bits 7..5 of the
pushed byte are `CC_HI` (`10_state.md` R32, D1, log 4). -/
def Obligations.TrapEntryPushesFrame : Prop :=
  ∀ (i : Instr) (s : State),
    i ∈ [.illegal03, .illegal04, .illegalDF, .illegalE0, .illegalEF, .illegalFF] →
    ∃ t : State, exec i s = .next t ∧ Entered 0xFE s.params.trapSetsI s t

/-- I = 1 masks the interrupt (`60_exceptions.md` R334, decisions D2 and D8). -/
def Obligations.MaskedInterruptIsIgnored : Prop :=
  ∀ (s : State) (later : List Pins), s.cc.i = true →
    step { s with env := { s.env with pins := ⟨false, true⟩ :: later } } =
      step { s with env := { s.env with pins := ⟨false, false⟩ :: later } }

/-- Entry and return are inverse (`60_exceptions.md` R336, R341), under decisions D3 (I is set), D5 (the vector cell)
and D18 (the order of the frame), which log 15 follows. -/
def Obligations.InterruptThenReturnRestores : Prop :=
  ∀ s t : State, s.pinsNow.reset = false → s.pinsNow.irq = true → s.cc.i = false → s.frameKept →
    step s = .next t → portOf t.pc = none → t.cell t.pc = 0x44 → t.pinsNow.reset = false →
    ∃ u : State, step t = .next u ∧ u = { s with mem := t.mem, env := u.env } ∧
      ∀ b : Byte, b ∉ [s.sp - 1, s.sp - 2, s.sp - 3, s.sp - 4, s.sp - 5] → u.cell b = s.cell b

/-- The trap is a one-byte call of its handler (`60_exceptions.md` R333, R341), under decisions D5 (the vector cell),
D18 (the order of the frame) and D22 (the length of an illegal opcode), which log 15 follows. -/
def Obligations.TrapThenReturnResumesAfterOpcode : Prop :=
  ∀ s t : State, s.fetches → portOf s.pc = none →
    s.cell s.pc ∈ [0x03, 0x04, 0xDF, 0xE0, 0xEF, 0xFF] → s.frameKept →
    step s = .next t → t.fetches → portOf t.pc = none → t.cell t.pc = 0x44 →
    ∃ u : State, step t = .next u ∧ u = { s with pc := s.pc + 1, mem := t.mem, env := u.env } ∧
      ∀ b : Byte, b ∉ [s.sp - 1, s.sp - 2, s.sp - 3, s.sp - 4, s.sp - 5] → u.cell b = s.cell b

/-- RTI (`42_flow_control.md` R190). Each read is one MemRead, so one that lands on a port takes an input. -/
def Obligations.RtiPullsWholeFrame : Prop :=
  Inherent 0x44 .rti 6 ∧
  ∀ s : State,
    let r0 := memRead s s.sp
    let r1 := memRead r0.2 (s.sp + 1)
    let r2 := memRead r1.2 (s.sp + 2)
    let r3 := memRead r2.2 (s.sp + 3)
    let r4 := memRead r3.2 (s.sp + 4)
    exec .rti s = .next { s with
      cc := { i := r0.1.getLsbD 4, n := r0.1.getLsbD 3, z := r0.1.getLsbD 2, v := r0.1.getLsbD 1, c := r0.1.getLsbD 0 },
      a := r1.1, x := r2.1, y := r3.1, pc := r4.1, sp := s.sp + 5, env := r4.2.env }

/-- The end-of-run convention (`70_reset_and_hazards.md` R388, D12): the state it describes is stable. -/
def Obligations.EndOfRunLoopsInPlace : Prop :=
  ∀ s : State, s.atEnd → step s = .next { s with env := { s.env with pins := s.env.pins.tail } }

/-- The processor executes steps for as long as the clock runs (`60_exceptions.md` R350). -/
def Obligations.EveryStepAnswersNext : Prop :=
  ∀ s : State, ∃ t : State, step s = .next t

/-- The representation invariant of the memory map (`10_state.md` R38), over every step. The form of the list is the
model's. -/
def Obligations.StepKeepsMemoryCanonical : Prop :=
  ∀ s t : State, s.mem.wf → step s = .next t → t.mem.wf

/-- Where the invariant starts (`10_state.md` R40). -/
def Obligations.ResetAndImagesAreCanonical : Prop :=
  State.reset.mem.wf ∧ ∀ image : List (Byte × Byte), (State.boot image).mem.wf

/-- The table of `10_state.md` R33, over all instructions (what a Δ computes is in the statements of each instruction);
I under decisions D4 and D14. -/
def Obligations.FlagColumnsAreKept : Prop :=
  ∀ (i : Instr) (s t : State), exec i s = .next t →
    (flagColumns s.params i).i.allows s.cc.i t.cc.i ∧
    (flagColumns s.params i).n.allows s.cc.n t.cc.n ∧
    (flagColumns s.params i).z.allows s.cc.z t.cc.z ∧
    (flagColumns s.params i).v.allows s.cc.v t.cc.v ∧
    (flagColumns s.params i).c.allows s.cc.c t.cc.c

/-- The "Written by" lists of `10_state.md` R21 to R25, over all instructions. -/
def Obligations.OnlyListedInstructionsWriteRegisters : Prop :=
  ∀ (i : Instr) (s t : State), exec i s = .next t →
    (writesA i = false → t.a = s.a) ∧ (writesX i = false → t.x = s.x) ∧ (writesY i = false → t.y = s.y) ∧
    (writesSp i = false → t.sp = s.sp) ∧ (writesPc i = false → t.pc = s.pc)

/-- The memory frame of every instruction; the addresses are computed with the same `ea` and `memAddress` the meanings
use. -/
def Obligations.StoresStayAtComputedAddresses : Prop :=
  ∀ (i : Instr) (s t : State), exec i s = .next t →
    (∀ b : Byte, b ∉ storeAddresses i s → t.cell b = s.cell b) ∧
    ((∀ b ∈ storeAddresses i s, portOf b = none) → t.out = s.out)

/-- A write to a cell that is not writable has no effect (`20_memory.md` R66, D10); a port write stores nothing (R65,
D9). That the parameters are a part of the state which no step changes is the model's choice (log 7). -/
def Obligations.ReadOnlyCellsAndPortsHoldNoStores : Prop :=
  ∀ s t : State, step s = .next t →
    t.params = s.params ∧ (∀ b : Byte, b ∈ s.params.readOnly → t.cell b = s.cell b) ∧
    ∀ p : Port, t.cell p.address = s.cell p.address

/-- Output events in program order (`20_memory.md` R65, R73); five is the length of an entry frame. That the events are
a list from which nothing is taken, by a reset no more than by another step, is the model's choice (log 8). -/
def Obligations.OutputEventsOnlyGrow : Prop :=
  ∀ s t : State, step s = .next t → ∃ new : List (Port × Byte), t.out = s.out ++ new ∧ new.length ≤ 5

/-- No hardware path forces I to 0 (`10_state.md` R31; the corner cases of `45_logical.md` R237). -/
def Obligations.OnlyFiveInstructionsUnmask : Prop :=
  ∀ s t : State, step s = .next t → s.cc.i = true → t.cc.i = false →
    s.fetches ∧ ((∃ d : Byte, (fetchInstr s.passBoundary).1 = .andcc d) ∨
      (fetchInstr s.passBoundary).1 ∈ [.tfrACc, .exgACc, .pulc, .rti])

/-- The memory primitives (`20_memory.md` R61, R64 to R66, decisions D9 and D10; the script of inputs is log 5). -/
def Obligations.MemoryPrimitivesFollowTheMap : Prop :=
  ∀ (s : State) (adr v : Byte),
    (portOf adr = none → memRead s adr = (s.cell adr, s)) ∧
    (∀ p : Port, portOf adr = some p →
      (∀ b rest, s.env.input p = b :: rest →
        memRead s adr = (b, { s with env := s.env.setInput p rest })) ∧
      (s.env.input p = [] →
        memRead s adr = (Config.portIn adr s.env.draws, { s with env := { s.env with draws := s.env.draws + 1 } })) ∧
      ∀ adr' : Byte, (memRead (memWrite s adr' v) adr).1 = (memRead s adr).1) ∧
    memWrite s adr v = { s with mem := (memWrite s adr v).mem, out := (memWrite s adr v).out } ∧
    Stored s (memWrite s adr v) adr v

/-- Instruction fetch sees every earlier store (`20_memory.md` R76, D13), for an opcode of either length and for an
operand byte. -/
def Obligations.StoreIsSeenByNextFetch : Prop :=
  ∀ (m : MemOperand) (s t : State) (i : Instr), exec (.sta m) s = .next t → s.keeps (memAddress m s) → t.fetches →
    let t0 : State := { t with env := { t.env with pins := t.env.pins.tail } }
    let first := memRead t0 s.pc
    let second := memRead t0 (s.pc + 1)
    t.cell (memAddress m s) = s.a ∧
    (memAddress m s = s.pc → decode [s.a] = .ok (i, []) → step t = exec i { t0 with pc := s.pc + 1 }) ∧
    (memAddress m s = s.pc → decode [s.a, second.1] = .ok (i, []) →
      step t = exec i { t0 with pc := s.pc + 2, env := second.2.env }) ∧
    (memAddress m s = s.pc + 1 → decode [first.1, s.a] = .ok (i, []) →
      step t = exec i { t0 with pc := s.pc + 2, env := first.2.env })

/-- The addressing modes (`30_encoding.md` R96 to R105), on which the statements of the instructions rest. -/
def Obligations.OperandsFollowTheirModes : Prop :=
  ∀ (s : State) (b : Byte),
    ea (.ab b) s = b ∧
    (ea (.ns b) s).toNat = (s.sp.toNat + b.toNat) % 256 ∧
    (ea (.nx b) s).toNat = (s.x.toNat + b.toNat) % 256 ∧
    (ea (.ny b) s).toNat = (s.y.toNat + b.toNat) % 256 ∧
    (ea .ax s).toNat = (s.x.toNat + s.a.toNat) % 256 ∧
    (ea .ay s).toNat = (s.y.toNat + s.a.toNat) % 256 ∧
    (∀ c : Cell, memAddress (.cell c) s = ea c s ∧ stepRegister (.cell c) s = s) ∧
    memAddress (.auto .x .preInc) s = s.x + 1 ∧ stepRegister (.auto .x .preInc) s = { s with x := s.x + 1 } ∧
    memAddress (.auto .x .preDec) s = s.x - 1 ∧ stepRegister (.auto .x .preDec) s = { s with x := s.x - 1 } ∧
    memAddress (.auto .x .postInc) s = s.x ∧ stepRegister (.auto .x .postInc) s = { s with x := s.x + 1 } ∧
    memAddress (.auto .x .postDec) s = s.x ∧ stepRegister (.auto .x .postDec) s = { s with x := s.x - 1 } ∧
    memAddress (.auto .y .preInc) s = s.y + 1 ∧ stepRegister (.auto .y .preInc) s = { s with y := s.y + 1 } ∧
    memAddress (.auto .y .preDec) s = s.y - 1 ∧ stepRegister (.auto .y .preDec) s = { s with y := s.y - 1 } ∧
    memAddress (.auto .y .postInc) s = s.y ∧ stepRegister (.auto .y .postInc) s = { s with y := s.y + 1 } ∧
    memAddress (.auto .y .postDec) s = s.y ∧ stepRegister (.auto .y .postDec) s = { s with y := s.y - 1 } ∧
    readSource (.im b) s = (b, s) ∧ ∀ c : Cell, readSource (.cell c) s = memRead s (ea c s)

/-- LDA (`40_load_store.md` R130). The read at a port takes one input; the addresses are those of
`OperandsFollowTheirModes`. -/
def Obligations.LdaLoadsWithFlags : Prop :=
  (∀ b : Byte,
    OpcodeOf [0xF0, b] (.lda (.im b)) 2 ∧
    OpcodeOf [0xF1, b] (.lda (.mem (.cell (.ab b)))) 3 ∧
    OpcodeOf [0xF2, b] (.lda (.mem (.cell (.ns b)))) 3 ∧
    OpcodeOf [0xF3, b] (.lda (.mem (.cell (.nx b)))) 3 ∧
    OpcodeOf [0xF4] (.lda (.mem (.cell .ax))) 3 ∧
    OpcodeOf [0xF5] (.lda (.mem (.auto .x .postInc))) 4 ∧
    OpcodeOf [0xF6] (.lda (.mem (.auto .x .postDec))) 4 ∧
    OpcodeOf [0xF7] (.lda (.mem (.auto .x .preInc))) 4 ∧
    OpcodeOf [0xF8] (.lda (.mem (.auto .x .preDec))) 4 ∧
    OpcodeOf [0xF9, b] (.lda (.mem (.cell (.ny b)))) 3 ∧
    OpcodeOf [0xFA] (.lda (.mem (.cell .ay))) 3 ∧
    OpcodeOf [0xFB] (.lda (.mem (.auto .y .postInc))) 4 ∧
    OpcodeOf [0xFC] (.lda (.mem (.auto .y .postDec))) 4 ∧
    OpcodeOf [0xFD] (.lda (.mem (.auto .y .preInc))) 4 ∧
    OpcodeOf [0xFE] (.lda (.mem (.auto .y .preDec))) 4) ∧
  (∀ (d : Byte) (s : State), ∃ t : State, exec (.lda (.im d)) s = .next t ∧
    t = { s with a := d, cc := t.cc } ∧ t.cc.i = s.cc.i ∧ LogicFlags s.cc d t.cc) ∧
  (∀ (m : MemOperand) (s : State), ∃ t : State, exec (.lda (.mem m)) s = .next t ∧
    t = { s with a := (memRead s (memAddress m s)).1, x := (stepRegister m s).x, y := (stepRegister m s).y,
                 cc := t.cc, env := (memRead s (memAddress m s)).2.env } ∧
    t.cc.i = s.cc.i ∧ LogicFlags s.cc t.a t.cc)

/-- LDX, LDY, LDSP (`40_load_store.md` R131 to R133). -/
def Obligations.LoadsOfXYAndSp : Prop :=
  TableTA .ldx 0x0 2 3 ∧ TableTA .ldy 0x1 2 3 ∧ TableTA .ldsp 0x2 2 3 ∧
  ∀ (o : Source) (s : State),
    (∃ t : State, exec (.ldx o) s = .next t ∧
      t = { s with x := (readSource o s).1, cc := t.cc, env := (readSource o s).2.env } ∧
      t.cc.i = s.cc.i ∧ LogicFlags s.cc t.x t.cc) ∧
    (∃ t : State, exec (.ldy o) s = .next t ∧
      t = { s with y := (readSource o s).1, cc := t.cc, env := (readSource o s).2.env } ∧
      t.cc.i = s.cc.i ∧ LogicFlags s.cc t.y t.cc) ∧
    (∃ t : State, exec (.ldsp o) s = .next t ∧
      t = { s with sp := (readSource o s).1, cc := t.cc, env := (readSource o s).2.env } ∧
      t.cc.i = s.cc.i ∧ LogicFlags s.cc t.sp t.cc)

/-- LEAX, LEAY, LEASP (`40_load_store.md` R134 to R136). -/
def Obligations.LeaLoadsTheAddressItself : Prop :=
  OneForm 0xCC (fun n => .leax (.nx n)) 4 ∧ OneForm 0xDC (fun n => .leax (.ns n)) 4 ∧
  OneForm 0xCD (fun n => .leay (.ny n)) 4 ∧ OneForm 0xDD (fun n => .leay (.ns n)) 4 ∧
  OneForm 0xBE (fun n => .leasp (.ns n)) 4 ∧ OneForm 0xCE (fun n => .leasp (.nx n)) 4 ∧
  OneForm 0xDE (fun n => .leasp (.ny n)) 4 ∧
  ∀ (n : Byte) (s : State),
    exec (.leax (.nx n)) s = .next { s with x := s.x + n } ∧
    exec (.leax (.ns n)) s = .next { s with x := s.sp + n } ∧
    exec (.leay (.ny n)) s = .next { s with y := s.y + n } ∧
    exec (.leay (.ns n)) s = .next { s with y := s.sp + n } ∧
    exec (.leasp (.ns n)) s = .next { s with sp := s.sp + n } ∧
    exec (.leasp (.nx n)) s = .next { s with sp := s.x + n } ∧
    exec (.leasp (.ny n)) s = .next { s with sp := s.y + n }

/-- STA (`40_load_store.md` R137). -/
def Obligations.StaStoresAtItsAddress : Prop :=
  (∀ b : Byte,
    OpcodeOf [0xE1, b] (.sta (.cell (.ab b))) 3 ∧
    OpcodeOf [0xE2, b] (.sta (.cell (.ns b))) 3 ∧
    OpcodeOf [0xE3, b] (.sta (.cell (.nx b))) 3 ∧
    OpcodeOf [0xE4] (.sta (.cell .ax)) 3 ∧
    OpcodeOf [0xE5] (.sta (.auto .x .postInc)) 4 ∧
    OpcodeOf [0xE6] (.sta (.auto .x .postDec)) 4 ∧
    OpcodeOf [0xE7] (.sta (.auto .x .preInc)) 4 ∧
    OpcodeOf [0xE8] (.sta (.auto .x .preDec)) 4 ∧
    OpcodeOf [0xE9, b] (.sta (.cell (.ny b))) 3 ∧
    OpcodeOf [0xEA] (.sta (.cell .ay)) 3 ∧
    OpcodeOf [0xEB] (.sta (.auto .y .postInc)) 4 ∧
    OpcodeOf [0xEC] (.sta (.auto .y .postDec)) 4 ∧
    OpcodeOf [0xED] (.sta (.auto .y .preInc)) 4 ∧
    OpcodeOf [0xEE] (.sta (.auto .y .preDec)) 4) ∧
  ∀ (m : MemOperand) (s : State), ∃ t : State, exec (.sta m) s = .next t ∧
    t = { s with x := (stepRegister m s).x, y := (stepRegister m s).y, mem := t.mem, out := t.out } ∧
    Stored s t (memAddress m s) s.a

/-- STX, STY, STSP (`40_load_store.md` R138 to R140). -/
def Obligations.StoresOfXYAndSp : Prop :=
  TableTM .stx 0x0 3 ∧ TableTM .sty 0x1 3 ∧ TableTM .stsp 0x2 3 ∧
  ∀ (c : Cell) (s : State),
    (∃ t : State, exec (.stx c) s = .next t ∧ t = { s with mem := t.mem, out := t.out } ∧ Stored s t (ea c s) s.x) ∧
    (∃ t : State, exec (.sty c) s = .next t ∧ t = { s with mem := t.mem, out := t.out } ∧ Stored s t (ea c s) s.y) ∧
    (∃ t : State, exec (.stsp c) s = .next t ∧ t = { s with mem := t.mem, out := t.out } ∧ Stored s t (ea c s) s.sp)

/-- TFR and EXG without CC (`41_data_movement.md` R152 to R157, R159 to R161). -/
def Obligations.AddressRegisterTransfers : Prop :=
  Inherent 0x1A .tfrXY 2 ∧ Inherent 0x1B .tfrYX 2 ∧ Inherent 0x1C .tfrXSp 2 ∧ Inherent 0x1D .tfrSpX 2 ∧
  Inherent 0x1E .tfrYSp 2 ∧ Inherent 0x1F .tfrSpY 2 ∧
  Inherent 0xAF .exgXY 4 ∧ Inherent 0xBF .exgXSp 4 ∧ Inherent 0xCF .exgYSp 4 ∧
  ∀ s : State,
    exec .tfrXY s = .next { s with y := s.x } ∧
    exec .tfrYX s = .next { s with x := s.y } ∧
    exec .tfrXSp s = .next { s with sp := s.x } ∧
    exec .tfrSpX s = .next { s with x := s.sp } ∧
    exec .tfrYSp s = .next { s with sp := s.y } ∧
    exec .tfrSpY s = .next { s with y := s.sp } ∧
    exec .exgXY s = .next { s with x := s.y, y := s.x } ∧
    exec .exgXSp s = .next { s with x := s.sp, sp := s.x } ∧
    exec .exgYSp s = .next { s with y := s.sp, sp := s.y }

/-- TFR A,CC, TFR CC,A, EXG A,CC (`41_data_movement.md` R150, R151, R158) under decisions D1 (CC_HI, log 4) and D14 (I). -/
def Obligations.TransfersWithCc : Prop :=
  Inherent 0x18 .tfrACc 2 ∧ Inherent 0x19 .tfrCcA 2 ∧ Inherent 0x9F .exgACc 4 ∧
  ∀ s : State,
    let hi := s.env.ccHi.headD (Config.ccHi s.env.draws)
    let drawn : Env :=
      if s.env.ccHi = [] then { s.env with draws := s.env.draws + 1 } else { s.env with ccHi := s.env.ccHi.tail }
    let loaded : CC :=
      { i := if s.params.ccLoadWritesI then s.a.getLsbD 4 else s.cc.i,
        n := s.a.getLsbD 3, z := s.a.getLsbD 2, v := s.a.getLsbD 1, c := s.a.getLsbD 0 }
    exec .tfrACc s = .next { s with cc := loaded } ∧
    ∃ copy : Byte, CcImage copy hi s.cc ∧
      exec .tfrCcA s = .next { s with a := copy, env := drawn } ∧
      exec .exgACc s = .next { s with a := copy, cc := loaded, env := drawn }

/-- JMP, BRA, RTS (`42_flow_control.md` R170, R172, R189). In the state the instruction runs in, PC is the address after
it. -/
def Obligations.JumpsAndReturnsSetPc : Prop :=
  OneForm 0x33 (fun n => .jmp (.ab n)) 2 ∧ OneForm 0x53 (fun n => .jmp (.nx n)) 4 ∧ Inherent 0x63 (.jmp .ax) 4 ∧
  OneForm 0x73 (fun n => .jmp (.ny n)) 4 ∧ Inherent 0x83 (.jmp .ay) 4 ∧ OneForm 0x21 .bra 4 ∧ Inherent 0x43 .rts 2 ∧
  ∀ (n : Byte) (s : State),
    exec (.jmp (.ab n)) s = .next { s with pc := n } ∧
    exec (.jmp (.nx n)) s = .next { s with pc := s.x + n } ∧
    exec (.jmp .ax) s = .next { s with pc := s.x + s.a } ∧
    exec (.jmp (.ny n)) s = .next { s with pc := s.y + n } ∧
    exec (.jmp .ay) s = .next { s with pc := s.y + s.a } ∧
    exec (.bra n) s = .next { s with pc := s.pc + n } ∧
    exec .rts s = .next { s with pc := (memRead s s.sp).1, sp := s.sp + 1, env := (memRead s s.sp).2.env }

/-- JSR, BSR (`42_flow_control.md` R171, R173). -/
def Obligations.CallsPushReturnAddress : Prop :=
  OneForm 0x34 (fun n => .jsr (.ab n)) 4 ∧ OneForm 0x54 (fun n => .jsr (.nx n)) 5 ∧ Inherent 0x64 (.jsr .ax) 5 ∧
  OneForm 0x74 (fun n => .jsr (.ny n)) 5 ∧ Inherent 0x84 (.jsr .ay) 5 ∧ OneForm 0x20 .bsr 5 ∧
  (∀ (c : Cell) (s : State), ∃ t : State, exec (.jsr c) s = .next t ∧
    t = { s with sp := s.sp - 1, pc := ea c s, mem := t.mem, out := t.out } ∧ Stored s t (s.sp - 1) s.pc) ∧
  (∀ (off : Byte) (s : State), ∃ t : State, exec (.bsr off) s = .next t ∧
    t = { s with sp := s.sp - 1, pc := s.pc + off, mem := t.mem, out := t.out } ∧ Stored s t (s.sp - 1) s.pc)

/-- The branches on one flag (`42_flow_control.md` R175 to R182). -/
def Obligations.SingleFlagBranches : Prop :=
  OneForm 0x22 .bmi 4 ∧ OneForm 0x23 .bpl 4 ∧ OneForm 0x24 .beq 4 ∧ OneForm 0x25 .bne 4 ∧
  OneForm 0x26 .bvs 4 ∧ OneForm 0x27 .bvc 4 ∧ OneForm 0x28 .bcs 4 ∧ OneForm 0x29 .bcc 4 ∧
  ∀ s : State,
    BranchesOn .bmi s (s.cc.n = true) ∧ BranchesOn .bpl s (s.cc.n = false) ∧
    BranchesOn .beq s (s.cc.z = true) ∧ BranchesOn .bne s (s.cc.z = false) ∧
    BranchesOn .bvs s (s.cc.v = true) ∧ BranchesOn .bvc s (s.cc.v = false) ∧
    BranchesOn .bcs s (s.cc.c = true) ∧ BranchesOn .bcc s (s.cc.c = false)

/-- The branches on a formula of flags (`42_flow_control.md` R183 to R188). -/
def Obligations.CombinedFlagBranches : Prop :=
  OneForm 0x2A .bhi 4 ∧ OneForm 0x2B .bls 4 ∧ OneForm 0x2C .bgt 4 ∧ OneForm 0x2D .bge 4 ∧
  OneForm 0x2E .ble 4 ∧ OneForm 0x2F .blt 4 ∧
  ∀ s : State,
    BranchesOn .bhi s (s.cc.c = false ∧ s.cc.z = false) ∧
    BranchesOn .bls s (s.cc.c = true ∨ s.cc.z = true) ∧
    BranchesOn .bgt s (s.cc.n = s.cc.v ∧ s.cc.z = false) ∧
    BranchesOn .bge s (s.cc.n = s.cc.v) ∧
    BranchesOn .ble s (s.cc.n ≠ s.cc.v ∨ s.cc.z = true) ∧
    BranchesOn .blt s (s.cc.n ≠ s.cc.v)

/-- The table "Villkorstest" (`42_flow_control.md` R174), for all operands; V of a subtraction under decision D15. -/
def Obligations.BranchesAfterCompareMeanTheirRelation : Prop :=
  ∀ (o : Source) (s t : State),
    (exec (.cmpa o) s = .next t → BranchesCompare t s.a (readSource o s).1) ∧
    (exec (.cmpx o) s = .next t → BranchesCompare t s.x (readSource o s).1) ∧
    (exec (.cmpy o) s = .next t → BranchesCompare t s.y (readSource o s).1) ∧
    (exec (.cmpsp o) s = .next t → BranchesCompare t s.sp (readSource o s).1) ∧
    (exec (.suba o) s = .next t → BranchesCompare t s.a (readSource o s).1)

/-- ADDA, ADCA (`43_integer_arithmetic.md` R200, R201). -/
def Obligations.AdditionOnA : Prop :=
  TableTA .adda 0x6 4 5 ∧ TableTA .adca 0x5 4 5 ∧
  ∀ (o : Source) (s : State),
    (∃ t : State, exec (.adda o) s = .next t ∧ CombinedA o s t ∧ SumOf s.a (readSource o s).1 false t.a t.cc) ∧
    (∃ t : State, exec (.adca o) s = .next t ∧ CombinedA o s t ∧ SumOf s.a (readSource o s).1 s.cc.c t.a t.cc)

/-- SUBA, SBCA (`43_integer_arithmetic.md` R202, R203). -/
def Obligations.SubtractionOnA : Prop :=
  TableTA .suba 0x4 4 5 ∧ TableTA .sbca 0x3 4 5 ∧
  ∀ (o : Source) (s : State),
    (∃ t : State, exec (.suba o) s = .next t ∧ CombinedA o s t ∧ DifferenceOf s.a (readSource o s).1 false t.a t.cc) ∧
    (∃ t : State, exec (.sbca o) s = .next t ∧ CombinedA o s t ∧ DifferenceOf s.a (readSource o s).1 s.cc.c t.a t.cc)

/-- CLRA, CLR, TST (`43_integer_arithmetic.md` R204, R205, `44_integer_test.md` R226) under decision D25. -/
def Obligations.ClearAndTest : Prop :=
  Inherent 0x05 .clra 3 ∧ TableTM .clr 0x5 3 ∧ TableTM .tst 0x9 3 ∧
  (∀ s : State, exec .clra s = .next { s with a := 0, cc := ⟨s.cc.i, false, true, false, false⟩ }) ∧
  (∀ (c : Cell) (s : State), ∃ t : State, exec (.clr c) s = .next t ∧
    t = { s with mem := t.mem, out := t.out, cc := ⟨s.cc.i, false, true, false, false⟩ } ∧ Stored s t (ea c s) 0) ∧
  (∀ (c : Cell) (s : State), ∃ t : State, exec (.tst c) s = .next t ∧
    t = { s with cc := t.cc, env := (memRead s (ea c s)).2.env } ∧ t.cc.i = s.cc.i ∧
    SignZero t.cc (memRead s (ea c s)).1 ∧ t.cc.v = false ∧ t.cc.c = false)

/-- NEGA, NEG (`43_integer_arithmetic.md` R206, R207). -/
def Obligations.NegationOfAAndCell : Prop :=
  Inherent 0x06 .nega 3 ∧ TableTM .neg 0x6 4 ∧
  (∀ s : State, ∃ t : State, exec .nega s = .next t ∧ ChangedA s t ∧ NegationOf s.a t.a t.cc) ∧
  (∀ (c : Cell) (s : State), ∃ (t : State) (u : Byte), exec (.neg c) s = .next t ∧ ModifiedCell c s t u ∧
    NegationOf (memRead s (ea c s)).1 u t.cc)

/-- DECA, DEC (`43_integer_arithmetic.md` R208, R209). -/
def Obligations.DecrementOfAAndCell : Prop :=
  Inherent 0x08 .deca 3 ∧ TableTM .dec 0x8 4 ∧
  (∀ s : State, ∃ t : State, exec .deca s = .next t ∧ ChangedA s t ∧ DecrementOf s.a s.cc t.a t.cc) ∧
  (∀ (c : Cell) (s : State), ∃ (t : State) (u : Byte), exec (.dec c) s = .next t ∧ ModifiedCell c s t u ∧
    DecrementOf (memRead s (ea c s)).1 s.cc u t.cc)

/-- INCA, INC (`43_integer_arithmetic.md` R210, R211) under decision D21 (V of the increment). -/
def Obligations.IncrementOfAAndCell : Prop :=
  Inherent 0x07 .inca 3 ∧ TableTM .inc 0x7 4 ∧
  (∀ s : State, ∃ t : State, exec .inca s = .next t ∧ ChangedA s t ∧ IncrementOf s.a s.cc t.a t.cc) ∧
  (∀ (c : Cell) (s : State), ∃ (t : State) (u : Byte), exec (.inc c) s = .next t ∧ ModifiedCell c s t u ∧
    IncrementOf (memRead s (ea c s)).1 s.cc u t.cc)

/-- Multi-byte addition as `43_integer_arithmetic.md` and R385 describe it, with immediate operands: LDA keeps the carry
ADDA leaves. -/
def Obligations.SixteenBitSumThroughCarry : Prop :=
  ∀ (l1 h1 l2 h2 : Byte) (s t u v : State),
    exec (.adda (.im l2)) { s with a := l1 } = .next t → exec (.lda (.im h1)) t = .next u →
    exec (.adca (.im h2)) u = .next v →
    v.a.toNat * 256 + t.a.toNat = (h1.toNat * 256 + l1.toNat + (h2.toNat * 256 + l2.toNat)) % 65536 ∧
    (v.cc.c = true ↔ 65536 ≤ h1.toNat * 256 + l1.toNat + (h2.toNat * 256 + l2.toNat))

/-- CMPA, CMPX, CMPY, CMPSP (`44_integer_test.md` R220 to R223). -/
def Obligations.ComparesSetFlagsOnly : Prop :=
  TableTA .cmpa 0x7 3 4 ∧
  OneForm 0x9C (fun b => .cmpx (.im b)) 3 ∧ OneForm 0xAC (fun b => .cmpx (.cell (.ab b))) 4 ∧
  OneForm 0xBC (fun b => .cmpx (.cell (.ns b))) 4 ∧
  OneForm 0x9D (fun b => .cmpy (.im b)) 3 ∧ OneForm 0xAD (fun b => .cmpy (.cell (.ab b))) 4 ∧
  OneForm 0xBD (fun b => .cmpy (.cell (.ns b))) 4 ∧
  OneForm 0x9E (fun b => .cmpsp (.im b)) 3 ∧ OneForm 0xAE (fun b => .cmpsp (.cell (.ab b))) 4 ∧
  ∀ (o : Source) (s : State),
    (∃ (t : State) (u : Byte), exec (.cmpa o) s = .next t ∧ TestedSource o s t ∧
      DifferenceOf s.a (readSource o s).1 false u t.cc) ∧
    (∃ (t : State) (u : Byte), exec (.cmpx o) s = .next t ∧ TestedSource o s t ∧
      DifferenceOf s.x (readSource o s).1 false u t.cc) ∧
    (∃ (t : State) (u : Byte), exec (.cmpy o) s = .next t ∧ TestedSource o s t ∧
      DifferenceOf s.y (readSource o s).1 false u t.cc) ∧
    (∃ (t : State) (u : Byte), exec (.cmpsp o) s = .next t ∧ TestedSource o s t ∧
      DifferenceOf s.sp (readSource o s).1 false u t.cc)

/-- BITA, TSTA (`44_integer_test.md` R224, R225). -/
def Obligations.BitTestAndTestOfA : Prop :=
  TableTA .bita 0x8 3 4 ∧ Inherent 0x09 .tsta 2 ∧
  (∀ (o : Source) (s : State), ∃ t : State, exec (.bita o) s = .next t ∧ TestedSource o s t ∧
    LogicFlags s.cc (s.a &&& (readSource o s).1) t.cc) ∧
  (∀ s : State, ∃ t : State, exec .tsta s = .next t ∧ t = { s with cc := t.cc } ∧ t.cc.i = s.cc.i ∧
    SignZero t.cc s.a ∧ t.cc.v = false ∧ t.cc.c = false)

/-- ANDA, ORA, EORA (`45_logical.md` R235, R236, R239). -/
def Obligations.BitwiseLogicOnA : Prop :=
  TableTA .anda 0x9 4 5 ∧ TableTA .ora 0xA 4 5 ∧ TableTA .eora 0xB 4 5 ∧
  ∀ (o : Source) (s : State),
    (∃ t : State, exec (.anda o) s = .next t ∧ CombinedA o s t ∧ t.a = s.a &&& (readSource o s).1 ∧
      LogicFlags s.cc t.a t.cc) ∧
    (∃ t : State, exec (.ora o) s = .next t ∧ CombinedA o s t ∧ t.a = s.a ||| (readSource o s).1 ∧
      LogicFlags s.cc t.a t.cc) ∧
    (∃ t : State, exec (.eora o) s = .next t ∧ CombinedA o s t ∧ t.a = s.a ^^^ (readSource o s).1 ∧
      LogicFlags s.cc t.a t.cc)

/-- COMA, COM (`45_logical.md` R240, R241). -/
def Obligations.ComplementOfAAndCell : Prop :=
  Inherent 0x0A .coma 3 ∧ TableTM .com 0xA 4 ∧
  (∀ s : State, ∃ t : State, exec .coma s = .next t ∧ ChangedA s t ∧ t.a.toNat = 255 - s.a.toNat ∧
    LogicFlags s.cc t.a t.cc) ∧
  (∀ (c : Cell) (s : State), ∃ (t : State) (u : Byte), exec (.com c) s = .next t ∧ ModifiedCell c s t u ∧
    u.toNat = 255 - (memRead s (ea c s)).1.toNat ∧ LogicFlags s.cc u t.cc)

/-- ANDCC, ORCC (`45_logical.md` R237, R238). -/
def Obligations.FlagMasksWithImmediate : Prop :=
  OneForm 0x01 .andcc 4 ∧ OneForm 0x02 .orcc 4 ∧
  ∀ (b : Byte) (s : State),
    exec (.andcc b) s = .next { s with cc :=
      { i := s.cc.i && b.getLsbD 4, n := s.cc.n && b.getLsbD 3, z := s.cc.z && b.getLsbD 2,
        v := s.cc.v && b.getLsbD 1, c := s.cc.c && b.getLsbD 0 } } ∧
    exec (.orcc b) s = .next { s with cc :=
      { i := s.cc.i || b.getLsbD 4, n := s.cc.n || b.getLsbD 3, z := s.cc.z || b.getLsbD 2,
        v := s.cc.v || b.getLsbD 1, c := s.cc.c || b.getLsbD 0 } }

/-- LSLA, LSL, ROLA, ROL (`46_shift_rotate.md` R252, R253, R256, R257). -/
def Obligations.LeftShiftsAndRotates : Prop :=
  Inherent 0x0B .lsla 3 ∧ TableTM .lsl 0xB 4 ∧ Inherent 0x0D .rola 3 ∧ TableTM .rol 0xD 4 ∧
  (∀ s : State, ∃ t : State, exec .lsla s = .next t ∧ ChangedA s t ∧ LeftShiftOf s.a false t.a t.cc) ∧
  (∀ s : State, ∃ t : State, exec .rola s = .next t ∧ ChangedA s t ∧ LeftShiftOf s.a s.cc.c t.a t.cc) ∧
  (∀ (c : Cell) (s : State), ∃ (t : State) (u : Byte), exec (.lsl c) s = .next t ∧ ModifiedCell c s t u ∧
    LeftShiftOf (memRead s (ea c s)).1 false u t.cc) ∧
  (∀ (c : Cell) (s : State), ∃ (t : State) (u : Byte), exec (.rol c) s = .next t ∧ ModifiedCell c s t u ∧
    LeftShiftOf (memRead s (ea c s)).1 s.cc.c u t.cc)

/-- ASRA, ASR, RORA, ROR (`46_shift_rotate.md` R250, R251, R258, R259). -/
def Obligations.ArithmeticShiftAndRotateRight : Prop :=
  Inherent 0x0F .asra 3 ∧ TableTM .asr 0xF 4 ∧ Inherent 0x0E .rora 3 ∧ TableTM .ror 0xE 4 ∧
  (∀ s : State, ∃ t : State, exec .asra s = .next t ∧ ChangedA s t ∧
    RightShiftOf s.a (decide (128 ≤ s.a.toNat)) t.a t.cc ∧ t.cc.v = false) ∧
  (∀ s : State, ∃ t : State, exec .rora s = .next t ∧ ChangedA s t ∧
    RightShiftOf s.a s.cc.c t.a t.cc ∧ (t.cc.v = true ↔ s.cc.c ≠ decide (128 ≤ s.a.toNat))) ∧
  (∀ (c : Cell) (s : State), ∃ (t : State) (u : Byte), exec (.asr c) s = .next t ∧ ModifiedCell c s t u ∧
    RightShiftOf (memRead s (ea c s)).1 (decide (128 ≤ (memRead s (ea c s)).1.toNat)) u t.cc ∧ t.cc.v = false) ∧
  (∀ (c : Cell) (s : State), ∃ (t : State) (u : Byte), exec (.ror c) s = .next t ∧ ModifiedCell c s t u ∧
    RightShiftOf (memRead s (ea c s)).1 s.cc.c u t.cc ∧
    (t.cc.v = true ↔ s.cc.c ≠ decide (128 ≤ (memRead s (ea c s)).1.toNat)))

/-- LSRA, LSR (`46_shift_rotate.md` R254, R255); V as the spec derives it from R305 and R312. -/
def Obligations.LogicalShiftRight : Prop :=
  Inherent 0x0C .lsra 3 ∧ TableTM .lsr 0xC 4 ∧
  (∀ s : State, ∃ t : State, exec .lsra s = .next t ∧ ChangedA s t ∧
    RightShiftOf s.a false t.a t.cc ∧ t.cc.n = false ∧ (t.cc.v = true ↔ 128 ≤ s.a.toNat)) ∧
  (∀ (c : Cell) (s : State), ∃ (t : State) (u : Byte), exec (.lsr c) s = .next t ∧ ModifiedCell c s t u ∧
    RightShiftOf (memRead s (ea c s)).1 false u t.cc ∧ t.cc.n = false ∧
    (t.cc.v = true ↔ 128 ≤ (memRead s (ea c s)).1.toNat))

/-- The corner case of `46_shift_rotate.md` R256: a nine-bit rotation through C. -/
def Obligations.NineRotatesRestore : Prop :=
  ∀ s : State,
    (∃ t : State, (List.replicate 9 Instr.rola).foldl
        (fun r i => match r with | Host.Outcome.next u => exec i u | other => other) (.next s) = .next t ∧
      t.a = s.a ∧ t.cc.c = s.cc.c ∧ t = { s with cc := t.cc } ∧ t.cc.i = s.cc.i) ∧
    (∀ t u : State, exec .rola s = .next t → exec .rora t = .next u → u.a = s.a ∧ u.cc.c = s.cc.c)

/-- PSHA, PSHX, PSHY, PULA, PULX, PULY (`47_stack.md` R272 to R274, R276 to R278). -/
def Obligations.PushesAndPullsOfRegisters : Prop :=
  Inherent 0x10 .psha 3 ∧ Inherent 0x11 .pshx 3 ∧ Inherent 0x12 .pshy 3 ∧
  Inherent 0x14 .pula 3 ∧ Inherent 0x15 .pulx 3 ∧ Inherent 0x16 .puly 3 ∧
  ∀ s : State,
    (∃ t : State, exec .psha s = .next t ∧ t = { s with sp := s.sp - 1, mem := t.mem, out := t.out } ∧
      Stored s t (s.sp - 1) s.a) ∧
    (∃ t : State, exec .pshx s = .next t ∧ t = { s with sp := s.sp - 1, mem := t.mem, out := t.out } ∧
      Stored s t (s.sp - 1) s.x) ∧
    (∃ t : State, exec .pshy s = .next t ∧ t = { s with sp := s.sp - 1, mem := t.mem, out := t.out } ∧
      Stored s t (s.sp - 1) s.y) ∧
    exec .pula s = .next { s with a := (memRead s s.sp).1, sp := s.sp + 1, env := (memRead s s.sp).2.env } ∧
    exec .pulx s = .next { s with x := (memRead s s.sp).1, sp := s.sp + 1, env := (memRead s s.sp).2.env } ∧
    exec .puly s = .next { s with y := (memRead s s.sp).1, sp := s.sp + 1, env := (memRead s s.sp).2.env }

/-- PSHC, PULC (`47_stack.md` R275, R279) under decisions D1 (CC_HI, log 4) and D14 (I). -/
def Obligations.PushAndPullOfCc : Prop :=
  Inherent 0x13 .pshc 3 ∧ Inherent 0x17 .pulc 3 ∧
  (∀ s : State, ∃ (t : State) (copy : Byte), exec .pshc s = .next t ∧
    CcImage copy (s.env.ccHi.headD (Config.ccHi s.env.draws)) s.cc ∧
    t = { s with sp := s.sp - 1, mem := t.mem, out := t.out, env := t.env } ∧
    t.env = (if s.env.ccHi = [] then { s.env with draws := s.env.draws + 1 }
             else { s.env with ccHi := s.env.ccHi.tail }) ∧
    Stored s t (s.sp - 1) copy) ∧
  (∀ s : State, exec .pulc s = .next { s with
    cc := { i := if s.params.ccLoadWritesI then (memRead s s.sp).1.getLsbD 4 else s.cc.i,
            n := (memRead s s.sp).1.getLsbD 3, z := (memRead s s.sp).1.getLsbD 2,
            v := (memRead s s.sp).1.getLsbD 1, c := (memRead s s.sp).1.getLsbD 0 },
    sp := s.sp + 1, env := (memRead s s.sp).2.env }) ∧
  (∀ s t u : State, s.keeps (s.sp - 1) → exec .pshc s = .next t → exec .pulc t = .next u →
    u.cc = s.cc ∧ u.sp = s.sp)

/-- NOP (`48_misc.md` R285). -/
def Obligations.NopDoesNothing : Prop :=
  Inherent 0x00 .nop 2 ∧ (∀ s : State, exec .nop s = .next s) ∧
  ∀ s : State, s.fetches → portOf s.pc = none → s.cell s.pc = 0x00 →
    step s = .next { s with pc := s.pc + 1, env := { s.env with pins := s.env.pins.tail } }

/-- The helper table of `49_alu_functions.md` R315 against the function table (R291 to R306), decisions D15 and D21. -/
def Obligations.HelpersAreTheAluTable : Prop :=
  ∀ (d e : Byte) (b : Bool),
    add8 d e b = alu .f1011 d e b ∧ sub8 d e b = alu .f1100 d e (!b) ∧
    inc8 d = alu .f1001 d e true ∧ dec8 d = alu .f1010 d e b ∧ neg8 d = alu .f0101 d e true ∧
    logic8 (d ||| e) = alu .f0110 d e b ∧ logic8 (d &&& e) = alu .f0111 d e b ∧
    logic8 (d ^^^ e) = alu .f1000 d e b ∧ pass8 e = alu .f0100 d e b ∧
    shl8 d b = alu .f1101 d e b ∧ shr8 d b = alu .f1110 d e b ∧ shr8 d (d.getLsbD 7) = alu .f1111 d e b ∧
    (alu .f0001 d e b).u = irqVector ∧ (alu .f0010 d e b).u = trapVector ∧ (alu .f0011 d e b).u = resetVector ∧
    (alu .f0000 d e b).u = 0
end

