-- ==== Sys2Proof/Laws/Assembler.lean ====
section
/-! SUPPORT. The two passes of the assembler agree: the room the first pass gives a line is the number of bytes the second
puts there. -/

namespace Sys2Proof.Machine

open Sys2Proof

/-- What `resolveOperand` changes is no part of an operand's shape. -/
def AsmOperand.sameShape : AsmOperand Byte → AsmOperand Byte → Bool
  | .none, .none => true
  | .imm _, .imm _ => true
  | .adr _, .adr _ => true
  | .idx _ r, .idx _ r' => r == r'
  | .acc r, .acc r' => r == r'
  | .auto r k, .auto r' k' => r == r' && k == k'
  | .pair r1 r2, .pair r1' r2' => r1 == r1' && r2 == r2'
  | _, _ => false

theorem resolveOperand_sameShape {t : Symbols} {o : AsmOperand Val} {o' : AsmOperand Byte} (h : resolveOperand t o = .ok o') :
    (operandShape o).sameShape o' = true := by
  cases o <;> simp only [resolveOperand, Except.ok.injEq] at h <;>
    first
    | (subst h; simp [operandShape, AsmOperand.sameShape])
    | (rename_i v
       cases hv : resolveByte t v <;> rw [hv] at h <;> cases h
       simp [operandShape, AsmOperand.sameShape])
    | (rename_i v r
       cases hv : resolveByte t v <;> rw [hv] at h <;> cases h
       simp [operandShape, AsmOperand.sameShape])

/-- The length of an instruction is that of its mnemonic and the shape of its operand. -/
theorem assembleBytes_length {loc loc' : Byte} {m : Mnemonic} {o o' : AsmOperand Byte} (h : o.sameShape o' = true) :
    (assembleBytes loc m o).map List.length = (assembleBytes loc' m o').map List.length := by
  cases o <;> cases o' <;> first | cases h | skip
  case none => cases m <;> rfl
  case imm => cases m <;> rfl
  case adr => cases m <;> rfl
  case idx v r v' r' =>
    have hr : r = r' := by simpa [AsmOperand.sameShape] using h
    subst hr
    cases r <;> cases m <;> rfl
  case acc r r' =>
    have hr : r = r' := by simpa [AsmOperand.sameShape] using h
    subst hr
    cases r <;> cases m <;> rfl
  case auto r k r' k' =>
    have hr : r = r' ∧ k = k' := by simpa [AsmOperand.sameShape] using h
    obtain ⟨rfl, rfl⟩ := hr
    cases r <;> cases k <;> cases m <;> rfl
  case pair r1 r2 r1' r2' =>
    have hr : r1 = r1' ∧ r2 = r2' := by simpa [AsmOperand.sameShape] using h
    obtain ⟨rfl, rfl⟩ := hr
    cases m <;> rfl

theorem resolveAll_length {t : Symbols} : ∀ {vs : List Val} {bs : List Byte}, resolveAll t vs = .ok bs → bs.length = vs.length
  | [], _, h => by cases h; rfl
  | v :: vs, _, h => by
    rw [resolveAll] at h
    cases hv : resolveByte t v <;> rw [hv] at h
    · cases h
    · cases hr : resolveAll t vs <;> rw [hr] at h <;> cases h
      simp [resolveAll_length hr]

theorem stringCodes_length : ∀ {cs : List Char} {bs : List Byte}, stringCodes cs = .ok bs → bs.length = cs.length
  | [], _, h => by cases h; rfl
  | c :: cs, _, h => by
    rw [stringCodes] at h
    cases hc : asciiCode c <;> rw [hc] at h
    · cases h
    · cases hr : stringCodes cs <;> simp only [hr] at h <;> cases h
      simp [stringCodes_length hr]

/-- The bytes of a line that holds code or data fill the room the first pass gave it, under any later symbols
(`30_encoding.md` R114, R115). -/
theorem lineBytes_fill_room {loc next : Byte} {t t' u : Symbols} {bs : List Byte} {l : Line}
    (hp : passLine loc t l = .ok (next, t')) (hb : lineBytes u loc l = .ok bs) :
    (∀ v, l ≠ .org v) → (∀ n v, l ≠ .rmb n v) → next = loc + BitVec.ofNat 8 bs.length := by
  intro ho hr
  cases l with
  | org v => exact absurd rfl (ho v)
  | rmb n v => exact absurd rfl (hr n v)
  | equ sym v =>
    cases hv : resolve t v <;> simp only [passLine, hv] at hp <;> cases hp
    cases hb
    simp
  | fcb label vs => cases hp; rw [resolveAll_length hb]
  | fcs label text => cases hp; rw [stringCodes_length hb]
  | op label m o =>
    simp only [lineBytes] at hb
    cases ho' : resolveOperand u o with
    | error e => rw [ho'] at hb; cases hb
    | ok o' =>
      rw [ho'] at hb
      have hb' : assembleBytes loc m o' = .ok bs := hb
      have hl := assembleBytes_length (loc := loc) (loc' := loc) (m := m) (resolveOperand_sameShape ho')
      rw [hb'] at hl
      cases hs : assembleBytes loc m (operandShape o) with
      | error e => rw [passLine, hs] at hp; cases hp
      | ok room =>
        rw [passLine, hs] at hp
        rw [hs] at hl
        cases hp
        rw [show room.length = bs.length from Except.ok.inj hl]

end Sys2Proof.Machine
end

