-- ==== Sys2Proof/Laws/Exec.lean ====
section
/-! SUPPORT. What `exec` answers for each instruction, in terms of the shared operations: one equation per constructor. -/

namespace Sys2Proof.Machine

open Sys2Proof

theorem exec_nop (s : State) : exec .nop s = .next s := rfl
theorem exec_andcc (d : Byte) (s : State) :
    exec (.andcc d) s = .next (s.setCc (CC.mk (s.cc.i && (ccOfByte d).i) (s.cc.n && (ccOfByte d).n) (s.cc.z && (ccOfByte d).z) (s.cc.v && (ccOfByte d).v) (s.cc.c && (ccOfByte d).c))) := rfl
theorem exec_orcc (d : Byte) (s : State) :
    exec (.orcc d) s = .next (s.setCc (CC.mk (s.cc.i || (ccOfByte d).i) (s.cc.n || (ccOfByte d).n) (s.cc.z || (ccOfByte d).z) (s.cc.v || (ccOfByte d).v) (s.cc.c || (ccOfByte d).c))) := rfl
theorem exec_illegal03 (s : State) : exec .illegal03 s = .next (takeTrap s) := rfl
theorem exec_illegal04 (s : State) : exec .illegal04 s = .next (takeTrap s) := rfl
theorem exec_clra (s : State) : exec .clra s = .next (writeA rowClear (alu .f0000 0 0 false) s) := rfl
theorem exec_nega (s : State) : exec .nega s = .next (writeA rowArith (neg8 s.a) s) := rfl
theorem exec_inca (s : State) : exec .inca s = .next (writeA rowIncDec (inc8 s.a) s) := rfl
theorem exec_deca (s : State) : exec .deca s = .next (writeA rowIncDec (dec8 s.a) s) := rfl
theorem exec_tsta (s : State) : exec .tsta s = .next (s.setFlags rowTest (pass8 s.a)) := rfl
theorem exec_coma (s : State) : exec .coma s = .next (writeA rowLogic (logic8 (~~~s.a)) s) := rfl
theorem exec_lsla (s : State) : exec .lsla s = .next (writeA rowArith (shl8 s.a false) s) := rfl
theorem exec_lsra (s : State) : exec .lsra s = .next (writeA rowLsr (shr8 s.a false) s) := rfl
theorem exec_rola (s : State) : exec .rola s = .next (writeA rowArith (shl8 s.a s.cc.c) s) := rfl
theorem exec_rora (s : State) : exec .rora s = .next (writeA rowArith (shr8 s.a s.cc.c) s) := rfl
theorem exec_asra (s : State) : exec .asra s = .next (writeA rowAsr (shr8 s.a (s.a.getLsbD 7)) s) := rfl
theorem exec_psha (s : State) : exec .psha s = .next (push s.a s) := rfl
theorem exec_pshx (s : State) : exec .pshx s = .next (push s.x s) := rfl
theorem exec_pshy (s : State) : exec .pshy s = .next (push s.y s) := rfl
theorem exec_pshc (s : State) : exec .pshc s = .next (push (copyCc s).1 (copyCc s).2) := rfl
theorem exec_pula (s : State) : exec .pula s = .next ((pull s).2.setA (pull s).1) := rfl
theorem exec_pulx (s : State) : exec .pulx s = .next ((pull s).2.setX (pull s).1) := rfl
theorem exec_puly (s : State) : exec .puly s = .next ((pull s).2.setY (pull s).1) := rfl
theorem exec_pulc (s : State) : exec .pulc s = .next (loadCc (pull s).1 (pull s).2) := rfl
theorem exec_tfrACc (s : State) : exec .tfrACc s = .next (loadCc s.a s) := rfl
theorem exec_tfrCcA (s : State) : exec .tfrCcA s = .next ((copyCc s).2.setA (copyCc s).1) := rfl
theorem exec_tfrXY (s : State) : exec .tfrXY s = .next (s.setY s.x) := rfl
theorem exec_tfrYX (s : State) : exec .tfrYX s = .next (s.setX s.y) := rfl
theorem exec_tfrXSp (s : State) : exec .tfrXSp s = .next (s.setSp s.x) := rfl
theorem exec_tfrSpX (s : State) : exec .tfrSpX s = .next (s.setX s.sp) := rfl
theorem exec_tfrYSp (s : State) : exec .tfrYSp s = .next (s.setSp s.y) := rfl
theorem exec_tfrSpY (s : State) : exec .tfrSpY s = .next (s.setY s.sp) := rfl
theorem exec_bsr (off : Byte) (s : State) : exec (.bsr off) s = .next ((push s.pc s).setPc (s.pc + off)) := rfl
theorem exec_bra (off : Byte) (s : State) : exec (.bra off) s = .next (branchIf true off s) := rfl
theorem exec_bmi (off : Byte) (s : State) : exec (.bmi off) s = .next (branchIf s.cc.n off s) := rfl
theorem exec_bpl (off : Byte) (s : State) : exec (.bpl off) s = .next (branchIf (!s.cc.n) off s) := rfl
theorem exec_beq (off : Byte) (s : State) : exec (.beq off) s = .next (branchIf s.cc.z off s) := rfl
theorem exec_bne (off : Byte) (s : State) : exec (.bne off) s = .next (branchIf (!s.cc.z) off s) := rfl
theorem exec_bvs (off : Byte) (s : State) : exec (.bvs off) s = .next (branchIf s.cc.v off s) := rfl
theorem exec_bvc (off : Byte) (s : State) : exec (.bvc off) s = .next (branchIf (!s.cc.v) off s) := rfl
theorem exec_bcs (off : Byte) (s : State) : exec (.bcs off) s = .next (branchIf s.cc.c off s) := rfl
theorem exec_bcc (off : Byte) (s : State) : exec (.bcc off) s = .next (branchIf (!s.cc.c) off s) := rfl
theorem exec_bhi (off : Byte) (s : State) : exec (.bhi off) s = .next (branchIf (!(s.cc.c || s.cc.z)) off s) := rfl
theorem exec_bls (off : Byte) (s : State) : exec (.bls off) s = .next (branchIf (s.cc.c || s.cc.z) off s) := rfl
theorem exec_bgt (off : Byte) (s : State) :
    exec (.bgt off) s = .next (branchIf (!((s.cc.n ^^ s.cc.v) || s.cc.z)) off s) := rfl
theorem exec_bge (off : Byte) (s : State) : exec (.bge off) s = .next (branchIf (!(s.cc.n ^^ s.cc.v)) off s) := rfl
theorem exec_ble (off : Byte) (s : State) :
    exec (.ble off) s = .next (branchIf ((s.cc.n ^^ s.cc.v) || s.cc.z) off s) := rfl
theorem exec_blt (off : Byte) (s : State) : exec (.blt off) s = .next (branchIf (s.cc.n ^^ s.cc.v) off s) := rfl
theorem exec_stx (c : Cell) (s : State) : exec (.stx c) s = .next (memWrite s (ea c s) s.x) := rfl
theorem exec_sty (c : Cell) (s : State) : exec (.sty c) s = .next (memWrite s (ea c s) s.y) := rfl
theorem exec_stsp (c : Cell) (s : State) : exec (.stsp c) s = .next (memWrite s (ea c s) s.sp) := rfl
theorem exec_jmp (c : Cell) (s : State) : exec (.jmp c) s = .next (s.setPc (ea c s)) := rfl
theorem exec_jsr (c : Cell) (s : State) : exec (.jsr c) s = .next ((push s.pc s).setPc (ea c s)) := rfl
theorem exec_clr (c : Cell) (s : State) :
    exec (.clr c) s = .next ((memWrite s (ea c s) 0).setFlags rowClear (alu .f0000 0 0 false)) := rfl
theorem exec_neg (c : Cell) (s : State) : exec (.neg c) s = .next (modifyCell rowArith neg8 c s) := rfl
theorem exec_inc (c : Cell) (s : State) : exec (.inc c) s = .next (modifyCell rowIncDec inc8 c s) := rfl
theorem exec_dec (c : Cell) (s : State) : exec (.dec c) s = .next (modifyCell rowIncDec dec8 c s) := rfl
theorem exec_tst (c : Cell) (s : State) :
    exec (.tst c) s = .next ((memRead s (ea c s)).2.setFlags rowTest (pass8 (memRead s (ea c s)).1)) := rfl
theorem exec_com (c : Cell) (s : State) :
    exec (.com c) s = .next (modifyCell rowLogic (fun m => logic8 (~~~m)) c s) := rfl
theorem exec_lsl (c : Cell) (s : State) :
    exec (.lsl c) s = .next (modifyCell rowArith (fun m => shl8 m false) c s) := rfl
theorem exec_lsr (c : Cell) (s : State) :
    exec (.lsr c) s = .next (modifyCell rowLsr (fun m => shr8 m false) c s) := rfl
theorem exec_rol (c : Cell) (s : State) :
    exec (.rol c) s = .next (modifyCell rowArith (fun m => shl8 m s.cc.c) c s) := rfl
theorem exec_ror (c : Cell) (s : State) :
    exec (.ror c) s = .next (modifyCell rowArith (fun m => shr8 m s.cc.c) c s) := rfl
theorem exec_asr (c : Cell) (s : State) :
    exec (.asr c) s = .next (modifyCell rowAsr (fun m => shr8 m (m.getLsbD 7)) c s) := rfl
theorem exec_rts (s : State) : exec .rts s = .next ((pull s).2.setPc (pull s).1) := rfl
theorem exec_rti (s : State) : exec .rti s = .next (returnFromException s) := rfl
theorem exec_ldx (o : Source) (s : State) :
    exec (.ldx o) s = .next (((readSource o s).2.setX (readSource o s).1).setFlags rowLogic (pass8 (readSource o s).1)) := rfl
theorem exec_ldy (o : Source) (s : State) :
    exec (.ldy o) s = .next (((readSource o s).2.setY (readSource o s).1).setFlags rowLogic (pass8 (readSource o s).1)) := rfl
theorem exec_ldsp (o : Source) (s : State) :
    exec (.ldsp o) s = .next (((readSource o s).2.setSp (readSource o s).1).setFlags rowLogic (pass8 (readSource o s).1)) := rfl
theorem exec_sbca (o : Source) (s : State) :
    exec (.sbca o) s = .next (accumulate rowArith (fun m => sub8 s.a m s.cc.c) o s) := rfl
theorem exec_suba (o : Source) (s : State) :
    exec (.suba o) s = .next (accumulate rowArith (fun m => sub8 s.a m false) o s) := rfl
theorem exec_adca (o : Source) (s : State) :
    exec (.adca o) s = .next (accumulate rowArith (fun m => add8 s.a m s.cc.c) o s) := rfl
theorem exec_adda (o : Source) (s : State) :
    exec (.adda o) s = .next (accumulate rowArith (fun m => add8 s.a m false) o s) := rfl
theorem exec_cmpa (o : Source) (s : State) :
    exec (.cmpa o) s = .next (testSource rowArith (fun m => sub8 s.a m false) o s) := rfl
theorem exec_bita (o : Source) (s : State) :
    exec (.bita o) s = .next (testSource rowLogic (fun m => logic8 (s.a &&& m)) o s) := rfl
theorem exec_anda (o : Source) (s : State) :
    exec (.anda o) s = .next (accumulate rowLogic (fun m => logic8 (s.a &&& m)) o s) := rfl
theorem exec_ora (o : Source) (s : State) :
    exec (.ora o) s = .next (accumulate rowLogic (fun m => logic8 (s.a ||| m)) o s) := rfl
theorem exec_eora (o : Source) (s : State) :
    exec (.eora o) s = .next (accumulate rowLogic (fun m => logic8 (s.a ^^^ m)) o s) := rfl
theorem exec_cmpx (o : Source) (s : State) :
    exec (.cmpx o) s = .next (testSource rowArith (fun m => sub8 s.x m false) o s) := rfl
theorem exec_cmpy (o : Source) (s : State) :
    exec (.cmpy o) s = .next (testSource rowArith (fun m => sub8 s.y m false) o s) := rfl
theorem exec_cmpsp (o : Source) (s : State) :
    exec (.cmpsp o) s = .next (testSource rowArith (fun m => sub8 s.sp m false) o s) := rfl
theorem exec_exgACc (s : State) : exec .exgACc s = .next ((loadCc s.a (copyCc s).2).setA (copyCc s).1) := rfl
theorem exec_exgXY (s : State) : exec .exgXY s = .next ((s.setX s.y).setY s.x) := rfl
theorem exec_leasp (c : Cell) (s : State) : exec (.leasp c) s = .next (s.setSp (ea c s)) := rfl
theorem exec_exgXSp (s : State) : exec .exgXSp s = .next ((s.setX s.sp).setSp s.x) := rfl
theorem exec_leax (c : Cell) (s : State) : exec (.leax c) s = .next (s.setX (ea c s)) := rfl
theorem exec_leay (c : Cell) (s : State) : exec (.leay c) s = .next (s.setY (ea c s)) := rfl
theorem exec_exgYSp (s : State) : exec .exgYSp s = .next ((s.setY s.sp).setSp s.y) := rfl
theorem exec_illegalDF (s : State) : exec .illegalDF s = .next (takeTrap s) := rfl
theorem exec_illegalE0 (s : State) : exec .illegalE0 s = .next (takeTrap s) := rfl
theorem exec_sta (m : MemOperand) (s : State) : exec (.sta m) s = .next (storeTo m s.a s) := rfl
theorem exec_illegalEF (s : State) : exec .illegalEF s = .next (takeTrap s) := rfl
theorem exec_lda (o : LoadOperand) (s : State) :
    exec (.lda o) s = .next (writeA rowLogic (pass8 (readLoad o s).1) (readLoad o s).2) := rfl
theorem exec_illegalFF (s : State) : exec .illegalFF s = .next (takeTrap s) := rfl

end Sys2Proof.Machine
end

