-- ==== Sys2Proof/Laws/Memory.lean ====
section
/-! SUPPORT. The memory as a list: read after write, and the canonical form under every operation. -/

namespace Sys2Proof.Machine

theorem portOf_eq_none_iff (a : Byte) : portOf a = none ↔ a ≠ 0xFB ∧ a ≠ 0xFC := by
  unfold portOf
  split
  · simp_all
  · split <;> simp_all

theorem portOf_eq_some_iff (a : Byte) (p : Port) : portOf a = some p ↔ a = p.address := by
  unfold portOf
  cases p <;> simp only [Port.address] <;> split
  · simp_all
  · split <;> simp_all
  · simp_all
  · split <;> simp_all

@[simp] theorem portOf_address (p : Port) : portOf p.address = some p := by cases p <;> rfl

/-! Reading. -/

@[simp] theorem Memory.read_nil (a : Nat) : Memory.read [] a = Config.unwritten := rfl

theorem Memory.read_cons (k : Nat) (v : Byte) (m : Memory) (a : Nat) :
    Memory.read ((k, v) :: m) a = if a = k then v else Memory.read m a := rfl

theorem Memory.read_erase_self (m : Memory) (a : Nat) : (Memory.erase m a).read a = Config.unwritten := by
  induction m with
  | nil => rfl
  | cons c m ih =>
    obtain ⟨k, v⟩ := c
    by_cases h : k = a
    · simpa [Memory.erase, h] using ih
    · have h' : a ≠ k := fun e => h e.symm
      simpa [Memory.erase, h, Memory.read_cons, h'] using ih

theorem Memory.read_erase_other (m : Memory) {a b : Nat} (h : b ≠ a) : (Memory.erase m a).read b = m.read b := by
  induction m with
  | nil => rfl
  | cons c m ih =>
    obtain ⟨k, v⟩ := c
    by_cases hk : k = a
    · subst hk
      simpa [Memory.erase, Memory.read_cons, h] using ih
    · simp [Memory.erase, hk, Memory.read_cons, ih]

theorem Memory.read_insert_self (m : Memory) (a : Nat) (v : Byte) : (Memory.insert m a v).read a = v := by
  induction m with
  | nil => simp [Memory.insert, Memory.read_cons]
  | cons c m ih =>
    obtain ⟨k, w⟩ := c
    by_cases h1 : a < k
    · simp [Memory.insert, h1, Memory.read_cons]
    · by_cases h2 : a = k
      · simp [Memory.insert, h2, Memory.read_cons]
      · simp [Memory.insert, h1, h2, Memory.read_cons, ih]

theorem Memory.read_insert_other (m : Memory) {a b : Nat} (v : Byte) (h : b ≠ a) :
    (Memory.insert m a v).read b = m.read b := by
  induction m with
  | nil => simp [Memory.insert, Memory.read_cons, h]
  | cons c m ih =>
    obtain ⟨k, w⟩ := c
    by_cases h1 : a < k
    · simp [Memory.insert, h1, Memory.read_cons, h]
    · by_cases h2 : a = k
      · subst h2
        simp [Memory.insert, Memory.read_cons, h]
      · simp [Memory.insert, h1, h2, Memory.read_cons, ih]

/-- A read after a write of the same cell gives the value written. -/
@[simp] theorem Memory.read_write_self (m : Memory) (a : Nat) (v : Byte) : (Memory.write m a v).read a = v := by
  unfold Memory.write
  split
  · next h => rw [Memory.read_erase_self, h]
  · exact Memory.read_insert_self m a v

/-- A write leaves every other cell alone. -/
theorem Memory.read_write_other (m : Memory) {a b : Nat} (v : Byte) (h : b ≠ a) :
    (Memory.write m a v).read b = m.read b := by
  unfold Memory.write
  split
  · exact Memory.read_erase_other m h
  · exact Memory.read_insert_other m v h

/-! The canonical form. -/

theorem Memory.mem_erase {m : Memory} {a : Nat} {c : Host.Cell} (h : c ∈ Memory.erase m a) : c ∈ m := by
  induction m with
  | nil => exact h
  | cons d m ih =>
    obtain ⟨k, v⟩ := d
    by_cases hk : k = a
    · simp only [Memory.erase, hk, if_true] at h
      exact .tail _ (ih h)
    · simp only [Memory.erase, hk, if_false] at h
      rcases List.mem_cons.1 h with rfl | h
      · exact .head _
      · exact .tail _ (ih h)

theorem Memory.mem_insert {m : Memory} {a : Nat} {v : Byte} {c : Host.Cell} (h : c ∈ Memory.insert m a v) :
    c = (a, v) ∨ c ∈ m := by
  induction m with
  | nil => simpa [Memory.insert] using h
  | cons d m ih =>
    obtain ⟨k, w⟩ := d
    by_cases h1 : a < k
    · simpa [Memory.insert, h1] using h
    · by_cases h2 : a = k
      · simp only [Memory.insert, h2, if_true] at h
        rcases List.mem_cons.1 (by simpa using h) with h | h
        · exact .inl (by rw [h, h2])
        · exact .inr (.tail _ h)
      · simp only [Memory.insert, h1, h2, if_false] at h
        rcases List.mem_cons.1 h with h | h
        · exact .inr (h ▸ .head _)
        · exact (ih h).imp_right (.tail _)

theorem Memory.sorted_erase {m : Memory} (a : Nat) (h : m.Pairwise (fun c d => c.1 < d.1)) :
    (Memory.erase m a).Pairwise (fun c d => c.1 < d.1) := by
  induction m with
  | nil => exact h
  | cons d m ih =>
    obtain ⟨k, v⟩ := d
    obtain ⟨h1, h2⟩ := List.pairwise_cons.1 h
    by_cases hk : k = a
    · simpa [Memory.erase, hk] using ih h2
    · simp only [Memory.erase, hk, if_false]
      exact List.pairwise_cons.2 ⟨fun c hc => h1 c (Memory.mem_erase hc), ih h2⟩

theorem Memory.sorted_insert {m : Memory} (a : Nat) (v : Byte) (h : m.Pairwise (fun c d => c.1 < d.1)) :
    (Memory.insert m a v).Pairwise (fun c d => c.1 < d.1) := by
  induction m with
  | nil => simp [Memory.insert]
  | cons d m ih =>
    obtain ⟨k, w⟩ := d
    obtain ⟨h1, h2⟩ := List.pairwise_cons.1 h
    by_cases ha : a < k
    · simp only [Memory.insert, ha, if_true]
      refine List.pairwise_cons.2 ⟨fun c hc => ?_, h⟩
      rcases List.mem_cons.1 hc with rfl | hc
      · exact ha
      · exact lt_trans ha (h1 c hc)
    · by_cases hk : a = k
      · subst hk
        simp only [Memory.insert, lt_irrefl, if_true, if_false]
        exact List.pairwise_cons.2 ⟨h1, h2⟩
      · simp only [Memory.insert, ha, hk, if_false]
        refine List.pairwise_cons.2 ⟨fun c hc => ?_, ih h2⟩
        rcases Memory.mem_insert hc with rfl | hc
        · show k < a
          omega
        · exact h1 c hc

@[simp] theorem Memory.wf_nil : Memory.wf [] := by simp [Memory.wf]

theorem Memory.wf_erase {m : Memory} (a : Nat) (h : m.wf) : (Memory.erase m a).wf :=
  ⟨Memory.sorted_erase a h.1, fun c hc => h.2 c (Memory.mem_erase hc)⟩

theorem Memory.wf_insert {m : Memory} {a : Nat} {v : Byte} (h : m.wf)
    (ha : a < 256 ∧ a ≠ 0xFB ∧ a ≠ 0xFC) (hv : v ≠ Config.unwritten) : (Memory.insert m a v).wf := by
  refine ⟨Memory.sorted_insert a v h.1, fun c hc => ?_⟩
  rcases Memory.mem_insert hc with rfl | hc
  · exact ⟨ha.1, ha.2.1, ha.2.2, hv⟩
  · exact h.2 c hc

/-- A write to an address that holds a cell keeps the canonical form. -/
theorem Memory.wf_write {m : Memory} {a : Byte} (v : Byte) (h : m.wf) (ha : portOf a = none) :
    (Memory.write m a.toNat v).wf := by
  unfold Memory.write
  split
  · exact Memory.wf_erase _ h
  · next hv =>
    obtain ⟨h1, h2⟩ := (portOf_eq_none_iff a).1 ha
    refine Memory.wf_insert h ⟨a.isLt, ?_, ?_⟩ hv
    · intro e; exact h1 (BitVec.eq_of_toNat_eq e)
    · intro e; exact h2 (BitVec.eq_of_toNat_eq e)

/-- Loading an image keeps the canonical form. -/
theorem Memory.wf_load {m : Memory} (image : List (Byte × Byte)) (h : m.wf) : (Memory.load m image).wf := by
  induction image generalizing m with
  | nil => exact h
  | cons c image ih =>
    obtain ⟨a, v⟩ := c
    apply ih
    split
    · next ha => exact Memory.wf_write v h ha
    · exact h

/-- A cell below every listed one reads as unwritten. -/
theorem Memory.read_below {m : Memory} {a : Nat} (h : ∀ c ∈ m, a < c.1) : m.read a = Config.unwritten := by
  induction m with
  | nil => rfl
  | cons d m ih =>
    obtain ⟨k, v⟩ := d
    have hk : a < k := h (k, v) (.head _)
    rw [Memory.read_cons, if_neg (by omega)]
    exact ih fun c hc => h c (.tail _ hc)

/-- Two memories in canonical form that read alike at every address are equal data. -/
theorem Memory.wf_ext {m n : Memory} (hm : m.wf) (hn : n.wf) (h : ∀ a, m.read a = n.read a) : m = n := by
  induction m generalizing n with
  | nil =>
    cases n with
    | nil => rfl
    | cons d n =>
      obtain ⟨k, v⟩ := d
      have := h k
      rw [Memory.read_nil, Memory.read_cons, if_pos rfl] at this
      exact absurd this.symm (hn.2 (k, v) (.head _)).2.2.2
  | cons c m ih =>
    obtain ⟨j, u⟩ := c
    have hj := (List.pairwise_cons.1 hm.1).1
    cases n with
    | nil =>
      have := h j
      rw [Memory.read_nil, Memory.read_cons, if_pos rfl] at this
      exact absurd this (hm.2 (j, u) (.head _)).2.2.2
    | cons d n =>
      obtain ⟨k, v⟩ := d
      have hk := (List.pairwise_cons.1 hn.1).1
      have hjk : j = k := by
        rcases Nat.lt_trichotomy j k with hlt | he | hlt
        · have := h j
          rw [Memory.read_cons, if_pos rfl,
            Memory.read_below (m := (k, v) :: n) (fun c hc => by
              rcases List.mem_cons.1 hc with rfl | hc
              · exact hlt
              · exact lt_trans hlt (hk c hc))] at this
          exact absurd this (hm.2 (j, u) (.head _)).2.2.2
        · exact he
        · have := h k
          rw [Memory.read_cons (a := k) k, if_pos rfl,
            Memory.read_below (m := (j, u) :: m) (fun c hc => by
              rcases List.mem_cons.1 hc with rfl | hc
              · exact hlt
              · exact lt_trans hlt (hj c hc))] at this
          exact absurd this.symm (hn.2 (k, v) (.head _)).2.2.2
      subst hjk
      have huv : u = v := by simpa [Memory.read_cons] using h j
      subst huv
      have hmn : m = n := by
        refine ih ⟨(List.pairwise_cons.1 hm.1).2, fun c hc => hm.2 c (.tail _ hc)⟩
          ⟨(List.pairwise_cons.1 hn.1).2, fun c hc => hn.2 c (.tail _ hc)⟩ fun a => ?_
        by_cases ha : a = j
        · subst ha
          rw [Memory.read_below hj, Memory.read_below hk]
        · simpa [Memory.read_cons, ha] using h a
      rw [hmn]

end Sys2Proof.Machine
end

