-- ==== Sys2Proof/Laws/State.lean ====
section
/-! SUPPORT. Every field after every update of State. -/

namespace Sys2Proof.Machine

@[simp] theorem State.setA_a (s : State) (v : Byte) : (s.setA v).a = v := rfl
@[simp] theorem State.setA_x (s : State) (v : Byte) : (s.setA v).x = s.x := rfl
@[simp] theorem State.setA_y (s : State) (v : Byte) : (s.setA v).y = s.y := rfl
@[simp] theorem State.setA_sp (s : State) (v : Byte) : (s.setA v).sp = s.sp := rfl
@[simp] theorem State.setA_pc (s : State) (v : Byte) : (s.setA v).pc = s.pc := rfl
@[simp] theorem State.setA_cc (s : State) (v : Byte) : (s.setA v).cc = s.cc := rfl
@[simp] theorem State.setA_mem (s : State) (v : Byte) : (s.setA v).mem = s.mem := rfl
@[simp] theorem State.setA_out (s : State) (v : Byte) : (s.setA v).out = s.out := rfl
@[simp] theorem State.setA_params (s : State) (v : Byte) : (s.setA v).params = s.params := rfl
@[simp] theorem State.setA_env (s : State) (v : Byte) : (s.setA v).env = s.env := rfl

@[simp] theorem State.setX_a (s : State) (v : Byte) : (s.setX v).a = s.a := rfl
@[simp] theorem State.setX_x (s : State) (v : Byte) : (s.setX v).x = v := rfl
@[simp] theorem State.setX_y (s : State) (v : Byte) : (s.setX v).y = s.y := rfl
@[simp] theorem State.setX_sp (s : State) (v : Byte) : (s.setX v).sp = s.sp := rfl
@[simp] theorem State.setX_pc (s : State) (v : Byte) : (s.setX v).pc = s.pc := rfl
@[simp] theorem State.setX_cc (s : State) (v : Byte) : (s.setX v).cc = s.cc := rfl
@[simp] theorem State.setX_mem (s : State) (v : Byte) : (s.setX v).mem = s.mem := rfl
@[simp] theorem State.setX_out (s : State) (v : Byte) : (s.setX v).out = s.out := rfl
@[simp] theorem State.setX_params (s : State) (v : Byte) : (s.setX v).params = s.params := rfl
@[simp] theorem State.setX_env (s : State) (v : Byte) : (s.setX v).env = s.env := rfl

@[simp] theorem State.setY_a (s : State) (v : Byte) : (s.setY v).a = s.a := rfl
@[simp] theorem State.setY_x (s : State) (v : Byte) : (s.setY v).x = s.x := rfl
@[simp] theorem State.setY_y (s : State) (v : Byte) : (s.setY v).y = v := rfl
@[simp] theorem State.setY_sp (s : State) (v : Byte) : (s.setY v).sp = s.sp := rfl
@[simp] theorem State.setY_pc (s : State) (v : Byte) : (s.setY v).pc = s.pc := rfl
@[simp] theorem State.setY_cc (s : State) (v : Byte) : (s.setY v).cc = s.cc := rfl
@[simp] theorem State.setY_mem (s : State) (v : Byte) : (s.setY v).mem = s.mem := rfl
@[simp] theorem State.setY_out (s : State) (v : Byte) : (s.setY v).out = s.out := rfl
@[simp] theorem State.setY_params (s : State) (v : Byte) : (s.setY v).params = s.params := rfl
@[simp] theorem State.setY_env (s : State) (v : Byte) : (s.setY v).env = s.env := rfl

@[simp] theorem State.setSp_a (s : State) (v : Byte) : (s.setSp v).a = s.a := rfl
@[simp] theorem State.setSp_x (s : State) (v : Byte) : (s.setSp v).x = s.x := rfl
@[simp] theorem State.setSp_y (s : State) (v : Byte) : (s.setSp v).y = s.y := rfl
@[simp] theorem State.setSp_sp (s : State) (v : Byte) : (s.setSp v).sp = v := rfl
@[simp] theorem State.setSp_pc (s : State) (v : Byte) : (s.setSp v).pc = s.pc := rfl
@[simp] theorem State.setSp_cc (s : State) (v : Byte) : (s.setSp v).cc = s.cc := rfl
@[simp] theorem State.setSp_mem (s : State) (v : Byte) : (s.setSp v).mem = s.mem := rfl
@[simp] theorem State.setSp_out (s : State) (v : Byte) : (s.setSp v).out = s.out := rfl
@[simp] theorem State.setSp_params (s : State) (v : Byte) : (s.setSp v).params = s.params := rfl
@[simp] theorem State.setSp_env (s : State) (v : Byte) : (s.setSp v).env = s.env := rfl

@[simp] theorem State.setPc_a (s : State) (v : Byte) : (s.setPc v).a = s.a := rfl
@[simp] theorem State.setPc_x (s : State) (v : Byte) : (s.setPc v).x = s.x := rfl
@[simp] theorem State.setPc_y (s : State) (v : Byte) : (s.setPc v).y = s.y := rfl
@[simp] theorem State.setPc_sp (s : State) (v : Byte) : (s.setPc v).sp = s.sp := rfl
@[simp] theorem State.setPc_pc (s : State) (v : Byte) : (s.setPc v).pc = v := rfl
@[simp] theorem State.setPc_cc (s : State) (v : Byte) : (s.setPc v).cc = s.cc := rfl
@[simp] theorem State.setPc_mem (s : State) (v : Byte) : (s.setPc v).mem = s.mem := rfl
@[simp] theorem State.setPc_out (s : State) (v : Byte) : (s.setPc v).out = s.out := rfl
@[simp] theorem State.setPc_params (s : State) (v : Byte) : (s.setPc v).params = s.params := rfl
@[simp] theorem State.setPc_env (s : State) (v : Byte) : (s.setPc v).env = s.env := rfl

@[simp] theorem State.setCc_a (s : State) (v : CC) : (s.setCc v).a = s.a := rfl
@[simp] theorem State.setCc_x (s : State) (v : CC) : (s.setCc v).x = s.x := rfl
@[simp] theorem State.setCc_y (s : State) (v : CC) : (s.setCc v).y = s.y := rfl
@[simp] theorem State.setCc_sp (s : State) (v : CC) : (s.setCc v).sp = s.sp := rfl
@[simp] theorem State.setCc_pc (s : State) (v : CC) : (s.setCc v).pc = s.pc := rfl
@[simp] theorem State.setCc_cc (s : State) (v : CC) : (s.setCc v).cc = v := rfl
@[simp] theorem State.setCc_mem (s : State) (v : CC) : (s.setCc v).mem = s.mem := rfl
@[simp] theorem State.setCc_out (s : State) (v : CC) : (s.setCc v).out = s.out := rfl
@[simp] theorem State.setCc_params (s : State) (v : CC) : (s.setCc v).params = s.params := rfl
@[simp] theorem State.setCc_env (s : State) (v : CC) : (s.setCc v).env = s.env := rfl

@[simp] theorem State.setMem_a (s : State) (v : Memory) : (s.setMem v).a = s.a := rfl
@[simp] theorem State.setMem_x (s : State) (v : Memory) : (s.setMem v).x = s.x := rfl
@[simp] theorem State.setMem_y (s : State) (v : Memory) : (s.setMem v).y = s.y := rfl
@[simp] theorem State.setMem_sp (s : State) (v : Memory) : (s.setMem v).sp = s.sp := rfl
@[simp] theorem State.setMem_pc (s : State) (v : Memory) : (s.setMem v).pc = s.pc := rfl
@[simp] theorem State.setMem_cc (s : State) (v : Memory) : (s.setMem v).cc = s.cc := rfl
@[simp] theorem State.setMem_mem (s : State) (v : Memory) : (s.setMem v).mem = v := rfl
@[simp] theorem State.setMem_out (s : State) (v : Memory) : (s.setMem v).out = s.out := rfl
@[simp] theorem State.setMem_params (s : State) (v : Memory) : (s.setMem v).params = s.params := rfl
@[simp] theorem State.setMem_env (s : State) (v : Memory) : (s.setMem v).env = s.env := rfl

@[simp] theorem State.setOut_a (s : State) (v : List (Port × Byte)) : (s.setOut v).a = s.a := rfl
@[simp] theorem State.setOut_x (s : State) (v : List (Port × Byte)) : (s.setOut v).x = s.x := rfl
@[simp] theorem State.setOut_y (s : State) (v : List (Port × Byte)) : (s.setOut v).y = s.y := rfl
@[simp] theorem State.setOut_sp (s : State) (v : List (Port × Byte)) : (s.setOut v).sp = s.sp := rfl
@[simp] theorem State.setOut_pc (s : State) (v : List (Port × Byte)) : (s.setOut v).pc = s.pc := rfl
@[simp] theorem State.setOut_cc (s : State) (v : List (Port × Byte)) : (s.setOut v).cc = s.cc := rfl
@[simp] theorem State.setOut_mem (s : State) (v : List (Port × Byte)) : (s.setOut v).mem = s.mem := rfl
@[simp] theorem State.setOut_out (s : State) (v : List (Port × Byte)) : (s.setOut v).out = v := rfl
@[simp] theorem State.setOut_params (s : State) (v : List (Port × Byte)) : (s.setOut v).params = s.params := rfl
@[simp] theorem State.setOut_env (s : State) (v : List (Port × Byte)) : (s.setOut v).env = s.env := rfl

@[simp] theorem State.setEnv_a (s : State) (v : Env) : (s.setEnv v).a = s.a := rfl
@[simp] theorem State.setEnv_x (s : State) (v : Env) : (s.setEnv v).x = s.x := rfl
@[simp] theorem State.setEnv_y (s : State) (v : Env) : (s.setEnv v).y = s.y := rfl
@[simp] theorem State.setEnv_sp (s : State) (v : Env) : (s.setEnv v).sp = s.sp := rfl
@[simp] theorem State.setEnv_pc (s : State) (v : Env) : (s.setEnv v).pc = s.pc := rfl
@[simp] theorem State.setEnv_cc (s : State) (v : Env) : (s.setEnv v).cc = s.cc := rfl
@[simp] theorem State.setEnv_mem (s : State) (v : Env) : (s.setEnv v).mem = s.mem := rfl
@[simp] theorem State.setEnv_out (s : State) (v : Env) : (s.setEnv v).out = s.out := rfl
@[simp] theorem State.setEnv_params (s : State) (v : Env) : (s.setEnv v).params = s.params := rfl
@[simp] theorem State.setEnv_env (s : State) (v : Env) : (s.setEnv v).env = v := rfl

@[simp] theorem State.maskIrq_a (s : State) : s.maskIrq.a = s.a := rfl
@[simp] theorem State.maskIrq_x (s : State) : s.maskIrq.x = s.x := rfl
@[simp] theorem State.maskIrq_y (s : State) : s.maskIrq.y = s.y := rfl
@[simp] theorem State.maskIrq_sp (s : State) : s.maskIrq.sp = s.sp := rfl
@[simp] theorem State.maskIrq_pc (s : State) : s.maskIrq.pc = s.pc := rfl
@[simp] theorem State.maskIrq_cc (s : State) : s.maskIrq.cc = { s.cc with i := true } := rfl
@[simp] theorem State.maskIrq_mem (s : State) : s.maskIrq.mem = s.mem := rfl
@[simp] theorem State.maskIrq_out (s : State) : s.maskIrq.out = s.out := rfl
@[simp] theorem State.maskIrq_params (s : State) : s.maskIrq.params = s.params := rfl
@[simp] theorem State.maskIrq_env (s : State) : s.maskIrq.env = s.env := rfl

/-- Two states with equal fields are equal. -/
theorem State.ext_fields {s t : State} (ha : s.a = t.a) (hx : s.x = t.x) (hy : s.y = t.y) (hsp : s.sp = t.sp)
    (hpc : s.pc = t.pc) (hcc : s.cc = t.cc) (hm : s.mem = t.mem) (ho : s.out = t.out)
    (hp : s.params = t.params) (he : s.env = t.env) : s = t := by
  cases s; cases t; simp_all

end Sys2Proof.Machine
end

