-- ==== Sys2Proof/Laws/Ops.lean ====
section
/-! SUPPORT. What each shared operation of `Ops.lean` can do, said once. -/

namespace Sys2Proof.Machine

/-! Memory and ports. -/

theorem State.cell_congr {s t : State} (h : s.mem = t.mem) (b : Byte) : s.cell b = t.cell b := by
  unfold State.cell; rw [h]

@[simp] theorem readPort_a (p : Port) (s : State) : (readPort p s).2.a = s.a := by unfold readPort; split <;> rfl
@[simp] theorem readPort_x (p : Port) (s : State) : (readPort p s).2.x = s.x := by unfold readPort; split <;> rfl
@[simp] theorem readPort_y (p : Port) (s : State) : (readPort p s).2.y = s.y := by unfold readPort; split <;> rfl
@[simp] theorem readPort_sp (p : Port) (s : State) : (readPort p s).2.sp = s.sp := by unfold readPort; split <;> rfl
@[simp] theorem readPort_pc (p : Port) (s : State) : (readPort p s).2.pc = s.pc := by unfold readPort; split <;> rfl
@[simp] theorem readPort_cc (p : Port) (s : State) : (readPort p s).2.cc = s.cc := by unfold readPort; split <;> rfl
@[simp] theorem readPort_mem (p : Port) (s : State) : (readPort p s).2.mem = s.mem := by unfold readPort; split <;> rfl
@[simp] theorem readPort_out (p : Port) (s : State) : (readPort p s).2.out = s.out := by unfold readPort; split <;> rfl
@[simp] theorem readPort_params (p : Port) (s : State) : (readPort p s).2.params = s.params := by unfold readPort; split <;> rfl

@[simp] theorem memRead_a (s : State) (adr : Byte) : (memRead s adr).2.a = s.a := by unfold memRead; split <;> simp
@[simp] theorem memRead_x (s : State) (adr : Byte) : (memRead s adr).2.x = s.x := by unfold memRead; split <;> simp
@[simp] theorem memRead_y (s : State) (adr : Byte) : (memRead s adr).2.y = s.y := by unfold memRead; split <;> simp
@[simp] theorem memRead_sp (s : State) (adr : Byte) : (memRead s adr).2.sp = s.sp := by unfold memRead; split <;> simp
@[simp] theorem memRead_pc (s : State) (adr : Byte) : (memRead s adr).2.pc = s.pc := by unfold memRead; split <;> simp
@[simp] theorem memRead_cc (s : State) (adr : Byte) : (memRead s adr).2.cc = s.cc := by unfold memRead; split <;> simp
@[simp] theorem memRead_mem (s : State) (adr : Byte) : (memRead s adr).2.mem = s.mem := by unfold memRead; split <;> simp
@[simp] theorem memRead_out (s : State) (adr : Byte) : (memRead s adr).2.out = s.out := by unfold memRead; split <;> simp
@[simp] theorem memRead_params (s : State) (adr : Byte) : (memRead s adr).2.params = s.params := by unfold memRead; split <;> simp

/-- A read of an address that is no port: the cell, and no side effect (`20_memory.md` R61). -/
theorem memRead_cell {s : State} {adr : Byte} (h : portOf adr = none) : memRead s adr = (s.cell adr, s) := by
  unfold memRead; rw [h]

/-- A read of a port: its input (`20_memory.md` R64). -/
theorem memRead_port {s : State} {adr : Byte} {p : Port} (h : portOf adr = some p) :
    memRead s adr = readPort p s := by
  unfold memRead; rw [h]

/-- A read changes the environment's scripts at most. -/
theorem memRead_frame (s : State) (adr : Byte) : (memRead s adr).2 = { s with env := (memRead s adr).2.env } := by
  apply State.ext_fields <;> simp

@[simp] theorem memRead_cell_read (s : State) (adr b : Byte) : (memRead s adr).2.cell b = s.cell b :=
  State.cell_congr (by simp) b

/-- A read depends on the memory and the environment only. -/
theorem memRead_congr {s t : State} (hm : s.mem = t.mem) (he : s.env = t.env) (adr : Byte) :
    (memRead s adr).1 = (memRead t adr).1 ∧ (memRead s adr).2.env = (memRead t adr).2.env := by
  unfold memRead
  cases portOf adr with
  | none => exact ⟨State.cell_congr hm adr, he⟩
  | some p =>
    simp only [readPort, he]
    cases t.env.input p <;> simp

@[simp] theorem readPort_pins (p : Port) (s : State) : (readPort p s).2.env.pins = s.env.pins := by
  unfold readPort
  split
  · cases p <;> rfl
  · rfl

/-- A read uses up no sample of the pins. -/
@[simp] theorem memRead_pins (s : State) (adr : Byte) : (memRead s adr).2.env.pins = s.env.pins := by
  unfold memRead; split <;> simp

@[simp] theorem memWrite_a (s : State) (adr v : Byte) : (memWrite s adr v).a = s.a := by unfold memWrite; (repeat' split) <;> rfl
@[simp] theorem memWrite_x (s : State) (adr v : Byte) : (memWrite s adr v).x = s.x := by unfold memWrite; (repeat' split) <;> rfl
@[simp] theorem memWrite_y (s : State) (adr v : Byte) : (memWrite s adr v).y = s.y := by unfold memWrite; (repeat' split) <;> rfl
@[simp] theorem memWrite_sp (s : State) (adr v : Byte) : (memWrite s adr v).sp = s.sp := by unfold memWrite; (repeat' split) <;> rfl
@[simp] theorem memWrite_pc (s : State) (adr v : Byte) : (memWrite s adr v).pc = s.pc := by unfold memWrite; (repeat' split) <;> rfl
@[simp] theorem memWrite_cc (s : State) (adr v : Byte) : (memWrite s adr v).cc = s.cc := by unfold memWrite; (repeat' split) <;> rfl
@[simp] theorem memWrite_params (s : State) (adr v : Byte) : (memWrite s adr v).params = s.params := by unfold memWrite; (repeat' split) <;> rfl
@[simp] theorem memWrite_env (s : State) (adr v : Byte) : (memWrite s adr v).env = s.env := by unfold memWrite; (repeat' split) <;> rfl

/-- A write changes the memory and the output events at most. -/
theorem memWrite_frame (s : State) (adr v : Byte) :
    memWrite s adr v = { s with mem := (memWrite s adr v).mem, out := (memWrite s adr v).out } := by
  apply State.ext_fields <;> simp

/-- A write to a port: one output event, no cell (`20_memory.md` R65). -/
theorem memWrite_port {s : State} {adr : Byte} {p : Port} (h : portOf adr = some p) (v : Byte) :
    memWrite s adr v = s.setOut (s.out ++ [(p, v)]) := by
  unfold memWrite; rw [h]

/-- A write to a cell that is not writable: nothing (`20_memory.md` R66). -/
theorem memWrite_readOnly {s : State} {adr : Byte} (h : portOf adr = none) (hr : adr ∈ s.params.readOnly) (v : Byte) :
    memWrite s adr v = s := by
  unfold memWrite; rw [h]; exact if_pos hr

/-- A write to a writable cell (`20_memory.md` R61). -/
theorem memWrite_cell {s : State} {adr : Byte} (h : portOf adr = none) (hr : adr ∉ s.params.readOnly) (v : Byte) :
    memWrite s adr v = s.setMem (Memory.write s.mem adr.toNat v) := by
  unfold memWrite; rw [h]; exact if_neg hr

/-- A write leaves every other cell alone. -/
theorem memWrite_cell_other (s : State) {adr b : Byte} (v : Byte) (h : b ≠ adr) :
    (memWrite s adr v).cell b = s.cell b := by
  unfold memWrite
  split
  · rfl
  · split
    · rfl
    · exact Memory.read_write_other s.mem v fun e => h (BitVec.eq_of_toNat_eq e)

/-- The cell after a write to it. -/
theorem memWrite_cell_self {s : State} {adr : Byte} (h : portOf adr = none) (hr : adr ∉ s.params.readOnly) (v : Byte) :
    (memWrite s adr v).cell adr = v := by
  rw [memWrite_cell h hr]; exact Memory.read_write_self s.mem adr.toNat v

/-- The output events after a write. -/
theorem memWrite_out (s : State) (adr v : Byte) :
    (memWrite s adr v).out = s.out ++ ((portOf adr).map fun p => (p, v)).toList := by
  cases h : portOf adr with
  | some p => rw [memWrite_port h]; rfl
  | none =>
    by_cases hr : adr ∈ s.params.readOnly
    · rw [memWrite_readOnly h hr]; simp
    · rw [memWrite_cell h hr]; simp

/-- A write keeps the canonical form. -/
theorem memWrite_wf {s : State} (adr v : Byte) (h : s.mem.wf) : (memWrite s adr v).mem.wf := by
  cases hp : portOf adr with
  | some p => rw [memWrite_port hp]; exact h
  | none =>
    by_cases hr : adr ∈ s.params.readOnly
    · rw [memWrite_readOnly hp hr]; exact h
    · rw [memWrite_cell hp hr]; exact Memory.wf_write v h hp

/-! Fetch. -/

/-- `Fetch8()`: the byte at PC; PC one further; the environment as the read leaves it. -/
theorem fetch8_spec (s : State) :
    fetch8 s = ((memRead s s.pc).1, { s with pc := s.pc + 1, env := (memRead s s.pc).2.env }) := by
  unfold fetch8
  refine Prod.ext rfl ?_
  apply State.ext_fields <;> simp

/-! The stack. -/

@[simp] theorem push_a (v : Byte) (s : State) : (push v s).a = s.a := by simp [push]
@[simp] theorem push_x (v : Byte) (s : State) : (push v s).x = s.x := by simp [push]
@[simp] theorem push_y (v : Byte) (s : State) : (push v s).y = s.y := by simp [push]
@[simp] theorem push_pc (v : Byte) (s : State) : (push v s).pc = s.pc := by simp [push]
@[simp] theorem push_cc (v : Byte) (s : State) : (push v s).cc = s.cc := by simp [push]
@[simp] theorem push_params (v : Byte) (s : State) : (push v s).params = s.params := by simp [push]
@[simp] theorem push_env (v : Byte) (s : State) : (push v s).env = s.env := by simp [push]
@[simp] theorem push_sp (v : Byte) (s : State) : (push v s).sp = s.sp - 1 := by simp [push]
@[simp] theorem pull_a (s : State) : (pull s).2.a = s.a := by simp [pull]
@[simp] theorem pull_x (s : State) : (pull s).2.x = s.x := by simp [pull]
@[simp] theorem pull_y (s : State) : (pull s).2.y = s.y := by simp [pull]
@[simp] theorem pull_pc (s : State) : (pull s).2.pc = s.pc := by simp [pull]
@[simp] theorem pull_cc (s : State) : (pull s).2.cc = s.cc := by simp [pull]
@[simp] theorem pull_mem (s : State) : (pull s).2.mem = s.mem := by simp [pull]
@[simp] theorem pull_out (s : State) : (pull s).2.out = s.out := by simp [pull]
@[simp] theorem pull_params (s : State) : (pull s).2.params = s.params := by simp [pull]
@[simp] theorem pull_sp (s : State) : (pull s).2.sp = s.sp + 1 := by simp [pull]
@[simp] theorem pull_value (s : State) : (pull s).1 = (memRead s s.sp).1 := rfl
@[simp] theorem pull_env (s : State) : (pull s).2.env = (memRead s s.sp).2.env := rfl

/-- A push leaves every cell but the one at the new SP alone. -/
theorem push_cell_other (s : State) (v : Byte) {b : Byte} (h : b ≠ s.sp - 1) : (push v s).cell b = s.cell b :=
  memWrite_cell_other (s.setSp (s.sp - 1)) v h

/-- The cell at the new SP after a push. -/
theorem push_cell_self {s : State} (h : portOf (s.sp - 1) = none) (hr : s.sp - 1 ∉ s.params.readOnly) (v : Byte) :
    (push v s).cell (s.sp - 1) = v :=
  memWrite_cell_self (s := s.setSp (s.sp - 1)) h hr v

theorem push_out (s : State) (v : Byte) :
    (push v s).out = s.out ++ ((portOf (s.sp - 1)).map fun p => (p, v)).toList :=
  memWrite_out (s.setSp (s.sp - 1)) (s.sp - 1) v

theorem push_wf {s : State} (v : Byte) (h : s.mem.wf) : (push v s).mem.wf :=
  memWrite_wf (s := s.setSp (s.sp - 1)) (s.sp - 1) v h

/-- A pull of an ordinary cell changes SP only. -/
theorem pull_cell {s : State} (h : portOf s.sp = none) : pull s = (s.cell s.sp, s.setSp (s.sp + 1)) := by
  unfold pull; rw [memRead_cell h]

/-! CC as a byte. -/

@[simp] theorem drawCcHi_a (s : State) : (drawCcHi s).2.a = s.a := by unfold drawCcHi; split <;> rfl
@[simp] theorem drawCcHi_x (s : State) : (drawCcHi s).2.x = s.x := by unfold drawCcHi; split <;> rfl
@[simp] theorem drawCcHi_y (s : State) : (drawCcHi s).2.y = s.y := by unfold drawCcHi; split <;> rfl
@[simp] theorem drawCcHi_sp (s : State) : (drawCcHi s).2.sp = s.sp := by unfold drawCcHi; split <;> rfl
@[simp] theorem drawCcHi_pc (s : State) : (drawCcHi s).2.pc = s.pc := by unfold drawCcHi; split <;> rfl
@[simp] theorem drawCcHi_cc (s : State) : (drawCcHi s).2.cc = s.cc := by unfold drawCcHi; split <;> rfl
@[simp] theorem drawCcHi_mem (s : State) : (drawCcHi s).2.mem = s.mem := by unfold drawCcHi; split <;> rfl
@[simp] theorem drawCcHi_out (s : State) : (drawCcHi s).2.out = s.out := by unfold drawCcHi; split <;> rfl
@[simp] theorem drawCcHi_params (s : State) : (drawCcHi s).2.params = s.params := by unfold drawCcHi; split <;> rfl
@[simp] theorem copyCc_a (s : State) : (copyCc s).2.a = s.a := by simp [copyCc]
@[simp] theorem copyCc_x (s : State) : (copyCc s).2.x = s.x := by simp [copyCc]
@[simp] theorem copyCc_y (s : State) : (copyCc s).2.y = s.y := by simp [copyCc]
@[simp] theorem copyCc_sp (s : State) : (copyCc s).2.sp = s.sp := by simp [copyCc]
@[simp] theorem copyCc_pc (s : State) : (copyCc s).2.pc = s.pc := by simp [copyCc]
@[simp] theorem copyCc_cc (s : State) : (copyCc s).2.cc = s.cc := by simp [copyCc]
@[simp] theorem copyCc_mem (s : State) : (copyCc s).2.mem = s.mem := by simp [copyCc]
@[simp] theorem copyCc_out (s : State) : (copyCc s).2.out = s.out := by simp [copyCc]
@[simp] theorem copyCc_params (s : State) : (copyCc s).2.params = s.params := by simp [copyCc]

@[simp] theorem drawCcHi_pins (s : State) : (drawCcHi s).2.env.pins = s.env.pins := by unfold drawCcHi; split <;> rfl
@[simp] theorem copyCc_pins (s : State) : (copyCc s).2.env.pins = s.env.pins := by simp [copyCc]

/-- The five flags survive the copy out of CC and back, whatever bits 7..5 are (`10_state.md` R32). -/
@[simp] theorem ccOfByte_ccByte (hi : BitVec 3) (cc : CC) : ccOfByte (ccByte hi cc) = cc := by
  obtain ⟨i, n, z, v, c⟩ := cc
  revert hi i n z v c
  decide

/-- CC copied out reads back as CC. -/
@[simp] theorem ccOfByte_copyCc (s : State) : ccOfByte (copyCc s).1 = s.cc := by simp [copyCc]

@[simp] theorem loadCc_a (v : Byte) (s : State) : (loadCc v s).a = s.a := by unfold loadCc; split <;> rfl
@[simp] theorem loadCc_x (v : Byte) (s : State) : (loadCc v s).x = s.x := by unfold loadCc; split <;> rfl
@[simp] theorem loadCc_y (v : Byte) (s : State) : (loadCc v s).y = s.y := by unfold loadCc; split <;> rfl
@[simp] theorem loadCc_sp (v : Byte) (s : State) : (loadCc v s).sp = s.sp := by unfold loadCc; split <;> rfl
@[simp] theorem loadCc_pc (v : Byte) (s : State) : (loadCc v s).pc = s.pc := by unfold loadCc; split <;> rfl
@[simp] theorem loadCc_mem (v : Byte) (s : State) : (loadCc v s).mem = s.mem := by unfold loadCc; split <;> rfl
@[simp] theorem loadCc_out (v : Byte) (s : State) : (loadCc v s).out = s.out := by unfold loadCc; split <;> rfl
@[simp] theorem loadCc_params (v : Byte) (s : State) : (loadCc v s).params = s.params := by unfold loadCc; split <;> rfl
@[simp] theorem loadCc_env (v : Byte) (s : State) : (loadCc v s).env = s.env := by unfold loadCc; split <;> rfl

/-- What a load of CC leaves in it. -/
theorem loadCc_cc (v : Byte) (s : State) :
    (loadCc v s).cc = { ccOfByte v with i := if s.params.ccLoadWritesI then v.getLsbD 4 else s.cc.i } := by
  unfold loadCc; split <;> simp_all [ccOfByte]

/-! Events. -/

@[simp] theorem loadVector_a (vec : Byte) (s : State) : (loadVector vec s).a = s.a := by simp [loadVector]
@[simp] theorem loadVector_x (vec : Byte) (s : State) : (loadVector vec s).x = s.x := by simp [loadVector]
@[simp] theorem loadVector_y (vec : Byte) (s : State) : (loadVector vec s).y = s.y := by simp [loadVector]
@[simp] theorem loadVector_sp (vec : Byte) (s : State) : (loadVector vec s).sp = s.sp := by simp [loadVector]
@[simp] theorem loadVector_cc (vec : Byte) (s : State) : (loadVector vec s).cc = s.cc := by simp [loadVector]
@[simp] theorem loadVector_mem (vec : Byte) (s : State) : (loadVector vec s).mem = s.mem := by simp [loadVector]
@[simp] theorem loadVector_out (vec : Byte) (s : State) : (loadVector vec s).out = s.out := by simp [loadVector]
@[simp] theorem loadVector_params (vec : Byte) (s : State) : (loadVector vec s).params = s.params := by simp [loadVector]
@[simp] theorem loadVector_pc (vec : Byte) (s : State) : (loadVector vec s).pc = (memRead s vec).1 := rfl
@[simp] theorem loadVector_env (vec : Byte) (s : State) : (loadVector vec s).env = (memRead s vec).2.env := by
  simp [loadVector]

@[simp] theorem pushFrame_a (s : State) : (pushFrame s).a = s.a := by simp [pushFrame]
@[simp] theorem pushFrame_x (s : State) : (pushFrame s).x = s.x := by simp [pushFrame]
@[simp] theorem pushFrame_y (s : State) : (pushFrame s).y = s.y := by simp [pushFrame]
@[simp] theorem pushFrame_pc (s : State) : (pushFrame s).pc = s.pc := by simp [pushFrame]
@[simp] theorem pushFrame_cc (s : State) : (pushFrame s).cc = s.cc := by simp [pushFrame]
@[simp] theorem pushFrame_params (s : State) : (pushFrame s).params = s.params := by simp [pushFrame]
@[simp] theorem pushFrame_sp (s : State) : (pushFrame s).sp = s.sp - 5 := by
  simp only [pushFrame, push_sp, copyCc_sp]; bv_omega
@[simp] theorem pushFrame_pins (s : State) : (pushFrame s).env.pins = s.env.pins := by simp [pushFrame]

theorem pushFrame_wf {s : State} (h : s.mem.wf) : (pushFrame s).mem.wf := by
  unfold pushFrame
  refine push_wf _ ?_
  rw [copyCc_mem]
  exact push_wf _ (push_wf _ (push_wf _ (push_wf _ h)))

/-- A frame leaves every cell but the five below SP alone (`60_exceptions.md` R336). -/
theorem pushFrame_cell_other (s : State) {b : Byte} (h1 : b ≠ s.sp - 1) (h2 : b ≠ s.sp - 2) (h3 : b ≠ s.sp - 3)
    (h4 : b ≠ s.sp - 4) (h5 : b ≠ s.sp - 5) : (pushFrame s).cell b = s.cell b := by
  have e2 : s.sp - 1 - 1 = s.sp - 2 := by bv_omega
  have e3 : s.sp - 1 - 1 - 1 = s.sp - 3 := by bv_omega
  have e4 : s.sp - 1 - 1 - 1 - 1 = s.sp - 4 := by bv_omega
  have e5 : s.sp - 1 - 1 - 1 - 1 - 1 = s.sp - 5 := by bv_omega
  unfold pushFrame
  rw [push_cell_other _ _ (by simp only [copyCc_sp, push_sp, e5]; exact h5), State.cell_congr (copyCc_mem _),
    push_cell_other _ _ (by simp only [push_sp, e4]; exact h4),
    push_cell_other _ _ (by simp only [push_sp, e3]; exact h3),
    push_cell_other _ _ (by simp only [push_sp, e2]; exact h2), push_cell_other _ _ h1]

@[simp] theorem enterException_a (vec : Byte) (setI : Bool) (s : State) : (enterException vec setI s).a = s.a := by unfold enterException; split <;> simp
@[simp] theorem enterException_x (vec : Byte) (setI : Bool) (s : State) : (enterException vec setI s).x = s.x := by unfold enterException; split <;> simp
@[simp] theorem enterException_y (vec : Byte) (setI : Bool) (s : State) : (enterException vec setI s).y = s.y := by unfold enterException; split <;> simp
@[simp] theorem enterException_params (vec : Byte) (setI : Bool) (s : State) : (enterException vec setI s).params = s.params := by unfold enterException; split <;> simp
@[simp] theorem enterException_sp (vec : Byte) (setI : Bool) (s : State) :
    (enterException vec setI s).sp = s.sp - 5 := by unfold enterException; split <;> simp
@[simp] theorem enterException_cc (vec : Byte) (setI : Bool) (s : State) :
    (enterException vec setI s).cc = { s.cc with i := setI || s.cc.i } := by
  unfold enterException; cases setI <;> simp
@[simp] theorem enterException_mem (vec : Byte) (setI : Bool) (s : State) :
    (enterException vec setI s).mem = (pushFrame s).mem := by unfold enterException; split <;> simp
@[simp] theorem enterException_out (vec : Byte) (setI : Bool) (s : State) :
    (enterException vec setI s).out = (pushFrame s).out := by unfold enterException; split <;> simp
@[simp] theorem enterException_pins (vec : Byte) (setI : Bool) (s : State) :
    (enterException vec setI s).env.pins = s.env.pins := by unfold enterException; split <;> simp

/-- Where an entry continues, for a vector that is no port: at the address its cell holds after the frame is
written (`60_exceptions.md` R338). -/
theorem enterException_pc {vec : Byte} (hv : portOf vec = none) (setI : Bool) (s : State) :
    (enterException vec setI s).pc = (pushFrame s).cell vec := by
  unfold enterException
  cases setI <;> simp only [loadVector_pc, memRead_cell hv, if_true, if_false, Bool.false_eq_true, State.cell, State.maskIrq_mem]

theorem enterException_wf (vec : Byte) (setI : Bool) {s : State} (h : s.mem.wf) : (enterException vec setI s).mem.wf := by
  rw [enterException_mem]; exact pushFrame_wf h


/-! The three events. -/

theorem takeTrap_eq (s : State) : takeTrap s = enterException trapVector s.params.trapSetsI s := rfl
theorem takeIrq_eq (s : State) : takeIrq s = enterException irqVector true s := rfl

@[simp] theorem takeTrap_a (s : State) : (takeTrap s).a = s.a := enterException_a _ _ _
@[simp] theorem takeTrap_x (s : State) : (takeTrap s).x = s.x := enterException_x _ _ _
@[simp] theorem takeTrap_y (s : State) : (takeTrap s).y = s.y := enterException_y _ _ _
@[simp] theorem takeTrap_sp (s : State) : (takeTrap s).sp = s.sp - 5 := enterException_sp _ _ _
@[simp] theorem takeTrap_params (s : State) : (takeTrap s).params = s.params := enterException_params _ _ _
@[simp] theorem takeTrap_mem (s : State) : (takeTrap s).mem = (pushFrame s).mem := enterException_mem _ _ _
@[simp] theorem takeTrap_out (s : State) : (takeTrap s).out = (pushFrame s).out := enterException_out _ _ _
@[simp] theorem takeTrap_cc (s : State) : (takeTrap s).cc = { s.cc with i := s.params.trapSetsI || s.cc.i } := enterException_cc _ _ _
@[simp] theorem takeTrap_pins (s : State) : (takeTrap s).env.pins = s.env.pins := enterException_pins _ _ _
@[simp] theorem takeIrq_a (s : State) : (takeIrq s).a = s.a := enterException_a _ _ _
@[simp] theorem takeIrq_x (s : State) : (takeIrq s).x = s.x := enterException_x _ _ _
@[simp] theorem takeIrq_y (s : State) : (takeIrq s).y = s.y := enterException_y _ _ _
@[simp] theorem takeIrq_sp (s : State) : (takeIrq s).sp = s.sp - 5 := enterException_sp _ _ _
@[simp] theorem takeIrq_params (s : State) : (takeIrq s).params = s.params := enterException_params _ _ _
@[simp] theorem takeIrq_mem (s : State) : (takeIrq s).mem = (pushFrame s).mem := enterException_mem _ _ _
@[simp] theorem takeIrq_out (s : State) : (takeIrq s).out = (pushFrame s).out := enterException_out _ _ _
@[simp] theorem takeIrq_cc (s : State) : (takeIrq s).cc = { s.cc with i := true || s.cc.i } := enterException_cc _ _ _
@[simp] theorem takeIrq_pins (s : State) : (takeIrq s).env.pins = s.env.pins := enterException_pins _ _ _
@[simp] theorem takeReset_a (s : State) : (takeReset s).a = s.a := by simp [takeReset]
@[simp] theorem takeReset_x (s : State) : (takeReset s).x = s.x := by simp [takeReset]
@[simp] theorem takeReset_y (s : State) : (takeReset s).y = s.y := by simp [takeReset]
@[simp] theorem takeReset_sp (s : State) : (takeReset s).sp = s.sp := by simp [takeReset]
@[simp] theorem takeReset_mem (s : State) : (takeReset s).mem = s.mem := by simp [takeReset]
@[simp] theorem takeReset_out (s : State) : (takeReset s).out = s.out := by simp [takeReset]
@[simp] theorem takeReset_params (s : State) : (takeReset s).params = s.params := by simp [takeReset]
@[simp] theorem takeReset_cc (s : State) : (takeReset s).cc = { s.cc with i := true } := by simp [takeReset]

/-- All that a reset does: the vector cell is no port. -/
theorem takeReset_spec (s : State) : takeReset s = { s with cc := { s.cc with i := true }, pc := s.cell resetVector } := by
  have h : memRead s.maskIrq resetVector = (s.maskIrq.cell resetVector, s.maskIrq) := memRead_cell rfl
  unfold takeReset loadVector
  rw [h]
  rfl

/-- The registers and the rest after RTI, over the five reads (`42_flow_control.md` R190). -/
theorem returnFromException_frame (s : State) :
    (returnFromException s).sp = s.sp + 5 ∧ (returnFromException s).mem = s.mem ∧
      (returnFromException s).out = s.out ∧ (returnFromException s).params = s.params := by
  refine ⟨?_, ?_, ?_, ?_⟩ <;> simp only [returnFromException, State.setPc_sp, State.setPc_mem, State.setPc_out,
    State.setPc_params, pull_sp, pull_mem, pull_out, pull_params, State.setY_sp, State.setY_mem, State.setY_out,
    State.setY_params, State.setX_sp, State.setX_mem, State.setX_out, State.setX_params, State.setA_sp,
    State.setA_mem, State.setA_out, State.setA_params, State.setCc_sp, State.setCc_mem, State.setCc_out,
    State.setCc_params]
  bv_omega

/-- RTI from a frame that lies in no port: the five bytes on top of the stack. -/
theorem returnFromException_cells {s : State} (h0 : portOf s.sp = none) (h1 : portOf (s.sp + 1) = none)
    (h2 : portOf (s.sp + 2) = none) (h3 : portOf (s.sp + 3) = none) (h4 : portOf (s.sp + 4) = none) :
    returnFromException s = { s with
      cc := ccOfByte (s.cell s.sp), a := s.cell (s.sp + 1), x := s.cell (s.sp + 2), y := s.cell (s.sp + 3),
      pc := s.cell (s.sp + 4), sp := s.sp + 5 } := by
  have e2 : s.sp + 1 + 1 = s.sp + 2 := by bv_omega
  have e3 : s.sp + 2 + 1 = s.sp + 3 := by bv_omega
  have e4 : s.sp + 3 + 1 = s.sp + 4 := by bv_omega
  have e5 : s.sp + 4 + 1 = s.sp + 5 := by bv_omega
  obtain ⟨a, x, y, sp, pc, cc, mem, out, params, env⟩ := s
  simp only at h0 h1 h2 h3 h4 e2 e3 e4 e5
  simp only [returnFromException, pull, memRead, h0, h1, h2, h3, h4, e2, e3, e4, e5, State.setSp, State.setCc,
    State.setA, State.setX, State.setY, State.setPc, State.cell]

end Sys2Proof.Machine
end

