-- ==== Sys2Proof/Laws/Operands.lean ====
section
/-! SUPPORT. What an operand access can do, said once for each kind of operand. -/

namespace Sys2Proof.Machine

/-! The register step of an auto-modify mode. -/

@[simp] theorem State.setIndex_a (s : State) (r : IndexReg) (v : Byte) : (s.setIndex r v).a = s.a := by cases r <;> rfl
@[simp] theorem State.setIndex_sp (s : State) (r : IndexReg) (v : Byte) : (s.setIndex r v).sp = s.sp := by cases r <;> rfl
@[simp] theorem State.setIndex_pc (s : State) (r : IndexReg) (v : Byte) : (s.setIndex r v).pc = s.pc := by cases r <;> rfl
@[simp] theorem State.setIndex_cc (s : State) (r : IndexReg) (v : Byte) : (s.setIndex r v).cc = s.cc := by cases r <;> rfl
@[simp] theorem State.setIndex_mem (s : State) (r : IndexReg) (v : Byte) : (s.setIndex r v).mem = s.mem := by cases r <;> rfl
@[simp] theorem State.setIndex_out (s : State) (r : IndexReg) (v : Byte) : (s.setIndex r v).out = s.out := by cases r <;> rfl
@[simp] theorem State.setIndex_params (s : State) (r : IndexReg) (v : Byte) : (s.setIndex r v).params = s.params := by cases r <;> rfl
@[simp] theorem State.setIndex_env (s : State) (r : IndexReg) (v : Byte) : (s.setIndex r v).env = s.env := by cases r <;> rfl

@[simp] theorem stepRegister_a (m : MemOperand) (s : State) : (stepRegister m s).a = s.a := by unfold stepRegister; split <;> simp
@[simp] theorem stepRegister_sp (m : MemOperand) (s : State) : (stepRegister m s).sp = s.sp := by unfold stepRegister; split <;> simp
@[simp] theorem stepRegister_pc (m : MemOperand) (s : State) : (stepRegister m s).pc = s.pc := by unfold stepRegister; split <;> simp
@[simp] theorem stepRegister_cc (m : MemOperand) (s : State) : (stepRegister m s).cc = s.cc := by unfold stepRegister; split <;> simp
@[simp] theorem stepRegister_mem (m : MemOperand) (s : State) : (stepRegister m s).mem = s.mem := by unfold stepRegister; split <;> simp
@[simp] theorem stepRegister_out (m : MemOperand) (s : State) : (stepRegister m s).out = s.out := by unfold stepRegister; split <;> simp
@[simp] theorem stepRegister_params (m : MemOperand) (s : State) : (stepRegister m s).params = s.params := by unfold stepRegister; split <;> simp
@[simp] theorem stepRegister_env (m : MemOperand) (s : State) : (stepRegister m s).env = s.env := by unfold stepRegister; split <;> simp

@[simp] theorem stepRegister_cell_operand (c : Cell) (s : State) : stepRegister (.cell c) s = s := rfl

/-- X after the register step (`30_encoding.md` R102 to R105). -/
theorem stepRegister_x (m : MemOperand) (s : State) :
    (stepRegister m s).x = match m with
      | .auto .x k => steppedValue k s.x
      | _ => s.x := by
  rcases m with c | ⟨r, k⟩
  · rfl
  · cases r <;> rfl

/-- Y after the register step (`30_encoding.md` R102 to R105). -/
theorem stepRegister_y (m : MemOperand) (s : State) :
    (stepRegister m s).y = match m with
      | .auto .y k => steppedValue k s.y
      | _ => s.y := by
  rcases m with c | ⟨r, k⟩
  · rfl
  · cases r <;> rfl

@[simp] theorem stepRegister_read_cell (m : MemOperand) (s : State) (b : Byte) : (stepRegister m s).cell b = s.cell b :=
  State.cell_congr (by simp) b

/-! Operand reads. -/

@[simp] theorem readSource_of_im (d : Byte) (s : State) : readSource (.im d) s = (d, s) := rfl
@[simp] theorem readSource_of_cell (c : Cell) (s : State) : readSource (.cell c) s = memRead s (ea c s) := rfl

@[simp] theorem readSource_a (o : Source) (s : State) : (readSource o s).2.a = s.a := by cases o <;> simp [readSource]
@[simp] theorem readSource_x (o : Source) (s : State) : (readSource o s).2.x = s.x := by cases o <;> simp [readSource]
@[simp] theorem readSource_y (o : Source) (s : State) : (readSource o s).2.y = s.y := by cases o <;> simp [readSource]
@[simp] theorem readSource_sp (o : Source) (s : State) : (readSource o s).2.sp = s.sp := by cases o <;> simp [readSource]
@[simp] theorem readSource_pc (o : Source) (s : State) : (readSource o s).2.pc = s.pc := by cases o <;> simp [readSource]
@[simp] theorem readSource_cc (o : Source) (s : State) : (readSource o s).2.cc = s.cc := by cases o <;> simp [readSource]
@[simp] theorem readSource_mem (o : Source) (s : State) : (readSource o s).2.mem = s.mem := by cases o <;> simp [readSource]
@[simp] theorem readSource_out (o : Source) (s : State) : (readSource o s).2.out = s.out := by cases o <;> simp [readSource]
@[simp] theorem readSource_params (o : Source) (s : State) : (readSource o s).2.params = s.params := by cases o <;> simp [readSource]
@[simp] theorem readSource_pins (o : Source) (s : State) : (readSource o s).2.env.pins = s.env.pins := by
  cases o <;> simp [readSource]

/-- A source operand changes the environment's scripts at most. -/
theorem readSource_frame (o : Source) (s : State) : (readSource o s).2 = { s with env := (readSource o s).2.env } := by
  apply State.ext_fields <;> simp

@[simp] theorem readLoad_of_im (d : Byte) (s : State) : readLoad (.im d) s = (d, s) := rfl
@[simp] theorem readLoad_of_mem (m : MemOperand) (s : State) :
    readLoad (.mem m) s = memRead (stepRegister m s) (memAddress m s) := rfl

@[simp] theorem readLoad_a (o : LoadOperand) (s : State) : (readLoad o s).2.a = s.a := by cases o <;> simp [readLoad]
@[simp] theorem readLoad_sp (o : LoadOperand) (s : State) : (readLoad o s).2.sp = s.sp := by cases o <;> simp [readLoad]
@[simp] theorem readLoad_pc (o : LoadOperand) (s : State) : (readLoad o s).2.pc = s.pc := by cases o <;> simp [readLoad]
@[simp] theorem readLoad_cc (o : LoadOperand) (s : State) : (readLoad o s).2.cc = s.cc := by cases o <;> simp [readLoad]
@[simp] theorem readLoad_mem (o : LoadOperand) (s : State) : (readLoad o s).2.mem = s.mem := by cases o <;> simp [readLoad]
@[simp] theorem readLoad_out (o : LoadOperand) (s : State) : (readLoad o s).2.out = s.out := by cases o <;> simp [readLoad]
@[simp] theorem readLoad_params (o : LoadOperand) (s : State) : (readLoad o s).2.params = s.params := by cases o <;> simp [readLoad]
@[simp] theorem readLoad_pins (o : LoadOperand) (s : State) : (readLoad o s).2.env.pins = s.env.pins := by
  cases o <;> simp [readLoad]

/-- The value an operand of LDA reads is the one its address held before the register step. -/
theorem readLoad_of_mem_value (m : MemOperand) (s : State) :
    (readLoad (.mem m) s).1 = (memRead s (memAddress m s)).1 :=
  (memRead_congr (by simp) (by simp) _).1

theorem readLoad_of_mem_env (m : MemOperand) (s : State) :
    (readLoad (.mem m) s).2.env = (memRead s (memAddress m s)).2.env :=
  (memRead_congr (by simp) (by simp) _).2

/-! The store of STA. -/

@[simp] theorem storeTo_a (m : MemOperand) (v : Byte) (s : State) : (storeTo m v s).a = s.a := by simp [storeTo]
@[simp] theorem storeTo_sp (m : MemOperand) (v : Byte) (s : State) : (storeTo m v s).sp = s.sp := by simp [storeTo]
@[simp] theorem storeTo_pc (m : MemOperand) (v : Byte) (s : State) : (storeTo m v s).pc = s.pc := by simp [storeTo]
@[simp] theorem storeTo_cc (m : MemOperand) (v : Byte) (s : State) : (storeTo m v s).cc = s.cc := by simp [storeTo]
@[simp] theorem storeTo_params (m : MemOperand) (v : Byte) (s : State) : (storeTo m v s).params = s.params := by simp [storeTo]
@[simp] theorem storeTo_env (m : MemOperand) (v : Byte) (s : State) : (storeTo m v s).env = s.env := by simp [storeTo]

theorem storeTo_cell_other (m : MemOperand) (v : Byte) (s : State) {b : Byte} (h : b ≠ memAddress m s) :
    (storeTo m v s).cell b = s.cell b := by
  unfold storeTo
  rw [memWrite_cell_other _ v h, stepRegister_read_cell]

theorem storeTo_wf (m : MemOperand) (v : Byte) {s : State} (h : s.mem.wf) : (storeTo m v s).mem.wf :=
  memWrite_wf _ v (by simpa using h)

end Sys2Proof.Machine
end

