-- ==== Sys2Proof/Laws/Flags.lean ====
section
/-! SUPPORT. The ALU helpers on integers, the flag columns, and what each shape of instruction can do. -/

namespace Sys2Proof.Machine

/-! Bits and numbers. -/

theorem bit7_iff (u : Byte) : u.getLsbD 7 = decide (128 ≤ u.toNat) := by
  revert u; decide

theorem toInt_eq (u : Byte) : u.toInt = if u.toNat < 128 then (u.toNat : Int) else (u.toNat : Int) - 256 := by
  revert u; decide

theorem beq_zero_iff (u : Byte) : (u == 0) = true ↔ u.toNat = 0 := by
  revert u; decide

@[simp] theorem aluOut_u (u : Byte) (v c : Bool) : (aluOut u v c).u = u := rfl
@[simp] theorem aluOut_v (u : Byte) (v c : Bool) : (aluOut u v c).v = v := rfl
@[simp] theorem aluOut_c (u : Byte) (v c : Bool) : (aluOut u v c).c = c := rfl

/-- N of every ALU output is the sign of its result (`49_alu_functions.md` R290). -/
@[simp] theorem aluOut_n (u : Byte) (v c : Bool) : (aluOut u v c).n = true ↔ 128 ≤ u.toNat := by
  show u.getLsbD 7 = true ↔ 128 ≤ u.toNat
  rw [bit7_iff, decide_eq_true_iff]

/-- Z of every ALU output says that its result is zero (`49_alu_functions.md` R307). -/
@[simp] theorem aluOut_z (u : Byte) (v c : Bool) : (aluOut u v c).z = true ↔ u.toNat = 0 := beq_zero_iff u

/-! The helpers on integers (`49_alu_functions.md` R315). -/

theorem add8_u (d e : Byte) (cin : Bool) : (add8 d e cin).u.toNat = (d.toNat + e.toNat + cin.toNat) % 256 := by
  simp [add8]

theorem add8_n (d e : Byte) (cin : Bool) : (add8 d e cin).n = true ↔ 128 ≤ (add8 d e cin).u.toNat := aluOut_n _ _ _
theorem add8_z (d e : Byte) (cin : Bool) : (add8 d e cin).z = true ↔ (add8 d e cin).u.toNat = 0 := aluOut_z _ _ _

/-- C of an addition: the sum does not fit in eight bits. -/
theorem add8_c (d e : Byte) (cin : Bool) : (add8 d e cin).c = true ↔ 256 ≤ d.toNat + e.toNat + cin.toNat := by
  simp [add8]

/-- V of an addition: the sum of the signed operands does not fit in eight bits. -/
theorem add8_v (d e : Byte) (cin : Bool) :
    (add8 d e cin).v = true ↔
      (d.toInt + e.toInt + cin.toNat < -128 ∨ 127 < d.toInt + e.toInt + cin.toNat) := by
  have hd := d.isLt
  have he := e.isLt
  simp only [add8, aluOut_v, addOverflow, bit7_iff, toInt_eq, BitVec.toNat_ofNat]
  cases cin <;> simp only [Bool.toNat_false, Bool.toNat_true] <;>
    by_cases h1 : d.toNat < 128 <;> by_cases h2 : e.toNat < 128 <;> simp [h1, h2] <;> omega

theorem sub8_u (d e : Byte) (bin : Bool) :
    (sub8 d e bin).u.toNat = (d.toNat + 256 - e.toNat - bin.toNat + 256) % 256 := by
  have he := e.isLt
  cases bin <;> simp [sub8] <;> omega

theorem sub8_n (d e : Byte) (bin : Bool) : (sub8 d e bin).n = true ↔ 128 ≤ (sub8 d e bin).u.toNat := aluOut_n _ _ _
theorem sub8_z (d e : Byte) (bin : Bool) : (sub8 d e bin).z = true ↔ (sub8 d e bin).u.toNat = 0 := aluOut_z _ _ _

/-- C of a subtraction: the borrow. -/
theorem sub8_c (d e : Byte) (bin : Bool) : (sub8 d e bin).c = true ↔ d.toNat < e.toNat + bin.toNat := by
  have he := e.isLt
  cases bin <;> simp [sub8] <;> omega

/-- V of a subtraction: the signed difference does not fit in eight bits. -/
theorem sub8_v (d e : Byte) (bin : Bool) :
    (sub8 d e bin).v = true ↔
      (d.toInt - e.toInt - bin.toNat < -128 ∨ 127 < d.toInt - e.toInt - bin.toNat) := by
  have hd := d.isLt
  have he := e.isLt
  simp only [sub8, aluOut_v, addOverflow, bit7_iff, toInt_eq, BitVec.toNat_ofNat]
  cases bin <;> simp only [Bool.toNat_false, Bool.toNat_true] <;>
    by_cases h1 : d.toNat < 128 <;> by_cases h2 : e.toNat < 128 <;> simp [h1, h2] <;> omega

/-! The helpers and the function table (`49_alu_functions.md` R300 to R306, R315). -/

theorem add8_eq_alu (d e : Byte) (cin : Bool) : add8 d e cin = alu .f1011 d e cin := by
  simp [add8, alu, aluAdder]

theorem sub8_eq_alu (d e : Byte) (bin : Bool) : sub8 d e bin = alu .f1100 d e (!bin) := by
  have hn : (~~~e).toNat = 255 - e.toNat := by simp [BitVec.toNat_not]
  have hb : (!bin).toNat = 1 - bin.toNat := by cases bin <;> rfl
  have h7 : (~~~e).getLsbD 7 = !e.getLsbD 7 := by simp
  simp only [sub8, alu, aluAdder, hn, hb, h7, Bool.xor_true]

theorem inc8_eq_alu (d : Byte) : inc8 d = alu .f1001 d 0 true := by revert d; decide
theorem dec8_eq_alu (d : Byte) : dec8 d = alu .f1010 d 0 false := by revert d; decide
theorem neg8_eq_alu (d : Byte) : neg8 d = alu .f0101 d 0 true := by revert d; decide
theorem shl8_eq_alu (d : Byte) (cin : Bool) : shl8 d cin = alu .f1101 d 0 cin := by revert d cin; decide
theorem shr8_eq_alu (d : Byte) (in7 : Bool) : shr8 d in7 = alu .f1110 d 0 in7 := by revert d in7; decide
theorem shr8_sign_eq_alu (d : Byte) : shr8 d (d.getLsbD 7) = alu .f1111 d 0 false := by revert d; decide

/-! Flag columns. -/

@[simp] theorem FlagRule.apply_keep (output old : Bool) : FlagRule.apply .keep output old = old := rfl
@[simp] theorem FlagRule.apply_clear (output old : Bool) : FlagRule.apply .clear output old = false := rfl
@[simp] theorem FlagRule.apply_set (output old : Bool) : FlagRule.apply .set output old = true := rfl
@[simp] theorem FlagRule.apply_delta (output old : Bool) : FlagRule.apply .delta output old = output := rfl

@[simp] theorem FlagRow.apply_i (r : FlagRow) (o : AluOut) (cc : CC) : (r.apply o cc).i = cc.i := rfl
@[simp] theorem FlagRow.apply_n (r : FlagRow) (o : AluOut) (cc : CC) : (r.apply o cc).n = r.n.apply o.n cc.n := rfl
@[simp] theorem FlagRow.apply_z (r : FlagRow) (o : AluOut) (cc : CC) : (r.apply o cc).z = r.z.apply o.z cc.z := rfl
@[simp] theorem FlagRow.apply_v (r : FlagRow) (o : AluOut) (cc : CC) : (r.apply o cc).v = r.v.apply o.v cc.v := rfl
@[simp] theorem FlagRow.apply_c (r : FlagRow) (o : AluOut) (cc : CC) : (r.apply o cc).c = r.c.apply o.c cc.c := rfl

@[simp] theorem State.setFlags_cc (s : State) (r : FlagRow) (o : AluOut) : (s.setFlags r o).cc = r.apply o s.cc := rfl
@[simp] theorem State.setFlags_a (s : State) (r : FlagRow) (o : AluOut) : (s.setFlags r o).a = s.a := rfl
@[simp] theorem State.setFlags_x (s : State) (r : FlagRow) (o : AluOut) : (s.setFlags r o).x = s.x := rfl
@[simp] theorem State.setFlags_y (s : State) (r : FlagRow) (o : AluOut) : (s.setFlags r o).y = s.y := rfl
@[simp] theorem State.setFlags_sp (s : State) (r : FlagRow) (o : AluOut) : (s.setFlags r o).sp = s.sp := rfl
@[simp] theorem State.setFlags_pc (s : State) (r : FlagRow) (o : AluOut) : (s.setFlags r o).pc = s.pc := rfl
@[simp] theorem State.setFlags_mem (s : State) (r : FlagRow) (o : AluOut) : (s.setFlags r o).mem = s.mem := rfl
@[simp] theorem State.setFlags_out (s : State) (r : FlagRow) (o : AluOut) : (s.setFlags r o).out = s.out := rfl
@[simp] theorem State.setFlags_params (s : State) (r : FlagRow) (o : AluOut) : (s.setFlags r o).params = s.params := rfl
@[simp] theorem State.setFlags_env (s : State) (r : FlagRow) (o : AluOut) : (s.setFlags r o).env = s.env := rfl

/-! Shapes of instruction. -/

@[simp] theorem writeA_a (row : FlagRow) (o : AluOut) (s : State) : (writeA row o s).a = o.u := rfl
@[simp] theorem writeA_cc (row : FlagRow) (o : AluOut) (s : State) : (writeA row o s).cc = row.apply o s.cc := rfl
@[simp] theorem writeA_x (row : FlagRow) (o : AluOut) (s : State) : (writeA row o s).x = s.x := rfl
@[simp] theorem writeA_y (row : FlagRow) (o : AluOut) (s : State) : (writeA row o s).y = s.y := rfl
@[simp] theorem writeA_sp (row : FlagRow) (o : AluOut) (s : State) : (writeA row o s).sp = s.sp := rfl
@[simp] theorem writeA_pc (row : FlagRow) (o : AluOut) (s : State) : (writeA row o s).pc = s.pc := rfl
@[simp] theorem writeA_mem (row : FlagRow) (o : AluOut) (s : State) : (writeA row o s).mem = s.mem := rfl
@[simp] theorem writeA_out (row : FlagRow) (o : AluOut) (s : State) : (writeA row o s).out = s.out := rfl
@[simp] theorem writeA_params (row : FlagRow) (o : AluOut) (s : State) : (writeA row o s).params = s.params := rfl
@[simp] theorem writeA_env (row : FlagRow) (o : AluOut) (s : State) : (writeA row o s).env = s.env := rfl

/-- All that an instruction of shape `accumulate` does: A, the flags of its columns, the reads of its operand. -/
theorem accumulate_spec (row : FlagRow) (f : Byte → AluOut) (o : Source) (s : State) :
    accumulate row f o s = { s with
      a := (f (readSource o s).1).u, cc := row.apply (f (readSource o s).1) s.cc, env := (readSource o s).2.env } := by
  apply State.ext_fields <;> simp [accumulate]

/-- All that an instruction of shape `testSource` does: the flags of its columns, the reads of its operand. -/
theorem testSource_spec (row : FlagRow) (f : Byte → AluOut) (o : Source) (s : State) :
    testSource row f o s = { s with
      cc := row.apply (f (readSource o s).1) s.cc, env := (readSource o s).2.env } := by
  apply State.ext_fields <;> simp [testSource]

/-- All that a read-modify-write does beside its store: the flags of its columns, the read of its cell
(`20_memory.md` R70). -/
theorem modifyCell_frame (row : FlagRow) (f : Byte → AluOut) (c : Cell) (s : State) :
    modifyCell row f c s = { s with
      cc := row.apply (f (memRead s (ea c s)).1) s.cc, env := (memRead s (ea c s)).2.env,
      mem := (modifyCell row f c s).mem, out := (modifyCell row f c s).out } := by
  apply State.ext_fields <;> simp [modifyCell]

/-- The memory and outputs of a read-modify-write are those of its one store. -/
theorem modifyCell_store (row : FlagRow) (f : Byte → AluOut) (c : Cell) (s : State) :
    (modifyCell row f c s).mem = (memWrite s (ea c s) (f (memRead s (ea c s)).1).u).mem ∧
      (modifyCell row f c s).out = (memWrite s (ea c s) (f (memRead s (ea c s)).1).u).out := by
  simp only [modifyCell, State.setFlags_mem, State.setFlags_out]
  cases h : portOf (ea c s) with
  | some p => simp [memWrite_port h]
  | none => simp [memRead_cell h]

theorem modifyCell_wf (row : FlagRow) (f : Byte → AluOut) (c : Cell) {s : State} (h : s.mem.wf) :
    (modifyCell row f c s).mem.wf := by
  rw [(modifyCell_store row f c s).1]; exact memWrite_wf _ _ h

@[simp] theorem branchIf_a (cond : Bool) (off : Byte) (s : State) : (branchIf cond off s).a = s.a := by unfold branchIf; split <;> rfl
@[simp] theorem branchIf_x (cond : Bool) (off : Byte) (s : State) : (branchIf cond off s).x = s.x := by unfold branchIf; split <;> rfl
@[simp] theorem branchIf_y (cond : Bool) (off : Byte) (s : State) : (branchIf cond off s).y = s.y := by unfold branchIf; split <;> rfl
@[simp] theorem branchIf_sp (cond : Bool) (off : Byte) (s : State) : (branchIf cond off s).sp = s.sp := by unfold branchIf; split <;> rfl
@[simp] theorem branchIf_cc (cond : Bool) (off : Byte) (s : State) : (branchIf cond off s).cc = s.cc := by unfold branchIf; split <;> rfl
@[simp] theorem branchIf_mem (cond : Bool) (off : Byte) (s : State) : (branchIf cond off s).mem = s.mem := by unfold branchIf; split <;> rfl
@[simp] theorem branchIf_out (cond : Bool) (off : Byte) (s : State) : (branchIf cond off s).out = s.out := by unfold branchIf; split <;> rfl
@[simp] theorem branchIf_params (cond : Bool) (off : Byte) (s : State) : (branchIf cond off s).params = s.params := by unfold branchIf; split <;> rfl
@[simp] theorem branchIf_env (cond : Bool) (off : Byte) (s : State) : (branchIf cond off s).env = s.env := by unfold branchIf; split <;> rfl

/-- All that a branch does (`42_flow_control.md` R174). -/
theorem branchIf_spec (cond : Bool) (off : Byte) (s : State) :
    branchIf cond off s = { s with pc := if cond then s.pc + off else s.pc } := by
  unfold branchIf; split <;> rfl

end Sys2Proof.Machine
end

