-- ==== Sys2Proof/Laws/PerInstr.lean ====
section
/-! SUPPORT. Per instruction: the encoder has bytes for exactly the well-formed operand forms. -/

namespace Sys2Proof.Laws

open Sys2Proof

/-- The instruction has bytes if and only if its operand form has an opcode (`30_encoding.md` R107). -/
def EncodesIffWellFormed.Statement (i : Instr) : Prop := (encode i).isSome = i.wf

theorem EncodesIffWellFormed.nop : EncodesIffWellFormed.Statement .nop := rfl
theorem EncodesIffWellFormed.andcc (d : Byte) : EncodesIffWellFormed.Statement (.andcc d) := rfl
theorem EncodesIffWellFormed.orcc (d : Byte) : EncodesIffWellFormed.Statement (.orcc d) := rfl
theorem EncodesIffWellFormed.illegal03 : EncodesIffWellFormed.Statement .illegal03 := rfl
theorem EncodesIffWellFormed.illegal04 : EncodesIffWellFormed.Statement .illegal04 := rfl
theorem EncodesIffWellFormed.clra : EncodesIffWellFormed.Statement .clra := rfl
theorem EncodesIffWellFormed.nega : EncodesIffWellFormed.Statement .nega := rfl
theorem EncodesIffWellFormed.inca : EncodesIffWellFormed.Statement .inca := rfl
theorem EncodesIffWellFormed.deca : EncodesIffWellFormed.Statement .deca := rfl
theorem EncodesIffWellFormed.tsta : EncodesIffWellFormed.Statement .tsta := rfl
theorem EncodesIffWellFormed.coma : EncodesIffWellFormed.Statement .coma := rfl
theorem EncodesIffWellFormed.lsla : EncodesIffWellFormed.Statement .lsla := rfl
theorem EncodesIffWellFormed.lsra : EncodesIffWellFormed.Statement .lsra := rfl
theorem EncodesIffWellFormed.rola : EncodesIffWellFormed.Statement .rola := rfl
theorem EncodesIffWellFormed.rora : EncodesIffWellFormed.Statement .rora := rfl
theorem EncodesIffWellFormed.asra : EncodesIffWellFormed.Statement .asra := rfl
theorem EncodesIffWellFormed.psha : EncodesIffWellFormed.Statement .psha := rfl
theorem EncodesIffWellFormed.pshx : EncodesIffWellFormed.Statement .pshx := rfl
theorem EncodesIffWellFormed.pshy : EncodesIffWellFormed.Statement .pshy := rfl
theorem EncodesIffWellFormed.pshc : EncodesIffWellFormed.Statement .pshc := rfl
theorem EncodesIffWellFormed.pula : EncodesIffWellFormed.Statement .pula := rfl
theorem EncodesIffWellFormed.pulx : EncodesIffWellFormed.Statement .pulx := rfl
theorem EncodesIffWellFormed.puly : EncodesIffWellFormed.Statement .puly := rfl
theorem EncodesIffWellFormed.pulc : EncodesIffWellFormed.Statement .pulc := rfl
theorem EncodesIffWellFormed.tfrACc : EncodesIffWellFormed.Statement .tfrACc := rfl
theorem EncodesIffWellFormed.tfrCcA : EncodesIffWellFormed.Statement .tfrCcA := rfl
theorem EncodesIffWellFormed.tfrXY : EncodesIffWellFormed.Statement .tfrXY := rfl
theorem EncodesIffWellFormed.tfrYX : EncodesIffWellFormed.Statement .tfrYX := rfl
theorem EncodesIffWellFormed.tfrXSp : EncodesIffWellFormed.Statement .tfrXSp := rfl
theorem EncodesIffWellFormed.tfrSpX : EncodesIffWellFormed.Statement .tfrSpX := rfl
theorem EncodesIffWellFormed.tfrYSp : EncodesIffWellFormed.Statement .tfrYSp := rfl
theorem EncodesIffWellFormed.tfrSpY : EncodesIffWellFormed.Statement .tfrSpY := rfl
theorem EncodesIffWellFormed.bsr (off : Byte) : EncodesIffWellFormed.Statement (.bsr off) := rfl
theorem EncodesIffWellFormed.bra (off : Byte) : EncodesIffWellFormed.Statement (.bra off) := rfl
theorem EncodesIffWellFormed.bmi (off : Byte) : EncodesIffWellFormed.Statement (.bmi off) := rfl
theorem EncodesIffWellFormed.bpl (off : Byte) : EncodesIffWellFormed.Statement (.bpl off) := rfl
theorem EncodesIffWellFormed.beq (off : Byte) : EncodesIffWellFormed.Statement (.beq off) := rfl
theorem EncodesIffWellFormed.bne (off : Byte) : EncodesIffWellFormed.Statement (.bne off) := rfl
theorem EncodesIffWellFormed.bvs (off : Byte) : EncodesIffWellFormed.Statement (.bvs off) := rfl
theorem EncodesIffWellFormed.bvc (off : Byte) : EncodesIffWellFormed.Statement (.bvc off) := rfl
theorem EncodesIffWellFormed.bcs (off : Byte) : EncodesIffWellFormed.Statement (.bcs off) := rfl
theorem EncodesIffWellFormed.bcc (off : Byte) : EncodesIffWellFormed.Statement (.bcc off) := rfl
theorem EncodesIffWellFormed.bhi (off : Byte) : EncodesIffWellFormed.Statement (.bhi off) := rfl
theorem EncodesIffWellFormed.bls (off : Byte) : EncodesIffWellFormed.Statement (.bls off) := rfl
theorem EncodesIffWellFormed.bgt (off : Byte) : EncodesIffWellFormed.Statement (.bgt off) := rfl
theorem EncodesIffWellFormed.bge (off : Byte) : EncodesIffWellFormed.Statement (.bge off) := rfl
theorem EncodesIffWellFormed.ble (off : Byte) : EncodesIffWellFormed.Statement (.ble off) := rfl
theorem EncodesIffWellFormed.blt (off : Byte) : EncodesIffWellFormed.Statement (.blt off) := rfl
theorem EncodesIffWellFormed.stx (c : Cell) : EncodesIffWellFormed.Statement (.stx c) := by cases c <;> rfl
theorem EncodesIffWellFormed.sty (c : Cell) : EncodesIffWellFormed.Statement (.sty c) := by cases c <;> rfl
theorem EncodesIffWellFormed.stsp (c : Cell) : EncodesIffWellFormed.Statement (.stsp c) := by cases c <;> rfl
theorem EncodesIffWellFormed.jmp (c : Cell) : EncodesIffWellFormed.Statement (.jmp c) := by cases c <;> rfl
theorem EncodesIffWellFormed.jsr (c : Cell) : EncodesIffWellFormed.Statement (.jsr c) := by cases c <;> rfl
theorem EncodesIffWellFormed.clr (c : Cell) : EncodesIffWellFormed.Statement (.clr c) := by cases c <;> rfl
theorem EncodesIffWellFormed.neg (c : Cell) : EncodesIffWellFormed.Statement (.neg c) := by cases c <;> rfl
theorem EncodesIffWellFormed.inc (c : Cell) : EncodesIffWellFormed.Statement (.inc c) := by cases c <;> rfl
theorem EncodesIffWellFormed.dec (c : Cell) : EncodesIffWellFormed.Statement (.dec c) := by cases c <;> rfl
theorem EncodesIffWellFormed.tst (c : Cell) : EncodesIffWellFormed.Statement (.tst c) := by cases c <;> rfl
theorem EncodesIffWellFormed.com (c : Cell) : EncodesIffWellFormed.Statement (.com c) := by cases c <;> rfl
theorem EncodesIffWellFormed.lsl (c : Cell) : EncodesIffWellFormed.Statement (.lsl c) := by cases c <;> rfl
theorem EncodesIffWellFormed.lsr (c : Cell) : EncodesIffWellFormed.Statement (.lsr c) := by cases c <;> rfl
theorem EncodesIffWellFormed.rol (c : Cell) : EncodesIffWellFormed.Statement (.rol c) := by cases c <;> rfl
theorem EncodesIffWellFormed.ror (c : Cell) : EncodesIffWellFormed.Statement (.ror c) := by cases c <;> rfl
theorem EncodesIffWellFormed.asr (c : Cell) : EncodesIffWellFormed.Statement (.asr c) := by cases c <;> rfl
theorem EncodesIffWellFormed.rts : EncodesIffWellFormed.Statement .rts := rfl
theorem EncodesIffWellFormed.rti : EncodesIffWellFormed.Statement .rti := rfl
theorem EncodesIffWellFormed.ldx (o : Source) : EncodesIffWellFormed.Statement (.ldx o) := by
  rcases o with d | c
  · rfl
  · cases c <;> rfl
theorem EncodesIffWellFormed.ldy (o : Source) : EncodesIffWellFormed.Statement (.ldy o) := by
  rcases o with d | c
  · rfl
  · cases c <;> rfl
theorem EncodesIffWellFormed.ldsp (o : Source) : EncodesIffWellFormed.Statement (.ldsp o) := by
  rcases o with d | c
  · rfl
  · cases c <;> rfl
theorem EncodesIffWellFormed.sbca (o : Source) : EncodesIffWellFormed.Statement (.sbca o) := by
  rcases o with d | c
  · rfl
  · cases c <;> rfl
theorem EncodesIffWellFormed.suba (o : Source) : EncodesIffWellFormed.Statement (.suba o) := by
  rcases o with d | c
  · rfl
  · cases c <;> rfl
theorem EncodesIffWellFormed.adca (o : Source) : EncodesIffWellFormed.Statement (.adca o) := by
  rcases o with d | c
  · rfl
  · cases c <;> rfl
theorem EncodesIffWellFormed.adda (o : Source) : EncodesIffWellFormed.Statement (.adda o) := by
  rcases o with d | c
  · rfl
  · cases c <;> rfl
theorem EncodesIffWellFormed.cmpa (o : Source) : EncodesIffWellFormed.Statement (.cmpa o) := by
  rcases o with d | c
  · rfl
  · cases c <;> rfl
theorem EncodesIffWellFormed.bita (o : Source) : EncodesIffWellFormed.Statement (.bita o) := by
  rcases o with d | c
  · rfl
  · cases c <;> rfl
theorem EncodesIffWellFormed.anda (o : Source) : EncodesIffWellFormed.Statement (.anda o) := by
  rcases o with d | c
  · rfl
  · cases c <;> rfl
theorem EncodesIffWellFormed.ora (o : Source) : EncodesIffWellFormed.Statement (.ora o) := by
  rcases o with d | c
  · rfl
  · cases c <;> rfl
theorem EncodesIffWellFormed.eora (o : Source) : EncodesIffWellFormed.Statement (.eora o) := by
  rcases o with d | c
  · rfl
  · cases c <;> rfl
theorem EncodesIffWellFormed.cmpx (o : Source) : EncodesIffWellFormed.Statement (.cmpx o) := by
  rcases o with d | c
  · rfl
  · cases c <;> rfl
theorem EncodesIffWellFormed.cmpy (o : Source) : EncodesIffWellFormed.Statement (.cmpy o) := by
  rcases o with d | c
  · rfl
  · cases c <;> rfl
theorem EncodesIffWellFormed.cmpsp (o : Source) : EncodesIffWellFormed.Statement (.cmpsp o) := by
  rcases o with d | c
  · rfl
  · cases c <;> rfl
theorem EncodesIffWellFormed.exgACc : EncodesIffWellFormed.Statement .exgACc := rfl
theorem EncodesIffWellFormed.exgXY : EncodesIffWellFormed.Statement .exgXY := rfl
theorem EncodesIffWellFormed.leasp (c : Cell) : EncodesIffWellFormed.Statement (.leasp c) := by cases c <;> rfl
theorem EncodesIffWellFormed.exgXSp : EncodesIffWellFormed.Statement .exgXSp := rfl
theorem EncodesIffWellFormed.leax (c : Cell) : EncodesIffWellFormed.Statement (.leax c) := by cases c <;> rfl
theorem EncodesIffWellFormed.leay (c : Cell) : EncodesIffWellFormed.Statement (.leay c) := by cases c <;> rfl
theorem EncodesIffWellFormed.exgYSp : EncodesIffWellFormed.Statement .exgYSp := rfl
theorem EncodesIffWellFormed.illegalDF : EncodesIffWellFormed.Statement .illegalDF := rfl
theorem EncodesIffWellFormed.illegalE0 : EncodesIffWellFormed.Statement .illegalE0 := rfl
theorem EncodesIffWellFormed.sta (m : MemOperand) : EncodesIffWellFormed.Statement (.sta m) := rfl
theorem EncodesIffWellFormed.illegalEF : EncodesIffWellFormed.Statement .illegalEF := rfl
theorem EncodesIffWellFormed.lda (o : LoadOperand) : EncodesIffWellFormed.Statement (.lda o) := rfl
theorem EncodesIffWellFormed.illegalFF : EncodesIffWellFormed.Statement .illegalFF := rfl

end Sys2Proof.Laws
end

