-- ==== Sys2Proof/Machine/Selectors.lean ====
section
/-! DEFINITION. The selector tables and control signals of the hard-wired control unit (`49_alu_functions.md` R316 to R319).
They are informative: the spec does not say which signals an instruction asserts, so no meaning uses them. -/

namespace Sys2Proof.Machine

/-- The selector of C, V, Z or N: from the ALU, from the bus bit, cleared, or fed back (`49_alu_functions.md` R316). -/
def flagSelector (hi lo : Bool) (fromAlu fromBus old : Bool) : Bool :=
  match hi, lo with
  | false, false => fromAlu
  | false, true => fromBus
  | true, false => false
  | true, true => old

/-- The selector of I: fed back, from bus bit 4, set to 1, or fed back (`49_alu_functions.md` R316). -/
def maskSelector (g11 g10 : Bool) (fromBus old : Bool) : Bool :=
  match g11, g10 with
  | false, false => old
  | false, true => fromBus
  | true, false => true
  | true, true => old

/-- The new CC under the selector lines, bit k of `g` being line g_k, when CC is loaded; else CC is kept
(`49_alu_functions.md` R316). C, V, Z, N and I take bits 0 to 4 of the bus where they are taken from it. -/
def ccSelector (g : BitVec 15) (ldCc : Bool) (aluFlags : AluOut) (bus : Byte) (cc : CC) : CC :=
  if ldCc then
    { c := flagSelector (g.getLsbD 3) (g.getLsbD 2) aluFlags.c (bus.getLsbD 0) cc.c,
      v := flagSelector (g.getLsbD 5) (g.getLsbD 4) aluFlags.v (bus.getLsbD 1) cc.v,
      z := flagSelector (g.getLsbD 7) (g.getLsbD 6) aluFlags.z (bus.getLsbD 2) cc.z,
      n := flagSelector (g.getLsbD 9) (g.getLsbD 8) aluFlags.n (bus.getLsbD 3) cc.n,
      i := maskSelector (g.getLsbD 11) (g.getLsbD 10) (bus.getLsbD 4) cc.i }
  else cc

/-- The carry-in selector of the ALU: 0, 1, C or its inverse (`49_alu_functions.md` R317). -/
def carrySelector (g1 g0 : Bool) (c : Bool) : Bool :=
  match g1, g0 with
  | false, false => false
  | false, true => true
  | true, false => c
  | true, true => !c

/-- The carry-in under lines g1 and g0 (`49_alu_functions.md` R317). -/
def carryIn (g : BitVec 15) (cc : CC) : Bool := carrySelector (g.getLsbD 1) (g.getLsbD 0) cc.c

/-- The address selector: PC; SP, Y or X as base with offset T; or TA (`49_alu_functions.md` R318). -/
def addressSelector (g14 g13 g12 : Bool) (s : State) (t ta : Byte) : Byte :=
  match g14, g13, g12 with
  | false, false, false => s.pc
  | false, false, true => s.sp + t
  | false, true, false => s.y + t
  | false, true, true => s.x + t
  | true, _, _ => ta

/-- The address of a memory or I/O access under lines g14, g13 and g12 (`49_alu_functions.md` R318). -/
def selectedAddress (g : BitVec 15) (s : State) (t ta : Byte) : Byte :=
  addressSelector (g.getLsbD 14) (g.getLsbD 13) (g.getLsbD 12) s t ta

/-- The output signals of the control unit (`49_alu_functions.md` R319). -/
inductive ControlSignal where
  | ldA
  | oeA
  | ldI
  | ldT
  | clrT
  | ldR
  | oeR
  | ldCc
  | oeCc
  | ldX
  | oeX
  | ldY
  | oeY
  | ldPc
  | oePc
  | incPc
  | ldSp
  | oeSp
  | incSp
  | decSp
  | ldTa
  | mr
  | mw
  | f (k : Fin 4)
  | g (k : Fin 15)
deriving DecidableEq, Repr

/-- The function code of an ALU function: f3 f2 f1 f0 (`49_alu_functions.md` R290 to R306). -/
def AluFn.code : AluFn → BitVec 4
  | .f0000 => 0x0
  | .f0001 => 0x1
  | .f0010 => 0x2
  | .f0011 => 0x3
  | .f0100 => 0x4
  | .f0101 => 0x5
  | .f0110 => 0x6
  | .f0111 => 0x7
  | .f1000 => 0x8
  | .f1001 => 0x9
  | .f1010 => 0xA
  | .f1011 => 0xB
  | .f1100 => 0xC
  | .f1101 => 0xD
  | .f1110 => 0xE
  | .f1111 => 0xF

end Sys2Proof.Machine
end

