-- ==== Sys2Proof/Laws/Selectors.lean ====
section
/-! SUPPORT. What the selector lines can do to CC (`49_alu_functions.md` R316), beside what the instructions do to it. -/

namespace Sys2Proof.Machine

open Sys2Proof

@[simp] theorem ccSelector_not_loaded (g : BitVec 15) (o : AluOut) (bus : Byte) (cc : CC) :
    ccSelector g false o bus cc = cc := rfl

/-- All five flags from the bus: the load of CC from a byte (`10_state.md` R32). -/
theorem ccSelector_bus (o : AluOut) (bus : Byte) (cc : CC) : ccSelector 0x0554 true o bus cc = ccOfByte bus := rfl

/-- All lines of CC at 00: the four flags from the ALU, I fed back; the row of add, subtract and compare. -/
theorem ccSelector_alu (o : AluOut) (bus : Byte) (cc : CC) : ccSelector 0x0000 true o bus cc = rowArith.apply o cc := rfl

/-- V cleared and C fed back: the row of loads and logic. -/
theorem ccSelector_logic (o : AluOut) (bus : Byte) (cc : CC) : ccSelector 0x002C true o bus cc = rowLogic.apply o cc := rfl

/-- V and C cleared: the row of TSTA and TST. -/
theorem ccSelector_test (o : AluOut) (bus : Byte) (cc : CC) : ccSelector 0x0028 true o bus cc = rowTest.apply o cc := rfl

/-- C fed back: the row of increment and decrement. -/
theorem ccSelector_incDec (o : AluOut) (bus : Byte) (cc : CC) : ccSelector 0x000C true o bus cc = rowIncDec.apply o cc := rfl

/-- N cleared: the row of LSRA and LSR. -/
theorem ccSelector_lsr (o : AluOut) (bus : Byte) (cc : CC) : ccSelector 0x0200 true o bus cc = rowLsr.apply o cc := rfl

/-- V cleared: the row of ASRA and ASR. -/
theorem ccSelector_asr (o : AluOut) (bus : Byte) (cc : CC) : ccSelector 0x0020 true o bus cc = rowAsr.apply o cc := rfl

/-- The "1" of CLR's Z is the output of function 0000. -/
theorem ccSelector_clear (d e bus : Byte) (cin : Bool) (cc : CC) :
    ccSelector 0x0000 true (alu .f0000 d e cin) bus cc = rowClear.apply (alu .f0000 d e cin) cc := rfl

/-- I set and the other flags fed back: what reset and an entry do to CC (`10_state.md` R31). -/
theorem ccSelector_mask (o : AluOut) (bus : Byte) (cc : CC) :
    ccSelector 0x0BFC true o bus cc = { cc with i := true } := rfl

/-- No choice clears I but the bus (`49_alu_functions.md` R316). -/
theorem ccSelector_keeps_mask {g : BitVec 15} (o : AluOut) {bus : Byte} {cc : CC} (ldCc : Bool) (hi : cc.i = true)
    (hb : bus.getLsbD 4 = true) : (ccSelector g ldCc o bus cc).i = true := by
  cases ldCc
  · exact hi
  · simp only [ccSelector, if_true, maskSelector, hi, hb]
    split <;> rfl

end Sys2Proof.Machine
end

