-- ==== Sys2Proof/Laws/Step.lean ====
section
/-! SUPPORT. The boundary, the fetch, and the three ways a step can go. -/

namespace Sys2Proof.Machine

open Sys2Proof

/-! The boundary. -/

@[simp] theorem State.passBoundary_a (s : State) : s.passBoundary.a = s.a := rfl
@[simp] theorem State.passBoundary_x (s : State) : s.passBoundary.x = s.x := rfl
@[simp] theorem State.passBoundary_y (s : State) : s.passBoundary.y = s.y := rfl
@[simp] theorem State.passBoundary_sp (s : State) : s.passBoundary.sp = s.sp := rfl
@[simp] theorem State.passBoundary_pc (s : State) : s.passBoundary.pc = s.pc := rfl
@[simp] theorem State.passBoundary_cc (s : State) : s.passBoundary.cc = s.cc := rfl
@[simp] theorem State.passBoundary_mem (s : State) : s.passBoundary.mem = s.mem := rfl
@[simp] theorem State.passBoundary_out (s : State) : s.passBoundary.out = s.out := rfl
@[simp] theorem State.passBoundary_params (s : State) : s.passBoundary.params = s.params := rfl
@[simp] theorem State.passBoundary_pins (s : State) : s.passBoundary.env.pins = s.env.pins.tail := rfl

/-! The fetch. -/

@[simp] theorem fetch8_a (s : State) : (fetch8 s).2.a = s.a := by simp [fetch8]
@[simp] theorem fetch8_x (s : State) : (fetch8 s).2.x = s.x := by simp [fetch8]
@[simp] theorem fetch8_y (s : State) : (fetch8 s).2.y = s.y := by simp [fetch8]
@[simp] theorem fetch8_sp (s : State) : (fetch8 s).2.sp = s.sp := by simp [fetch8]
@[simp] theorem fetch8_cc (s : State) : (fetch8 s).2.cc = s.cc := by simp [fetch8]
@[simp] theorem fetch8_mem (s : State) : (fetch8 s).2.mem = s.mem := by simp [fetch8]
@[simp] theorem fetch8_out (s : State) : (fetch8 s).2.out = s.out := by simp [fetch8]
@[simp] theorem fetch8_params (s : State) : (fetch8 s).2.params = s.params := by simp [fetch8]
@[simp] theorem fetch8_pc (s : State) : (fetch8 s).2.pc = s.pc + 1 := by simp [fetch8]
@[simp] theorem fetch8_pins (s : State) : (fetch8 s).2.env.pins = s.env.pins := by simp [fetch8]

@[simp] theorem fetchInstr_a (s : State) : (fetchInstr s).2.a = s.a := by unfold fetchInstr; dsimp only; split <;> simp
@[simp] theorem fetchInstr_x (s : State) : (fetchInstr s).2.x = s.x := by unfold fetchInstr; dsimp only; split <;> simp
@[simp] theorem fetchInstr_y (s : State) : (fetchInstr s).2.y = s.y := by unfold fetchInstr; dsimp only; split <;> simp
@[simp] theorem fetchInstr_sp (s : State) : (fetchInstr s).2.sp = s.sp := by unfold fetchInstr; dsimp only; split <;> simp
@[simp] theorem fetchInstr_cc (s : State) : (fetchInstr s).2.cc = s.cc := by unfold fetchInstr; dsimp only; split <;> simp
@[simp] theorem fetchInstr_mem (s : State) : (fetchInstr s).2.mem = s.mem := by unfold fetchInstr; dsimp only; split <;> simp
@[simp] theorem fetchInstr_out (s : State) : (fetchInstr s).2.out = s.out := by unfold fetchInstr; dsimp only; split <;> simp
@[simp] theorem fetchInstr_params (s : State) : (fetchInstr s).2.params = s.params := by unfold fetchInstr; dsimp only; split <;> simp
@[simp] theorem fetchInstr_pins (s : State) : (fetchInstr s).2.env.pins = s.env.pins := by
  unfold fetchInstr; dsimp only; split <;> simp

/-- A fetch of a one-byte instruction. -/
theorem fetchInstr_one {s : State} {i : Instr} (h : decodeOp (memRead s s.pc).1 = .f1 i) :
    fetchInstr s = (i, { s with pc := s.pc + 1, env := (memRead s s.pc).2.env }) := by
  unfold fetchInstr
  simp only [fetch8_spec, h]

/-- A fetch of a two-byte instruction. -/
theorem fetchInstr_two {s : State} {mk : Byte → Instr} (h : decodeOp (memRead s s.pc).1 = .f2 mk) :
    fetchInstr s =
      let s1 : State := { s with pc := s.pc + 1, env := (memRead s s.pc).2.env }
      (mk (memRead s1 (s.pc + 1)).1, { s1 with pc := s.pc + 1 + 1, env := (memRead s1 (s.pc + 1)).2.env }) := by
  unfold fetchInstr
  simp only [fetch8_spec, h]

/-! Placing an instruction. -/

theorem placeFetchByte_wf (adr v : Byte) {s : State} (h : s.mem.wf) : (placeFetchByte s adr v).mem.wf := by
  unfold placeFetchByte
  cases hp : portOf adr with
  | some p => exact h
  | none => exact Memory.wf_write v h hp

theorem calmPins_mem (s : State) : s.calmPins.mem = s.mem := by unfold State.calmPins; split <;> rfl

theorem placeInstr_wf (nbits w : Nat) {s : State} (h : s.mem.wf) : (placeInstr s nbits w).mem.wf :=
  placeFetchByte_wf _ _ (placeFetchByte_wf _ _ (by rw [calmPins_mem]; exact h))

/-! The step. -/

/-- A step is a reset, an interrupt entry, or the fetched instruction (`60_exceptions.md` R330). -/
theorem step_cases (s : State) :
    (s.pinsNow.reset = true ∧ step s = .next (takeReset s.passBoundary)) ∨
    (s.pinsNow.reset = false ∧ s.pinsNow.irq = true ∧ s.cc.i = false ∧ step s = .next (takeIrq s.passBoundary)) ∨
    (s.pinsNow.reset = false ∧ (s.pinsNow.irq = false ∨ s.cc.i = true) ∧
      step s = exec (fetchInstr s.passBoundary).1 (fetchInstr s.passBoundary).2) := by
  unfold step takeStep
  dsimp only
  rw [State.passBoundary_cc]
  cases s.pinsNow.reset <;> cases s.pinsNow.irq <;> cases s.cc.i <;> simp

end Sys2Proof.Machine
end

