-- ==== Sys2Proof/Laws/Stores.lean ====
section
/-! SUPPORT. What one store does, and what the helpers of the ALU put out, in the words of `Sys2Proof.Safety`. -/

namespace Sys2Proof.Machine

open Sys2Proof

/-! Stores. -/

/-- A state whose memory and outputs are those after one `MemWrite`. -/
theorem stored_of_memWrite {s t : State} {adr v : Byte} (hm : t.mem = (memWrite s adr v).mem)
    (ho : t.out = (memWrite s adr v).out) : Stored s t adr v := by
  refine ⟨fun h => ?_, fun h => ?_, fun b hb => ?_, fun h => ?_, fun p h => ?_⟩
  · rw [State.cell_congr hm, memWrite_cell_self h.1 h.2]
  · rw [State.cell_congr hm]
    cases hp : portOf adr with
    | some p => rw [memWrite_port hp]; rfl
    | none =>
      have hr : adr ∈ s.params.readOnly := Decidable.byContradiction fun hn => h ⟨hp, hn⟩
      rw [memWrite_readOnly hp hr]
  · rw [State.cell_congr hm, memWrite_cell_other _ _ hb]
  · rw [ho, memWrite_out, h]; simp
  · rw [ho, memWrite_out, h]; rfl

theorem memWrite_stored (s : State) (adr v : Byte) : Stored s (memWrite s adr v) adr v := stored_of_memWrite rfl rfl

theorem push_stored (s : State) (v : Byte) : Stored s (push v s) (s.sp - 1) v :=
  memWrite_stored (s.setSp (s.sp - 1)) (s.sp - 1) v

theorem modifyCell_stored (row : FlagRow) (f : Byte → AluOut) (c : Cell) (s : State) :
    Stored s (modifyCell row f c s) (ea c s) (f (memRead s (ea c s)).1).u :=
  stored_of_memWrite (modifyCell_store row f c s).1 (modifyCell_store row f c s).2

/-- A port's input does not depend on what was written (`20_memory.md` R64). -/
theorem memRead_port_of_memWrite {adr : Byte} {p : Port} (h : portOf adr = some p) (s : State) (adr' v : Byte) :
    (memRead (memWrite s adr' v) adr).1 = (memRead s adr).1 := by
  rw [memRead_port h, memRead_port h]
  unfold readPort
  rw [memWrite_env]
  cases s.env.input p <;> rfl

/-! The outputs of the helpers, on integers (`49_alu_functions.md` R315). -/

theorem inc8_outputs (m : Byte) :
    (inc8 m).u.toNat = (m.toNat + 1) % 256 ∧ ((inc8 m).v = true ↔ m.toNat = 127) ∧
      ((inc8 m).n = true ↔ 128 ≤ (inc8 m).u.toNat) ∧ ((inc8 m).z = true ↔ (inc8 m).u.toNat = 0) := by
  revert m; decide

theorem dec8_outputs (m : Byte) :
    (dec8 m).u.toNat = (m.toNat + 255) % 256 ∧ ((dec8 m).v = true ↔ m.toNat = 128) ∧
      ((dec8 m).n = true ↔ 128 ≤ (dec8 m).u.toNat) ∧ ((dec8 m).z = true ↔ (dec8 m).u.toNat = 0) := by
  revert m; decide

theorem neg8_outputs (m : Byte) :
    (neg8 m).u.toNat = (256 - m.toNat) % 256 ∧ ((neg8 m).v = true ↔ m.toNat = 128) ∧ ((neg8 m).c = true ↔ m.toNat ≠ 0) ∧
      ((neg8 m).n = true ↔ 128 ≤ (neg8 m).u.toNat) ∧ ((neg8 m).z = true ↔ (neg8 m).u.toNat = 0) := by
  revert m; decide

theorem shl8_outputs (m : Byte) (bit : Bool) :
    (shl8 m bit).u.toNat = (2 * m.toNat + bit.toNat) % 256 ∧ ((shl8 m bit).v = true ↔ (shl8 m bit).c ≠ (shl8 m bit).n) ∧
      ((shl8 m bit).c = true ↔ 128 ≤ m.toNat) ∧
      ((shl8 m bit).n = true ↔ 128 ≤ (shl8 m bit).u.toNat) ∧ ((shl8 m bit).z = true ↔ (shl8 m bit).u.toNat = 0) := by
  revert m bit; decide

theorem shr8_outputs (m : Byte) (bit : Bool) :
    (shr8 m bit).u.toNat = 128 * bit.toNat + m.toNat / 2 ∧ ((shr8 m bit).v = true ↔ bit ≠ decide (128 ≤ m.toNat)) ∧
      ((shr8 m bit).c = true ↔ m.toNat % 2 = 1) ∧
      ((shr8 m bit).n = true ↔ 128 ≤ (shr8 m bit).u.toNat) ∧ ((shr8 m bit).z = true ↔ (shr8 m bit).u.toNat = 0) := by
  revert m bit; decide

/-- The flags of a loaded value (`40_load_store.md` R130). -/
theorem pass8_flags (u : Byte) (cc : CC) : LogicFlags cc u (rowLogic.apply (pass8 u) cc) := by
  refine ⟨⟨?_, ?_⟩, rfl, rfl⟩ <;> simp [rowLogic, pass8]

/-- The flags of a logical result (`45_logical.md` R235). -/
theorem logic8_flags (u : Byte) (cc : CC) : LogicFlags cc u (rowLogic.apply (logic8 u) cc) := by
  refine ⟨⟨?_, ?_⟩, rfl, rfl⟩ <;> simp [rowLogic, logic8]

/-! CC as a byte. -/

theorem ccByte_image (hi : BitVec 3) (cc : CC) : CcImage (ccByte hi cc) hi cc := by
  obtain ⟨i, n, z, v, c⟩ := cc
  revert hi i n z v c; decide

end Sys2Proof.Machine
end

