-- ==== Sys2Proof/Tests/Slice0.lean ====
section
/-! SUPPORT. Tests of the model on fixed values, their expected results from `spec/95_test_vectors.md` and the opcode map,
and a witness for the hypotheses of every statement that has some. -/

namespace Sys2Proof.Tests

open Sys2Proof Sys2Proof.Machine

/-! Well-formedness: the form each check refuses, beside one it admits. -/

theorem test_wf_jump : Instr.wf (.jmp (.ns 0x10)) = false ∧ Instr.wf (.jsr (.ns 0x10)) = false ∧
    Instr.wf (.jmp .ax) = true ∧ Instr.wf (.jsr (.ab 0x10)) = true := by decide

theorem test_wf_table_ta_accumulator_offset :
    Instr.wf (.ldx (.cell .ax)) = false ∧ Instr.wf (.ldy (.cell .ay)) = false ∧ Instr.wf (.ldsp (.cell .ax)) = false ∧
    Instr.wf (.sbca (.cell .ay)) = false ∧ Instr.wf (.suba (.cell .ax)) = false ∧ Instr.wf (.adca (.cell .ay)) = false ∧
    Instr.wf (.adda (.cell .ax)) = false ∧ Instr.wf (.cmpa (.cell .ay)) = false ∧ Instr.wf (.bita (.cell .ax)) = false ∧
    Instr.wf (.anda (.cell .ay)) = false ∧ Instr.wf (.ora (.cell .ax)) = false ∧ Instr.wf (.eora (.cell .ay)) = false ∧
    Instr.wf (.adda (.cell (.ny 0x10))) = true := by decide

theorem test_wf_compares :
    Instr.wf (.cmpx (.cell (.nx 0x10))) = false ∧ Instr.wf (.cmpy (.cell (.ny 0x10))) = false ∧
    Instr.wf (.cmpsp (.cell (.ns 0x10))) = false ∧ Instr.wf (.cmpx (.cell (.ns 0x10))) = true ∧
    Instr.wf (.cmpsp (.cell (.ab 0x10))) = true := by decide

theorem test_wf_lea :
    Instr.wf (.leax (.ny 0x10)) = false ∧ Instr.wf (.leay (.nx 0x10)) = false ∧ Instr.wf (.leasp (.ab 0x10)) = false ∧
    Instr.wf (.leax (.nx 0x10)) = true ∧ Instr.wf (.leasp (.ny 0x10)) = true := by decide

/-- What is not well formed has no bytes. -/
theorem test_encode_refuses : encode (.jmp (.ns 0x10)) = none ∧ encode (.ldx (.cell .ax)) = none ∧
    encode (.cmpsp (.cell (.ns 0x10))) = none ∧ encode (.leay (.nx 0x10)) = none := by decide

/-! Decoding: the opcode map column by column (`30_encoding.md` R107), every constructor among its rows. -/

theorem test_decode_refuses : decode [] = .error .noOpcode ∧ decode [0x01] = .error (.noOperand 0x01) := ⟨rfl, rfl⟩

/-- Each row's bytes decode to its instruction, with nothing left over. -/
def readsBack (rows : List (List Byte × Instr)) : Bool :=
  rows.all fun r =>
    match decode r.1 with
    | .ok (i, []) => i == r.2
    | _ => false

/-- Column 0x of the opcode map, with an operand byte where the row has one. -/
theorem test_decode_column_0 :
    readsBack [([0x00], .nop),
      ([0x01, 0x88], .andcc 0x88),
      ([0x02, 0x8F], .orcc 0x8F),
      ([0x03], .illegal03),
      ([0x04], .illegal04),
      ([0x05], .clra),
      ([0x06], .nega),
      ([0x07], .inca),
      ([0x08], .deca),
      ([0x09], .tsta),
      ([0x0A], .coma),
      ([0x0B], .lsla),
      ([0x0C], .lsra),
      ([0x0D], .rola),
      ([0x0E], .rora),
      ([0x0F], .asra)] = true := by decide

/-- Column 1x of the opcode map, with an operand byte where the row has one. -/
theorem test_decode_column_1 :
    readsBack [([0x10], .psha),
      ([0x11], .pshx),
      ([0x12], .pshy),
      ([0x13], .pshc),
      ([0x14], .pula),
      ([0x15], .pulx),
      ([0x16], .puly),
      ([0x17], .pulc),
      ([0x18], .tfrACc),
      ([0x19], .tfrCcA),
      ([0x1A], .tfrXY),
      ([0x1B], .tfrYX),
      ([0x1C], .tfrXSp),
      ([0x1D], .tfrSpX),
      ([0x1E], .tfrYSp),
      ([0x1F], .tfrSpY)] = true := by decide

/-- Column 2x of the opcode map, with an operand byte where the row has one. -/
theorem test_decode_column_2 :
    readsBack [([0x20, 0x61], .bsr 0x61),
      ([0x21, 0x68], .bra 0x68),
      ([0x22, 0x6F], .bmi 0x6F),
      ([0x23, 0x76], .bpl 0x76),
      ([0x24, 0x7D], .beq 0x7D),
      ([0x25, 0x84], .bne 0x84),
      ([0x26, 0x8B], .bvs 0x8B),
      ([0x27, 0x92], .bvc 0x92),
      ([0x28, 0x99], .bcs 0x99),
      ([0x29, 0xA0], .bcc 0xA0),
      ([0x2A, 0xA7], .bhi 0xA7),
      ([0x2B, 0xAE], .bls 0xAE),
      ([0x2C, 0xB5], .bgt 0xB5),
      ([0x2D, 0xBC], .bge 0xBC),
      ([0x2E, 0xC3], .ble 0xC3),
      ([0x2F, 0xCA], .blt 0xCA)] = true := by decide

/-- Column 3x of the opcode map, with an operand byte where the row has one. -/
theorem test_decode_column_3 :
    readsBack [([0x30, 0xD1], .stx (.ab 0xD1)),
      ([0x31, 0xD8], .sty (.ab 0xD8)),
      ([0x32, 0xDF], .stsp (.ab 0xDF)),
      ([0x33, 0xE6], .jmp (.ab 0xE6)),
      ([0x34, 0xED], .jsr (.ab 0xED)),
      ([0x35, 0xF4], .clr (.ab 0xF4)),
      ([0x36, 0xFB], .neg (.ab 0xFB)),
      ([0x37, 0x02], .inc (.ab 0x02)),
      ([0x38, 0x09], .dec (.ab 0x09)),
      ([0x39, 0x10], .tst (.ab 0x10)),
      ([0x3A, 0x17], .com (.ab 0x17)),
      ([0x3B, 0x1E], .lsl (.ab 0x1E)),
      ([0x3C, 0x25], .lsr (.ab 0x25)),
      ([0x3D, 0x2C], .rol (.ab 0x2C)),
      ([0x3E, 0x33], .ror (.ab 0x33)),
      ([0x3F, 0x3A], .asr (.ab 0x3A))] = true := by decide

/-- Column 4x of the opcode map, with an operand byte where the row has one. -/
theorem test_decode_column_4 :
    readsBack [([0x40, 0x41], .stx (.ns 0x41)),
      ([0x41, 0x48], .sty (.ns 0x48)),
      ([0x42, 0x4F], .stsp (.ns 0x4F)),
      ([0x43], .rts),
      ([0x44], .rti),
      ([0x45, 0x64], .clr (.ns 0x64)),
      ([0x46, 0x6B], .neg (.ns 0x6B)),
      ([0x47, 0x72], .inc (.ns 0x72)),
      ([0x48, 0x79], .dec (.ns 0x79)),
      ([0x49, 0x80], .tst (.ns 0x80)),
      ([0x4A, 0x87], .com (.ns 0x87)),
      ([0x4B, 0x8E], .lsl (.ns 0x8E)),
      ([0x4C, 0x95], .lsr (.ns 0x95)),
      ([0x4D, 0x9C], .rol (.ns 0x9C)),
      ([0x4E, 0xA3], .ror (.ns 0xA3)),
      ([0x4F, 0xAA], .asr (.ns 0xAA))] = true := by decide

/-- Column 5x of the opcode map, with an operand byte where the row has one. -/
theorem test_decode_column_5 :
    readsBack [([0x50, 0xB1], .stx (.nx 0xB1)),
      ([0x51, 0xB8], .sty (.nx 0xB8)),
      ([0x52, 0xBF], .stsp (.nx 0xBF)),
      ([0x53, 0xC6], .jmp (.nx 0xC6)),
      ([0x54, 0xCD], .jsr (.nx 0xCD)),
      ([0x55, 0xD4], .clr (.nx 0xD4)),
      ([0x56, 0xDB], .neg (.nx 0xDB)),
      ([0x57, 0xE2], .inc (.nx 0xE2)),
      ([0x58, 0xE9], .dec (.nx 0xE9)),
      ([0x59, 0xF0], .tst (.nx 0xF0)),
      ([0x5A, 0xF7], .com (.nx 0xF7)),
      ([0x5B, 0xFE], .lsl (.nx 0xFE)),
      ([0x5C, 0x05], .lsr (.nx 0x05)),
      ([0x5D, 0x0C], .rol (.nx 0x0C)),
      ([0x5E, 0x13], .ror (.nx 0x13)),
      ([0x5F, 0x1A], .asr (.nx 0x1A))] = true := by decide

/-- Column 6x of the opcode map, with an operand byte where the row has one. -/
theorem test_decode_column_6 :
    readsBack [([0x60], .stx .ax),
      ([0x61], .sty .ax),
      ([0x62], .stsp .ax),
      ([0x63], .jmp .ax),
      ([0x64], .jsr .ax),
      ([0x65], .clr .ax),
      ([0x66], .neg .ax),
      ([0x67], .inc .ax),
      ([0x68], .dec .ax),
      ([0x69], .tst .ax),
      ([0x6A], .com .ax),
      ([0x6B], .lsl .ax),
      ([0x6C], .lsr .ax),
      ([0x6D], .rol .ax),
      ([0x6E], .ror .ax),
      ([0x6F], .asr .ax)] = true := by decide

/-- Column 7x of the opcode map, with an operand byte where the row has one. -/
theorem test_decode_column_7 :
    readsBack [([0x70, 0x91], .stx (.ny 0x91)),
      ([0x71, 0x98], .sty (.ny 0x98)),
      ([0x72, 0x9F], .stsp (.ny 0x9F)),
      ([0x73, 0xA6], .jmp (.ny 0xA6)),
      ([0x74, 0xAD], .jsr (.ny 0xAD)),
      ([0x75, 0xB4], .clr (.ny 0xB4)),
      ([0x76, 0xBB], .neg (.ny 0xBB)),
      ([0x77, 0xC2], .inc (.ny 0xC2)),
      ([0x78, 0xC9], .dec (.ny 0xC9)),
      ([0x79, 0xD0], .tst (.ny 0xD0)),
      ([0x7A, 0xD7], .com (.ny 0xD7)),
      ([0x7B, 0xDE], .lsl (.ny 0xDE)),
      ([0x7C, 0xE5], .lsr (.ny 0xE5)),
      ([0x7D, 0xEC], .rol (.ny 0xEC)),
      ([0x7E, 0xF3], .ror (.ny 0xF3)),
      ([0x7F, 0xFA], .asr (.ny 0xFA))] = true := by decide

/-- Column 8x of the opcode map, with an operand byte where the row has one. -/
theorem test_decode_column_8 :
    readsBack [([0x80], .stx .ay),
      ([0x81], .sty .ay),
      ([0x82], .stsp .ay),
      ([0x83], .jmp .ay),
      ([0x84], .jsr .ay),
      ([0x85], .clr .ay),
      ([0x86], .neg .ay),
      ([0x87], .inc .ay),
      ([0x88], .dec .ay),
      ([0x89], .tst .ay),
      ([0x8A], .com .ay),
      ([0x8B], .lsl .ay),
      ([0x8C], .lsr .ay),
      ([0x8D], .rol .ay),
      ([0x8E], .ror .ay),
      ([0x8F], .asr .ay)] = true := by decide

/-- Column 9x of the opcode map, with an operand byte where the row has one. -/
theorem test_decode_column_9 :
    readsBack [([0x90, 0x71], .ldx (.im 0x71)),
      ([0x91, 0x78], .ldy (.im 0x78)),
      ([0x92, 0x7F], .ldsp (.im 0x7F)),
      ([0x93, 0x86], .sbca (.im 0x86)),
      ([0x94, 0x8D], .suba (.im 0x8D)),
      ([0x95, 0x94], .adca (.im 0x94)),
      ([0x96, 0x9B], .adda (.im 0x9B)),
      ([0x97, 0xA2], .cmpa (.im 0xA2)),
      ([0x98, 0xA9], .bita (.im 0xA9)),
      ([0x99, 0xB0], .anda (.im 0xB0)),
      ([0x9A, 0xB7], .ora (.im 0xB7)),
      ([0x9B, 0xBE], .eora (.im 0xBE)),
      ([0x9C, 0xC5], .cmpx (.im 0xC5)),
      ([0x9D, 0xCC], .cmpy (.im 0xCC)),
      ([0x9E, 0xD3], .cmpsp (.im 0xD3)),
      ([0x9F], .exgACc)] = true := by decide

/-- Column Ax of the opcode map, with an operand byte where the row has one. -/
theorem test_decode_column_a :
    readsBack [([0xA0, 0xE1], .ldx (.cell (.ab 0xE1))),
      ([0xA1, 0xE8], .ldy (.cell (.ab 0xE8))),
      ([0xA2, 0xEF], .ldsp (.cell (.ab 0xEF))),
      ([0xA3, 0xF6], .sbca (.cell (.ab 0xF6))),
      ([0xA4, 0xFD], .suba (.cell (.ab 0xFD))),
      ([0xA5, 0x04], .adca (.cell (.ab 0x04))),
      ([0xA6, 0x0B], .adda (.cell (.ab 0x0B))),
      ([0xA7, 0x12], .cmpa (.cell (.ab 0x12))),
      ([0xA8, 0x19], .bita (.cell (.ab 0x19))),
      ([0xA9, 0x20], .anda (.cell (.ab 0x20))),
      ([0xAA, 0x27], .ora (.cell (.ab 0x27))),
      ([0xAB, 0x2E], .eora (.cell (.ab 0x2E))),
      ([0xAC, 0x35], .cmpx (.cell (.ab 0x35))),
      ([0xAD, 0x3C], .cmpy (.cell (.ab 0x3C))),
      ([0xAE, 0x43], .cmpsp (.cell (.ab 0x43))),
      ([0xAF], .exgXY)] = true := by decide

/-- Column Bx of the opcode map, with an operand byte where the row has one. -/
theorem test_decode_column_b :
    readsBack [([0xB0, 0x51], .ldx (.cell (.ns 0x51))),
      ([0xB1, 0x58], .ldy (.cell (.ns 0x58))),
      ([0xB2, 0x5F], .ldsp (.cell (.ns 0x5F))),
      ([0xB3, 0x66], .sbca (.cell (.ns 0x66))),
      ([0xB4, 0x6D], .suba (.cell (.ns 0x6D))),
      ([0xB5, 0x74], .adca (.cell (.ns 0x74))),
      ([0xB6, 0x7B], .adda (.cell (.ns 0x7B))),
      ([0xB7, 0x82], .cmpa (.cell (.ns 0x82))),
      ([0xB8, 0x89], .bita (.cell (.ns 0x89))),
      ([0xB9, 0x90], .anda (.cell (.ns 0x90))),
      ([0xBA, 0x97], .ora (.cell (.ns 0x97))),
      ([0xBB, 0x9E], .eora (.cell (.ns 0x9E))),
      ([0xBC, 0xA5], .cmpx (.cell (.ns 0xA5))),
      ([0xBD, 0xAC], .cmpy (.cell (.ns 0xAC))),
      ([0xBE, 0xB3], .leasp (.ns 0xB3)),
      ([0xBF], .exgXSp)] = true := by decide

/-- Column Cx of the opcode map, with an operand byte where the row has one. -/
theorem test_decode_column_c :
    readsBack [([0xC0, 0xC1], .ldx (.cell (.nx 0xC1))),
      ([0xC1, 0xC8], .ldy (.cell (.nx 0xC8))),
      ([0xC2, 0xCF], .ldsp (.cell (.nx 0xCF))),
      ([0xC3, 0xD6], .sbca (.cell (.nx 0xD6))),
      ([0xC4, 0xDD], .suba (.cell (.nx 0xDD))),
      ([0xC5, 0xE4], .adca (.cell (.nx 0xE4))),
      ([0xC6, 0xEB], .adda (.cell (.nx 0xEB))),
      ([0xC7, 0xF2], .cmpa (.cell (.nx 0xF2))),
      ([0xC8, 0xF9], .bita (.cell (.nx 0xF9))),
      ([0xC9, 0x00], .anda (.cell (.nx 0x00))),
      ([0xCA, 0x07], .ora (.cell (.nx 0x07))),
      ([0xCB, 0x0E], .eora (.cell (.nx 0x0E))),
      ([0xCC, 0x15], .leax (.nx 0x15)),
      ([0xCD, 0x1C], .leay (.ny 0x1C)),
      ([0xCE, 0x23], .leasp (.nx 0x23)),
      ([0xCF], .exgYSp)] = true := by decide

/-- Column Dx of the opcode map, with an operand byte where the row has one. -/
theorem test_decode_column_d :
    readsBack [([0xD0, 0x31], .ldx (.cell (.ny 0x31))),
      ([0xD1, 0x38], .ldy (.cell (.ny 0x38))),
      ([0xD2, 0x3F], .ldsp (.cell (.ny 0x3F))),
      ([0xD3, 0x46], .sbca (.cell (.ny 0x46))),
      ([0xD4, 0x4D], .suba (.cell (.ny 0x4D))),
      ([0xD5, 0x54], .adca (.cell (.ny 0x54))),
      ([0xD6, 0x5B], .adda (.cell (.ny 0x5B))),
      ([0xD7, 0x62], .cmpa (.cell (.ny 0x62))),
      ([0xD8, 0x69], .bita (.cell (.ny 0x69))),
      ([0xD9, 0x70], .anda (.cell (.ny 0x70))),
      ([0xDA, 0x77], .ora (.cell (.ny 0x77))),
      ([0xDB, 0x7E], .eora (.cell (.ny 0x7E))),
      ([0xDC, 0x85], .leax (.ns 0x85)),
      ([0xDD, 0x8C], .leay (.ns 0x8C)),
      ([0xDE, 0x93], .leasp (.ny 0x93)),
      ([0xDF], .illegalDF)] = true := by decide

/-- Column Ex of the opcode map, with an operand byte where the row has one. -/
theorem test_decode_column_e :
    readsBack [([0xE0], .illegalE0),
      ([0xE1, 0xA8], .sta (.cell (.ab 0xA8))),
      ([0xE2, 0xAF], .sta (.cell (.ns 0xAF))),
      ([0xE3, 0xB6], .sta (.cell (.nx 0xB6))),
      ([0xE4], .sta (.cell .ax)),
      ([0xE5], .sta (.auto .x .postInc)),
      ([0xE6], .sta (.auto .x .postDec)),
      ([0xE7], .sta (.auto .x .preInc)),
      ([0xE8], .sta (.auto .x .preDec)),
      ([0xE9, 0xE0], .sta (.cell (.ny 0xE0))),
      ([0xEA], .sta (.cell .ay)),
      ([0xEB], .sta (.auto .y .postInc)),
      ([0xEC], .sta (.auto .y .postDec)),
      ([0xED], .sta (.auto .y .preInc)),
      ([0xEE], .sta (.auto .y .preDec)),
      ([0xEF], .illegalEF)] = true := by decide

/-- Column Fx of the opcode map, with an operand byte where the row has one. -/
theorem test_decode_column_f :
    readsBack [([0xF0, 0x11], .lda (.im 0x11)),
      ([0xF1, 0x18], .lda (.mem (.cell (.ab 0x18)))),
      ([0xF2, 0x1F], .lda (.mem (.cell (.ns 0x1F)))),
      ([0xF3, 0x26], .lda (.mem (.cell (.nx 0x26)))),
      ([0xF4], .lda (.mem (.cell .ax))),
      ([0xF5], .lda (.mem (.auto .x .postInc))),
      ([0xF6], .lda (.mem (.auto .x .postDec))),
      ([0xF7], .lda (.mem (.auto .x .preInc))),
      ([0xF8], .lda (.mem (.auto .x .preDec))),
      ([0xF9, 0x50], .lda (.mem (.cell (.ny 0x50)))),
      ([0xFA], .lda (.mem (.cell .ay))),
      ([0xFB], .lda (.mem (.auto .y .postInc))),
      ([0xFC], .lda (.mem (.auto .y .postDec))),
      ([0xFD], .lda (.mem (.auto .y .preInc))),
      ([0xFE], .lda (.mem (.auto .y .preDec))),
      ([0xFF], .illegalFF)] = true := by decide
/-! One step. -/

/-- The start state of `spec/95_test_vectors.md`, section 2, with these cells: A = $11, X = $40, Y = $60, SP = $F0,
PC = $20, I = 1, N = Z = V = C = 0, `CC_HI` = 0. -/
def start (cells : List (Byte × Byte)) : State :=
  { State.reset with
    pc := 0x20, cc := ⟨true, false, false, false, false⟩, mem := Memory.load [] cells,
    env := { Env.quiet with ccHi := [0] } }

/-- One step answers a next state that passes the check. -/
def shows (s : State) (check : State → Bool) : Bool :=
  match step s with
  | .next t => check t
  | _ => false

/-- The state after one step. -/
def after (s : State) : State :=
  match step s with
  | .next t => t
  | _ => s

/-- The state after one instruction executed in a state. -/
def done (i : Instr) (s : State) : State :=
  match exec i s with
  | .next t => t
  | _ => s

/-- R130: LDA #$00. -/
theorem test_step_lda : shows { start [(0x20, 0xF0), (0x21, 0x00)] with cc := ⟨true, true, false, true, true⟩ }
    (fun t => t.a == 0x00 && t.pc == 0x22 && t.cc == ⟨true, false, true, false, true⟩) = true := by decide
/-- R131: LDX #$00. -/
theorem test_step_ldx : shows (start [(0x20, 0x90), (0x21, 0x00)])
    (fun t => t.x == 0x00 && t.pc == 0x22 && t.cc == ⟨true, false, true, false, false⟩) = true := by decide
/-- R132: LDY #$FF. -/
theorem test_step_ldy : shows (start [(0x20, 0x91), (0x21, 0xFF)])
    (fun t => t.y == 0xFF && t.pc == 0x22 && t.cc == ⟨true, true, false, false, false⟩) = true := by decide
/-- R133: LDSP $90. -/
theorem test_step_ldsp : shows (start [(0x90, 0x80), (0x20, 0xA2), (0x21, 0x90)])
    (fun t => t.sp == 0x80 && t.pc == 0x22 && t.cc == ⟨true, true, false, false, false⟩) = true := by decide
/-- R134: LEAX $F0,X. -/
theorem test_step_leax : shows { start [(0x20, 0xCC), (0x21, 0xF0)] with cc := ⟨true, true, true, true, true⟩ }
    (fun t => t.x == 0x30 && t.pc == 0x22 && t.cc == ⟨true, true, true, true, true⟩) = true := by decide
/-- R135: LEAY $FF,Y. -/
theorem test_step_leay : shows (start [(0x20, 0xCD), (0x21, 0xFF)])
    (fun t => t.y == 0x5F && t.pc == 0x22 && t.cc == ⟨true, false, false, false, false⟩) = true := by decide
/-- R136: LEASP $FE,SP. -/
theorem test_step_leasp : shows (start [(0x20, 0xBE), (0x21, 0xFE)])
    (fun t => t.sp == 0xEE && t.pc == 0x22 && t.cc == ⟨true, false, false, false, false⟩) = true := by decide
/-- R137: STA $90. -/
theorem test_step_sta : shows { start [(0x20, 0xE1), (0x21, 0x90)] with cc := ⟨true, true, true, true, true⟩ }
    (fun t => t.pc == 0x22 && t.cc == ⟨true, true, true, true, true⟩ && t.cell 0x90 == 0x11) = true := by decide
/-- R138: STX $90. -/
theorem test_step_stx : shows (start [(0x20, 0x30), (0x21, 0x90)])
    (fun t => t.pc == 0x22 && t.cc == ⟨true, false, false, false, false⟩ && t.cell 0x90 == 0x40) = true := by decide
/-- R139: STY $90. -/
theorem test_step_sty : shows (start [(0x20, 0x31), (0x21, 0x90)])
    (fun t => t.pc == 0x22 && t.cc == ⟨true, false, false, false, false⟩ && t.cell 0x90 == 0x60) = true := by decide
/-- R140: STSP $90. -/
theorem test_step_stsp : shows (start [(0x20, 0x32), (0x21, 0x90)])
    (fun t => t.pc == 0x22 && t.cc == ⟨true, false, false, false, false⟩ && t.cell 0x90 == 0xF0) = true := by decide
/-- R150: TFR A,CC. -/
theorem test_step_tfr_a_cc : shows { start [(0x20, 0x18)] with a := 0xFF, cc := ⟨false, false, false, false, false⟩ }
    (fun t => t.pc == 0x21 && t.cc == ⟨true, true, true, true, true⟩) = true := by decide
/-- R151: TFR CC,A. -/
theorem test_step_tfr_cc_a : shows { start [(0x20, 0x19)] with cc := ⟨true, false, true, false, true⟩ }
    (fun t => t.a == 0x15 && t.pc == 0x21 && t.cc == ⟨true, false, true, false, true⟩) = true := by decide
/-- R152: TFR X,Y. -/
theorem test_step_tfr_x_y : shows (start [(0x20, 0x1A)])
    (fun t => t.y == 0x40 && t.pc == 0x21 && t.cc == ⟨true, false, false, false, false⟩) = true := by decide
/-- R153: TFR Y,X. -/
theorem test_step_tfr_y_x : shows (start [(0x20, 0x1B)])
    (fun t => t.x == 0x60 && t.pc == 0x21 && t.cc == ⟨true, false, false, false, false⟩) = true := by decide
/-- R154: TFR X,SP. -/
theorem test_step_tfr_x_sp : shows (start [(0x20, 0x1C)])
    (fun t => t.sp == 0x40 && t.pc == 0x21 && t.cc == ⟨true, false, false, false, false⟩) = true := by decide
/-- R155: TFR SP,X. -/
theorem test_step_tfr_sp_x : shows (start [(0x20, 0x1D)])
    (fun t => t.x == 0xF0 && t.pc == 0x21 && t.cc == ⟨true, false, false, false, false⟩) = true := by decide
/-- R156: TFR Y,SP. -/
theorem test_step_tfr_y_sp : shows (start [(0x20, 0x1E)])
    (fun t => t.sp == 0x60 && t.pc == 0x21 && t.cc == ⟨true, false, false, false, false⟩) = true := by decide
/-- R157: TFR SP,Y. -/
theorem test_step_tfr_sp_y : shows (start [(0x20, 0x1F)])
    (fun t => t.y == 0xF0 && t.pc == 0x21 && t.cc == ⟨true, false, false, false, false⟩) = true := by decide
/-- R158: EXG A,CC. -/
theorem test_step_exg_a_cc : shows { start [(0x20, 0x9F)] with a := 0x0A, cc := ⟨true, false, true, false, true⟩ }
    (fun t => t.a == 0x15 && t.pc == 0x21 && t.cc == ⟨false, true, false, true, false⟩) = true := by decide
/-- R159: EXG X,Y. -/
theorem test_step_exg_x_y : shows (start [(0x20, 0xAF)])
    (fun t => t.x == 0x60 && t.y == 0x40 && t.pc == 0x21 && t.cc == ⟨true, false, false, false, false⟩) = true := by decide
/-- R160: EXG X,SP. -/
theorem test_step_exg_x_sp : shows (start [(0x20, 0xBF)])
    (fun t => t.x == 0xF0 && t.sp == 0x40 && t.pc == 0x21 && t.cc == ⟨true, false, false, false, false⟩) = true := by decide
/-- R161: EXG Y,SP. -/
theorem test_step_exg_y_sp : shows (start [(0x20, 0xCF)])
    (fun t => t.y == 0xF0 && t.sp == 0x60 && t.pc == 0x21 && t.cc == ⟨true, false, false, false, false⟩) = true := by decide
/-- R170: JMP $80. -/
theorem test_step_jmp : shows (start [(0x20, 0x33), (0x21, 0x80)])
    (fun t => t.pc == 0x80 && t.cc == ⟨true, false, false, false, false⟩) = true := by decide
/-- R171: JSR $80. -/
theorem test_step_jsr : shows (start [(0x20, 0x34), (0x21, 0x80)])
    (fun t => t.sp == 0xEF && t.pc == 0x80 && t.cc == ⟨true, false, false, false, false⟩ && t.cell 0xEF == 0x22) = true := by decide
/-- R172: BRA +$10. -/
theorem test_step_bra : shows (start [(0x20, 0x21), (0x21, 0x10)])
    (fun t => t.pc == 0x32 && t.cc == ⟨true, false, false, false, false⟩) = true := by decide
/-- R173: BSR +$30. -/
theorem test_step_bsr : shows (start [(0x20, 0x20), (0x21, 0x30)])
    (fun t => t.sp == 0xEF && t.pc == 0x52 && t.cc == ⟨true, false, false, false, false⟩ && t.cell 0xEF == 0x22) = true := by decide
/-- R189: RTS. -/
theorem test_step_rts : shows (start [(0xF0, 0x22), (0x20, 0x43)])
    (fun t => t.sp == 0xF1 && t.pc == 0x22 && t.cc == ⟨true, false, false, false, false⟩) = true := by decide
/-- R190: RTI. -/
theorem test_step_rti : shows { start [(0xF0, 0x1F), (0xF1, 0xAA), (0xF2, 0xBB), (0xF3, 0xCC), (0xF4, 0x20), (0x20, 0x44)] with cc := ⟨false, false, false, false, false⟩ }
    (fun t => t.a == 0xAA && t.x == 0xBB && t.y == 0xCC && t.sp == 0xF5 && t.cc == ⟨true, true, true, true, true⟩) = true := by decide
/-- R200: ADDA #$80. -/
theorem test_step_adda : shows { start [(0x20, 0x96), (0x21, 0x80)] with a := 0x80 }
    (fun t => t.a == 0x00 && t.pc == 0x22 && t.cc == ⟨true, false, true, true, true⟩) = true := by decide
/-- R201: ADCA #$00. -/
theorem test_step_adca : shows { start [(0x20, 0x95), (0x21, 0x00)] with a := 0x7F, cc := ⟨true, false, false, false, true⟩ }
    (fun t => t.a == 0x80 && t.pc == 0x22 && t.cc == ⟨true, true, false, true, false⟩) = true := by decide
/-- R202: SUBA #$FF. -/
theorem test_step_suba : shows { start [(0x20, 0x94), (0x21, 0xFF)] with a := 0x7F }
    (fun t => t.a == 0x80 && t.pc == 0x22 && t.cc == ⟨true, true, false, true, true⟩) = true := by decide
/-- R203: SBCA #$7F. -/
theorem test_step_sbca : shows { start [(0x20, 0x93), (0x21, 0x7F)] with a := 0x80, cc := ⟨true, false, false, false, true⟩ }
    (fun t => t.a == 0x00 && t.pc == 0x22 && t.cc == ⟨true, false, true, true, false⟩) = true := by decide
/-- R204: CLRA. -/
theorem test_step_clra : shows { start [(0x20, 0x05)] with a := 0xA5, cc := ⟨true, true, false, true, true⟩ }
    (fun t => t.a == 0x00 && t.pc == 0x21 && t.cc == ⟨true, false, true, false, false⟩) = true := by decide
/-- R205: CLR $90. -/
theorem test_step_clr : shows { start [(0x90, 0xFF), (0x20, 0x35), (0x21, 0x90)] with cc := ⟨true, true, false, true, true⟩ }
    (fun t => t.pc == 0x22 && t.cc == ⟨true, false, true, false, false⟩ && t.cell 0x90 == 0x00) = true := by decide
/-- R206: NEGA. -/
theorem test_step_nega : shows { start [(0x20, 0x06)] with a := 0x80 }
    (fun t => t.pc == 0x21 && t.cc == ⟨true, true, false, true, true⟩) = true := by decide
/-- R207: NEG 0,SP. -/
theorem test_step_neg : shows (start [(0xF0, 0x80), (0x20, 0x46), (0x21, 0x00)])
    (fun t => t.pc == 0x22 && t.cc == ⟨true, true, false, true, true⟩) = true := by decide
/-- R208: DECA. -/
theorem test_step_deca : shows { start [(0x20, 0x08)] with a := 0x01, cc := ⟨true, false, false, false, true⟩ }
    (fun t => t.a == 0x00 && t.pc == 0x21 && t.cc == ⟨true, false, true, false, true⟩) = true := by decide
/-- R209: DEC $90. -/
theorem test_step_dec : shows { start [(0x90, 0x01), (0x20, 0x38), (0x21, 0x90)] with cc := ⟨true, false, false, false, true⟩ }
    (fun t => t.pc == 0x22 && t.cc == ⟨true, false, true, false, true⟩ && t.cell 0x90 == 0x00) = true := by decide
/-- R210: INCA. -/
theorem test_step_inca : shows { start [(0x20, 0x07)] with a := 0x7F }
    (fun t => t.a == 0x80 && t.pc == 0x21 && t.cc == ⟨true, true, false, true, false⟩) = true := by decide
/-- R211: INC 0,SP. -/
theorem test_step_inc : shows (start [(0xF0, 0x7F), (0x20, 0x47), (0x21, 0x00)])
    (fun t => t.pc == 0x22 && t.cc == ⟨true, true, false, true, false⟩ && t.cell 0xF0 == 0x80) = true := by decide
/-- R220: CMPA #$80. -/
theorem test_step_cmpa : shows { start [(0x20, 0x97), (0x21, 0x80)] with a := 0x7F }
    (fun t => t.pc == 0x22 && t.cc == ⟨true, true, false, true, true⟩) = true := by decide
/-- R221: CMPX 0,SP. -/
theorem test_step_cmpx : shows (start [(0xF0, 0xC0), (0x20, 0xBC), (0x21, 0x00)])
    (fun t => t.pc == 0x22 && t.cc == ⟨true, true, false, true, true⟩) = true := by decide
/-- R222: CMPY 1,SP. -/
theorem test_step_cmpy : shows (start [(0xF1, 0xE0), (0x20, 0xBD), (0x21, 0x01)])
    (fun t => t.pc == 0x22 && t.cc == ⟨true, true, false, true, true⟩) = true := by decide
/-- R223: CMPSP $90. -/
theorem test_step_cmpsp : shows (start [(0x90, 0xF1), (0x20, 0xAE), (0x21, 0x90)])
    (fun t => t.pc == 0x22 && t.cc == ⟨true, true, false, false, true⟩) = true := by decide
/-- R224: BITA #$10. -/
theorem test_step_bita : shows { start [(0x20, 0x98), (0x21, 0x10)] with cc := ⟨true, false, false, true, true⟩ }
    (fun t => t.pc == 0x22 && t.cc == ⟨true, false, false, false, true⟩) = true := by decide
/-- R225: TSTA. -/
theorem test_step_tsta : shows { start [(0x20, 0x09)] with a := 0x00, cc := ⟨true, true, false, true, true⟩ }
    (fun t => t.pc == 0x21 && t.cc == ⟨true, false, true, false, false⟩) = true := by decide
/-- R226: TST $90. -/
theorem test_step_tst : shows { start [(0x90, 0x00), (0x20, 0x39), (0x21, 0x90)] with cc := ⟨true, false, false, false, true⟩ }
    (fun t => t.pc == 0x22 && t.cc == ⟨true, false, true, false, false⟩) = true := by decide
/-- R235: ANDA #$55. -/
theorem test_step_anda : shows { start [(0x20, 0x99), (0x21, 0x55)] with a := 0xAA, cc := ⟨true, false, false, true, true⟩ }
    (fun t => t.a == 0x00 && t.pc == 0x22 && t.cc == ⟨true, false, true, false, true⟩) = true := by decide
/-- R236: ORA #$0E. -/
theorem test_step_ora : shows { start [(0x20, 0x9A), (0x21, 0x0E)] with a := 0x81, cc := ⟨true, false, false, true, true⟩ }
    (fun t => t.a == 0x8F && t.pc == 0x22 && t.cc == ⟨true, true, false, false, true⟩) = true := by decide
/-- R239: EORA #$AA. -/
theorem test_step_eora : shows { start [(0x20, 0x9B), (0x21, 0xAA)] with a := 0xAA, cc := ⟨true, false, false, true, true⟩ }
    (fun t => t.a == 0x00 && t.pc == 0x22 && t.cc == ⟨true, false, true, false, true⟩) = true := by decide
/-- R237: ANDCC #$00. -/
theorem test_step_andcc : shows { start [(0x20, 0x01), (0x21, 0x00)] with cc := ⟨true, true, true, true, true⟩ }
    (fun t => t.pc == 0x22 && t.cc == ⟨false, false, false, false, false⟩) = true := by decide
/-- R238: ORCC #$FF. -/
theorem test_step_orcc : shows { start [(0x20, 0x02), (0x21, 0xFF)] with cc := ⟨false, false, false, false, false⟩ }
    (fun t => t.pc == 0x22 && t.cc == ⟨true, true, true, true, true⟩) = true := by decide
/-- R240: COMA. -/
theorem test_step_coma : shows { start [(0x20, 0x0A)] with a := 0x0F, cc := ⟨true, false, false, true, true⟩ }
    (fun t => t.a == 0xF0 && t.pc == 0x21 && t.cc == ⟨true, true, false, false, true⟩) = true := by decide
/-- R241: COM $90. -/
theorem test_step_com : shows { start [(0x90, 0x55), (0x20, 0x3A), (0x21, 0x90)] with cc := ⟨true, false, false, true, true⟩ }
    (fun t => t.pc == 0x22 && t.cc == ⟨true, true, false, false, true⟩ && t.cell 0x90 == 0xAA) = true := by decide
/-- R252: LSLA. -/
theorem test_step_lsla : shows { start [(0x20, 0x0B)] with a := 0x55, cc := ⟨true, false, false, false, true⟩ }
    (fun t => t.a == 0xAA && t.pc == 0x21 && t.cc == ⟨true, true, false, true, false⟩) = true := by decide
/-- R253: LSL 1,Y. -/
theorem test_step_lsl : shows (start [(0x61, 0x80), (0x20, 0x7B), (0x21, 0x01)])
    (fun t => t.pc == 0x22 && t.cc == ⟨true, false, true, true, true⟩ && t.cell 0x61 == 0x00) = true := by decide
/-- R254: LSRA. -/
theorem test_step_lsra : shows { start [(0x20, 0x0C)] with a := 0x81 }
    (fun t => t.a == 0x40 && t.pc == 0x21 && t.cc == ⟨true, false, false, true, true⟩) = true := by decide
/-- R255: LSR 1,X. -/
theorem test_step_lsr : shows (start [(0x41, 0x01), (0x20, 0x5C), (0x21, 0x01)])
    (fun t => t.pc == 0x22 && t.cc == ⟨true, false, true, false, true⟩ && t.cell 0x41 == 0x00) = true := by decide
/-- R250: ASRA. -/
theorem test_step_asra : shows { start [(0x20, 0x0F)] with a := 0x85 }
    (fun t => t.a == 0xC2 && t.pc == 0x21 && t.cc == ⟨true, true, false, false, true⟩) = true := by decide
/-- R251: ASR 1,X. -/
theorem test_step_asr : shows (start [(0x41, 0x01), (0x20, 0x5F), (0x21, 0x01)])
    (fun t => t.pc == 0x22 && t.cc == ⟨true, false, true, false, true⟩ && t.cell 0x41 == 0x00) = true := by decide
/-- R256: ROLA. -/
theorem test_step_rola : shows { start [(0x20, 0x0D)] with a := 0x80 }
    (fun t => t.a == 0x00 && t.pc == 0x21 && t.cc == ⟨true, false, true, true, true⟩) = true := by decide
/-- R257: ROL 1,SP. -/
theorem test_step_rol : shows (start [(0xF1, 0x80), (0x20, 0x4D), (0x21, 0x01)])
    (fun t => t.pc == 0x22 && t.cc == ⟨true, false, true, true, true⟩ && t.cell 0xF1 == 0x00) = true := by decide
/-- R258: RORA. -/
theorem test_step_rora : shows { start [(0x20, 0x0E)] with a := 0x00, cc := ⟨true, false, false, false, true⟩ }
    (fun t => t.a == 0x80 && t.pc == 0x21 && t.cc == ⟨true, true, false, true, false⟩) = true := by decide
/-- R259: ROR A,Y. -/
theorem test_step_ror : shows { start [(0x71, 0x00), (0x20, 0x8E)] with cc := ⟨true, false, false, false, true⟩ }
    (fun t => t.pc == 0x21 && t.cc == ⟨true, true, false, true, false⟩ && t.cell 0x71 == 0x80) = true := by decide
/-- R272: PSHA. -/
theorem test_step_psha : shows { start [(0x20, 0x10)] with a := 0x5A }
    (fun t => t.sp == 0xEF && t.pc == 0x21 && t.cc == ⟨true, false, false, false, false⟩ && t.cell 0xEF == 0x5A) = true := by decide
/-- R273: PSHX. -/
theorem test_step_pshx : shows { start [(0x20, 0x11)] with x := 0x12 }
    (fun t => t.sp == 0xEF && t.pc == 0x21 && t.cc == ⟨true, false, false, false, false⟩ && t.cell 0xEF == 0x12) = true := by decide
/-- R274: PSHY. -/
theorem test_step_pshy : shows { start [(0x20, 0x12)] with y := 0x34, sp := 0xEF }
    (fun t => t.sp == 0xEE && t.pc == 0x21 && t.cc == ⟨true, false, false, false, false⟩ && t.cell 0xEE == 0x34) = true := by decide
/-- R275: PSHC. -/
theorem test_step_pshc : shows { start [(0x20, 0x13)] with cc := ⟨false, true, false, false, true⟩ }
    (fun t => t.sp == 0xEF && t.pc == 0x21 && t.cc == ⟨false, true, false, false, true⟩ && t.cell 0xEF == 0x09) = true := by decide
/-- R276: PULA. -/
theorem test_step_pula : shows { start [(0xEF, 0x80), (0x20, 0x14)] with sp := 0xEF }
    (fun t => t.a == 0x80 && t.sp == 0xF0 && t.pc == 0x21 && t.cc == ⟨true, false, false, false, false⟩) = true := by decide
/-- R277: PULX. -/
theorem test_step_pulx : shows { start [(0xEE, 0x12), (0x20, 0x15)] with sp := 0xEE }
    (fun t => t.x == 0x12 && t.sp == 0xEF && t.pc == 0x21 && t.cc == ⟨true, false, false, false, false⟩) = true := by decide
/-- R278: PULY. -/
theorem test_step_puly : shows { start [(0xEE, 0x00), (0x20, 0x16)] with sp := 0xEE }
    (fun t => t.y == 0x00 && t.sp == 0xEF && t.pc == 0x21 && t.cc == ⟨true, false, false, false, false⟩) = true := by decide
/-- R279: PULC. -/
theorem test_step_pulc : shows { start [(0xEF, 0x00), (0x20, 0x17)] with sp := 0xEF, cc := ⟨true, true, true, true, true⟩ }
    (fun t => t.sp == 0xF0 && t.pc == 0x21 && t.cc == ⟨false, false, false, false, false⟩) = true := by decide
/-- R285: NOP. -/
theorem test_step_nop : shows { start [(0x20, 0x00)] with cc := ⟨true, true, false, true, true⟩ }
    (fun t => t.pc == 0x21 && t.cc == ⟨true, true, false, true, true⟩) = true := by decide
/-- A conditional branch taken and not taken (the row A = $80, M = $7F of "Villkorstest": V = 1 alone). -/
theorem test_step_branches_on_v :
    [0x26, 0x2A, 0x29, 0x25, 0x23, 0x2F, 0x2E].all (fun op =>
      shows { start [(0x20, op), (0x21, 0x10)] with cc := ⟨true, false, false, true, false⟩ }
        (fun t => t.pc == 0x32)) = true ∧
    [0x22, 0x24, 0x27, 0x28, 0x2B, 0x2C, 0x2D].all (fun op =>
      shows { start [(0x20, op), (0x21, 0x10)] with cc := ⟨true, false, false, true, false⟩ }
        (fun t => t.pc == 0x22)) = true := by decide

/-- The row A = $50, M = $50 (Z = 1 alone) with a negative offset. -/
theorem test_step_branches_on_z :
    [0x23, 0x24, 0x27, 0x29, 0x2B, 0x2D, 0x2E].all (fun op =>
      shows { start [(0x20, op), (0x21, 0xFE)] with cc := ⟨true, false, true, false, false⟩ }
        (fun t => t.pc == 0x20)) = true ∧
    [0x22, 0x25, 0x26, 0x28, 0x2A, 0x2C, 0x2F].all (fun op =>
      shows { start [(0x20, op), (0x21, 0xFE)] with cc := ⟨true, false, true, false, false⟩ }
        (fun t => t.pc == 0x22)) = true := by decide

/-! Ports, traps, interrupts, reset. -/

/-- R64: LDA $FC with PORT_IN($FC) = $5A. -/
theorem test_step_port_input :
    shows { start [(0x20, 0xF1), (0x21, 0xFC)] with env := { Env.quiet with inFC := [0x5A] } }
      (fun t => t.a == 0x5A && t.env.inFC == [] && t.out == []) = true := by decide

/-- R65, R70: INC $FB reads the input and drives the output. -/
theorem test_step_port_read_modify_write :
    shows { start [(0x20, 0x37), (0x21, 0xFB)] with env := { Env.quiet with inFB := [0x7F] } }
      (fun t => t.out == [(.fb, 0x80)] && t.cc == ⟨true, true, false, true, false⟩) = true := by decide

/-- R66: a store to a cell that is not writable. -/
theorem test_step_read_only :
    shows { start [(0x20, 0xE1), (0x21, 0x90)] with params := { Params.default with readOnly := [0x90] } }
      (fun t => t.cell 0x90 == Config.unwritten && t.pc == 0x22) = true := by decide

/-- R332: Trap on opcode $DF. -/
theorem test_step_trap :
    shows { start [(0x20, 0xDF), (0xFE, 0x70)] with cc := ⟨false, true, false, false, true⟩ }
      (fun t => t.sp == 0xEB && t.pc == 0x70 && t.cc == ⟨true, true, false, false, true⟩ && t.cell 0xEB == 0x09 &&
        t.cell 0xEC == 0x11 && t.cell 0xED == 0x40 && t.cell 0xEE == 0x60 && t.cell 0xEF == 0x21) = true := by decide

/-- R336: Trap with SP = $00: two pushes leave through the ports, and PC is the Y pushed over the vector. -/
theorem test_step_trap_over_ports :
    shows { start [(0x20, 0x03), (0xFE, 0x70), (0xFF, 0x20)] with
        sp := 0x00, cc := ⟨false, false, false, false, false⟩ }
      (fun t => t.sp == 0xFB && t.pc == 0x60 && t.cell 0xFD == 0x40 && t.cell 0xFE == 0x60 && t.cell 0xFF == 0x21 &&
        t.out == [(.fc, 0x11), (.fb, 0x00)]) = true := by decide

/-- The start state with I = 0 and an interrupt at the first boundary. -/
def interrupted (cells : List (Byte × Byte)) : State :=
  { start cells with cc := ⟨false, false, false, true, false⟩,
                     env := { Env.quiet with ccHi := [0], pins := [⟨false, true⟩, ⟨false, false⟩] } }

/-- R334: IRQ taken; the NOP at $20 is not fetched. -/
theorem test_step_irq :
    shows (interrupted [(0x20, 0x00), (0xFD, 0x60)])
      (fun t => t.sp == 0xEB && t.pc == 0x60 && t.cc == ⟨true, false, false, true, false⟩ && t.cell 0xEB == 0x02 &&
        t.cell 0xEF == 0x20) = true := by decide

/-- R340: Reset before IRQ. -/
theorem test_step_reset :
    shows { start [(0xFF, 0x20), (0xFD, 0x60)] with
        pc := 0x77, cc := ⟨false, true, false, false, true⟩, env := { Env.quiet with pins := [⟨true, true⟩] } }
      (fun t => t.pc == 0x20 && t.cc.i && t.mem == [(0xFD, 0x60)] && t.sp == 0xF0) = true := by decide

/-! The ALU function table (`49_alu_functions.md`), and the selectors. -/

theorem test_alu_constants :
    alu .f0000 0x12 0x34 true = ⟨0x00, false, true, false, false⟩ ∧
    alu .f0001 0x12 0x34 true = ⟨0xFD, true, false, false, false⟩ ∧
    alu .f0010 0x12 0x34 true = ⟨0xFE, true, false, false, false⟩ ∧
    alu .f0011 0x12 0x34 true = ⟨0xFF, true, false, false, false⟩ := by decide

theorem test_alu_subtract : alu .f1100 0x80 0x7F true = ⟨0x01, false, false, true, false⟩ ∧
    alu .f1100 0x00 0x80 true = ⟨0x80, true, false, true, true⟩ := by decide

/-- The four choices of a flag, of I and of the carry-in (R316, R317). -/
theorem test_selectors :
    flagSelector true false true true true = false ∧ flagSelector true true false false true = true ∧
    maskSelector true false false false = true ∧ maskSelector true true true false = false ∧
    carrySelector true true true = false ∧ carrySelector false true false = true := by decide

/-- R316: C is chosen by g3 g2 and bus bit 0, V by g5 g4 and bit 1, Z by g7 g6 and bit 2, N by g9 g8 and bit 3, I by g11 g10
and bit 4: each line g_k that chooses the bus, alone, with its bit 1 in a byte otherwise 0. -/
theorem test_selector_lines :
    ccSelector 0x0004 true (alu .f0110 1 0 false) 0x01 ⟨false, false, false, false, false⟩ = ⟨false, false, false, false, true⟩ ∧
    ccSelector 0x0010 true (alu .f0110 1 0 false) 0x02 ⟨false, false, false, false, false⟩ = ⟨false, false, false, true, false⟩ ∧
    ccSelector 0x0040 true (alu .f0110 1 0 false) 0x04 ⟨false, false, false, false, false⟩ = ⟨false, false, true, false, false⟩ ∧
    ccSelector 0x0100 true (alu .f0110 1 0 false) 0x08 ⟨false, false, false, false, false⟩ = ⟨false, true, false, false, false⟩ ∧
    ccSelector 0x0400 true (alu .f0110 1 0 false) 0x10 ⟨false, false, false, false, false⟩ = ⟨true, false, false, false, false⟩ := by
  decide

/-- R121: 'A' is $41, HT is $09, DEL is $7F, and 'å' is not in the table. -/
theorem test_ascii : asciiCode 'A' = some 0x41 ∧ asciiCode (Char.ofNat 9) = some 0x09 ∧
    asciiCode (Char.ofNat 127) = some 0x7F ∧ asciiCode 'å' = none := by decide +kernel

/-- R121: each of the 128 codes is the code of its character. -/
theorem test_ascii_all : ((List.range 128).all fun n => asciiCode (Char.ofNat n) == some (BitVec.ofNat 8 n)) = true ∧
    asciiTable.length = 128 := by decide +kernel

/-- R115: a string with a control character. -/
theorem test_assemble_string :
    assemble [.fcs none ['H', Char.ofNat 9, 'i']] = .ok [(0x00, 0x48), (0x01, 0x09), (0x02, 0x69)] := by rfl

/-! The assembler (`30_encoding.md` R110 to R118). -/

/-- A branch to its own address has offset $FE, also across the wrap of the address space (R118). -/
theorem test_assemble_branch_to_self :
    assembleBytes 0x20 .bra (.adr 0x20) = .ok [0x21, 0xFE] ∧
    assembleBytes 0xFF .bra (.adr 0x03) = .ok [0x21, 0x02] ∧
    assembleInstr 0x20 .blo (.adr 0x10) = assembleInstr 0x20 .bcs (.adr 0x10) := ⟨rfl, rfl, rfl⟩

/-- R111 and R99: the three prefixes, a sign, and what is no constant. -/
theorem test_assemble_numbers :
    readConst "-1".toList = some (-1) ∧ readConst "+$10".toList = some 16 ∧ readConst "-%11".toList = some (-3) ∧
    readConst "$FF".toList = some 255 ∧ readConst "--1".toList = none ∧ readConst "-".toList = none ∧
    readNumber "$3F".toList = some 63 ∧ readNumber "%101".toList = some 5 ∧ readNumber "63".toList = some 63 := by decide

/-- ORG, EQU, FCB, RMB, a label and a forward branch (R112 to R116). -/
theorem test_assemble_program :
    assemble [.org (.const 0x20), .equ "N" (.const (-1)), .op none .lda (.imm (.sym "N")),
      .op none .beq (.adr (.sym "End")), .fcb (some "T") [.const 1, .sym "T"], .rmb none (.const 2),
      .op (some "End") .nop .none, .fcs none ['A']] =
    .ok [(0x20, 0xF0), (0x21, 0xFF), (0x22, 0x24), (0x23, 0x04), (0x24, 0x01), (0x25, 0x24), (0x28, 0x00), (0x29, 0x41)] := by
  rfl

/-- R112: ORG and RMB take a symbol's value so far, whatever it is given later; labels and bytes agree. -/
theorem test_assemble_redefined :
    assemble [.equ "N" (.const 0x20), .org (.sym "N"), .fcb (some "T") [.sym "T"], .equ "N" (.const 0x80)] =
      .ok [(0x20, 0x20)] ∧
    assemble [.equ "N" (.const 2), .rmb none (.sym "N"), .fcb (some "T") [.sym "T"], .equ "N" (.const 5)] =
      .ok [(0x02, 0x02)] := ⟨rfl, rfl⟩

/-- R112: no forward reference in ORG. -/
theorem test_assemble_forward_org :
    assemble [.org (.sym "N"), .fcb none [.const 1], .equ "N" (.const 0x20)] = .error (.undefinedSymbol "N") := by rfl

/-! Witnesses: for every statement with hypotheses, states and operands that meet them, clause by clause. -/

theorem witness_DecodeInvertsEncode :
    Instr.wf (.lda (.mem (.auto .y .preDec))) = true ∧ Instr.wf (.leax (.ns 0xFF)) = true := by decide

theorem witness_EncodeInvertsDecode :
    decode [0x97, 0x00, 0x12] = .ok (.cmpa (.im 0x00), [0x12]) ∧ decode [0xFF] = .ok (.illegalFF, []) := ⟨rfl, rfl⟩

theorem witness_OpcodeByteFixesInstructionAndLength :
    opLength 0x00 = 1 ∧ opLength 0xFF = 1 ∧ (0xFF : Byte) ∈ [0x03, 0x04, 0xDF, 0xE0, 0xEF, 0xFF] ∧
    (0x03 : Byte) ∈ [0x03, 0x04, 0xDF, 0xE0, 0xEF, 0xFF] ∧
    (0x00 : Byte) ∉ [0x03, 0x04, 0xDF, 0xE0, 0xEF, 0xFF] ∧ opLength 0x01 = 2 ∧ opLength 0xF9 = 2 := by decide

theorem witness_AssemblerReadsBackItsSyntax :
    Instr.wf .illegal03 = true ∧ isIllegal .illegal03 = true ∧
    Instr.wf (.bne 0xFF) = true ∧ isIllegal (.bne 0xFF) = false := by decide

/-- One byte, and two bytes across the top of memory. -/
theorem witness_StepRunsDecodedInstruction :
    (start [(0x20, 0x00)]).fetches ∧
    decode [(memRead (start [(0x20, 0x00)]) 0x20).1] = .ok (.nop, []) ∧
    ({ start [(0xFF, 0x97), (0x00, 0x05)] with pc := 0xFF } : State).fetches ∧
    decode [(memRead (start [(0xFF, 0x97), (0x00, 0x05)]) 0xFF).1,
      (memRead (start [(0xFF, 0x97), (0x00, 0x05)]) (0xFF + 1)).1] = .ok (.cmpa (.im 0x05), []) :=
  ⟨by decide, rfl, by decide, rfl⟩

theorem witness_BootPlacesImageAndStartsAtVector : portOf 0xFA = none ∧ portOf 0xFD = none ∧ portOf 0x00 = none := by
  decide

theorem witness_ResetEventMasksAndLoadsVector :
    ({ start [] with env := { Env.quiet with pins := [⟨true, false⟩] } } : State).pinsNow.reset = true := by decide

theorem witness_InterruptEntryPushesFrame :
    (interrupted []).pinsNow.reset = false ∧ (interrupted []).pinsNow.irq = true ∧ (interrupted []).cc.i = false := by
  decide

/-- The clauses of an entry frame: pushes that are kept, at the ports, and on a read-only cell. -/
theorem witness_Entered :
    (start []).keeps (0xF0 - 1) ∧ (start []).keeps (0xF0 - 5) ∧ ¬ (start []).keeps (0xFC : Byte) ∧
    ¬ ({ start [] with params := { Params.default with readOnly := [0xEF] } } : State).keeps (0xF0 - 1) := by decide

theorem witness_TrapEntryPushesFrame :
    ([.illegal03, .illegal04, .illegalDF, .illegalE0, .illegalEF, .illegalFF] : List Instr).all
      (fun i => i ∈ ([.illegal03, .illegal04, .illegalDF, .illegalE0, .illegalEF, .illegalFF] : List Instr)) = true := by
  decide

theorem witness_MaskedInterruptIsIgnored : (start []).cc.i = true := by decide

theorem witness_InterruptThenReturnRestores :
    (interrupted [(0xFD, 0x60), (0x60, 0x44)]).pinsNow.reset = false ∧
    (interrupted [(0xFD, 0x60), (0x60, 0x44)]).pinsNow.irq = true ∧
    (interrupted [(0xFD, 0x60), (0x60, 0x44)]).cc.i = false ∧
    (interrupted [(0xFD, 0x60), (0x60, 0x44)]).frameKept ∧
    step (interrupted [(0xFD, 0x60), (0x60, 0x44)]) = .next (after (interrupted [(0xFD, 0x60), (0x60, 0x44)])) ∧
    portOf (after (interrupted [(0xFD, 0x60), (0x60, 0x44)])).pc = none ∧
    (after (interrupted [(0xFD, 0x60), (0x60, 0x44)])).cell (after (interrupted [(0xFD, 0x60), (0x60, 0x44)])).pc = 0x44 ∧
    (after (interrupted [(0xFD, 0x60), (0x60, 0x44)])).pinsNow.reset = false ∧
    (0x00 : Byte) ∉ [(0xF0 : Byte) - 1, 0xF0 - 2, 0xF0 - 3, 0xF0 - 4, 0xF0 - 5] :=
  ⟨by decide, by decide, by decide, by decide, rfl, by decide, by decide, by decide, by decide⟩

theorem witness_TrapThenReturnResumesAfterOpcode :
    (start [(0x20, 0xE0), (0xFE, 0x70), (0x70, 0x44)]).fetches ∧
    portOf (start [(0x20, 0xE0), (0xFE, 0x70), (0x70, 0x44)]).pc = none ∧
    (start [(0x20, 0xE0), (0xFE, 0x70), (0x70, 0x44)]).cell 0x20 ∈ ([0x03, 0x04, 0xDF, 0xE0, 0xEF, 0xFF] : List Byte) ∧
    (start [(0x20, 0xE0), (0xFE, 0x70), (0x70, 0x44)]).frameKept ∧
    step (start [(0x20, 0xE0), (0xFE, 0x70), (0x70, 0x44)]) =
      .next (after (start [(0x20, 0xE0), (0xFE, 0x70), (0x70, 0x44)])) ∧
    (after (start [(0x20, 0xE0), (0xFE, 0x70), (0x70, 0x44)])).fetches ∧
    portOf (after (start [(0x20, 0xE0), (0xFE, 0x70), (0x70, 0x44)])).pc = none ∧
    (after (start [(0x20, 0xE0), (0xFE, 0x70), (0x70, 0x44)])).cell 0x70 = 0x44 ∧
    (after (start [(0x20, 0xE0), (0xFE, 0x70), (0x70, 0x44)])).pc = 0x70 :=
  ⟨by decide, by decide, by decide, by decide, rfl, by decide, by decide, by decide, by decide⟩

/-- Both ways to be at the end of a run. -/
theorem witness_EndOfRunLoopsInPlace :
    (start [(0x20, 0x21), (0x21, 0xFE)]).atEnd ∧ (start [(0x20, 0x33), (0x21, 0x20)]).atEnd := by decide

theorem witness_StepKeepsMemoryCanonical :
    (start [(0x20, 0x10)]).mem.wf ∧ step (start [(0x20, 0x10)]) = .next (after (start [(0x20, 0x10)])) :=
  ⟨by decide, rfl⟩

/-- The statements over all instructions: an execution that answers a next state, writing each register, each flag, and
memory; and one that stores nothing. -/
theorem witness_exec_answers_next :
    exec .rti (start []) = .next (done .rti (start [])) ∧
    exec (.adda (.im 0x80)) (start []) = .next (done (.adda (.im 0x80)) (start [])) ∧
    exec (.sta (.auto .x .preInc)) (start []) = .next (done (.sta (.auto .x .preInc)) (start [])) ∧
    exec .illegalFF (start []) = .next (done .illegalFF (start [])) :=
  ⟨rfl, rfl, rfl, rfl⟩

theorem witness_OnlyListedInstructionsWriteRegisters :
    writesA (.sta (.cell .ax)) = false ∧ writesX (.sta (.auto .y .preInc)) = false ∧ writesY (.sta (.auto .x .preInc)) = false ∧
    writesSp .rora = false ∧ writesPc .puly = false := by decide

/-- Addresses outside and inside the stored ones, stores with and without a port among them. -/
theorem witness_StoresStayAtComputedAddresses :
    (0x42 : Byte) ∉ storeAddresses (.sta (.auto .x .preInc)) (start []) ∧
    storeAddresses (.sta (.auto .x .preInc)) (start []) = [0x41] ∧ portOf 0x41 = none ∧
    storeAddresses .illegal04 (start []) = [0xEF, 0xEE, 0xED, 0xEC, 0xEB] ∧
    storeAddresses (.tst .ay) (start []) = [] := by decide

theorem witness_ReadOnlyCellsAndPortsHoldNoStores :
    (0x90 : Byte) ∈ ({ start [] with params := { Params.default with readOnly := [0x90] } } : State).params.readOnly ∧
    step { start [(0x20, 0xE1), (0x21, 0x90)] with params := { Params.default with readOnly := [0x90] } } =
      .next (after { start [(0x20, 0xE1), (0x21, 0x90)] with params := { Params.default with readOnly := [0x90] } }) :=
  ⟨by decide, rfl⟩

theorem witness_OutputEventsOnlyGrow :
    step (start [(0x20, 0xE1), (0x21, 0xFB)]) = .next (after (start [(0x20, 0xE1), (0x21, 0xFB)])) ∧
    (after (start [(0x20, 0xE1), (0x21, 0xFB)])).out = [(.fb, 0x11)] := ⟨rfl, rfl⟩

/-- The five ways from I = 1 to I = 0. -/
theorem witness_OnlyFiveInstructionsUnmask :
    [[(0x20, 0x01), (0x21, 0xEF)], [(0x20, 0x18)], [(0x20, 0x9F)], [(0x20, 0x17), (0xF0, 0x0F)],
      [(0x20, 0x44), (0xF0, 0x0F)]].all (fun cells =>
        (start cells).cc.i &&
          shows { start cells with a := 0x0F } (fun t => !t.cc.i)) = true := by decide

/-- A cell, a port with a byte waiting, a port whose script has ended. -/
theorem witness_MemoryPrimitivesFollowTheMap :
    portOf 0xFA = none ∧ portOf 0xFB = some .fb ∧ portOf 0xFC = some .fc ∧
    ({ Env.quiet with inFB := [0x5A] } : Env).input .fb = [0x5A] ∧ Env.quiet.input .fc = [] := by decide

/-- The clauses of one store: a writable cell, a read-only one, a port, another byte. -/
theorem witness_Stored :
    (start []).keeps (0xFA : Byte) ∧ ¬ (start []).keeps (0xFB : Byte) ∧
    ¬ ({ start [] with params := { Params.default with readOnly := [0xFA] } } : State).keeps (0xFA : Byte) ∧
    portOf 0xFC = some .fc ∧ (0xFA : Byte) ≠ 0xFB := by decide

/-- STA over the cells that are fetched next: the opcode of NOP, the opcode of LDA #Data, the operand byte of LDA #Data at the
top of memory. -/
theorem witness_StoreIsSeenByNextFetch :
    (exec (.sta (.cell (.ab 0x20))) { start [] with a := 0x00 } =
        .next (done (.sta (.cell (.ab 0x20))) { start [] with a := 0x00 }) ∧
      memAddress (.cell (.ab 0x20)) { start [] with a := 0x00 } = 0x20 ∧ (start []).keeps (0x20 : Byte) ∧
      (done (.sta (.cell (.ab 0x20))) { start [] with a := 0x00 }).fetches ∧ decode [0x00] = .ok (.nop, [])) ∧
    (exec (.sta (.cell (.ab 0x20))) { start [(0x21, 0x05)] with a := 0xF0 } =
        .next (done (.sta (.cell (.ab 0x20))) { start [(0x21, 0x05)] with a := 0xF0 }) ∧
      (done (.sta (.cell (.ab 0x20))) { start [(0x21, 0x05)] with a := 0xF0 }).fetches ∧
      decode [0xF0, (memRead (done (.sta (.cell (.ab 0x20))) { start [(0x21, 0x05)] with a := 0xF0 }) 0x21).1] =
        .ok (.lda (.im 0x05), [])) ∧
    (exec (.sta (.cell (.ab 0x00))) { start [(0xFF, 0xF0)] with pc := 0xFF } =
        .next (done (.sta (.cell (.ab 0x00))) { start [(0xFF, 0xF0)] with pc := 0xFF }) ∧
      memAddress (.cell (.ab 0x00)) { start [(0xFF, 0xF0)] with pc := 0xFF } = (0xFF : Byte) + 1 ∧
      (start []).keeps (0x00 : Byte) ∧
      (done (.sta (.cell (.ab 0x00))) { start [(0xFF, 0xF0)] with pc := 0xFF }).fetches ∧
      decode [(memRead (done (.sta (.cell (.ab 0x00))) { start [(0xFF, 0xF0)] with pc := 0xFF }) 0xFF).1, 0x11] =
        .ok (.lda (.im 0x11), [])) :=
  ⟨⟨rfl, by decide, by decide, by decide, rfl⟩, ⟨rfl, by decide, rfl⟩, ⟨rfl, by decide, by decide, by decide, rfl⟩⟩

/-- Each condition of a branch holds in one state and fails in another. -/
theorem witness_SingleFlagBranches :
    (start []).cc.n = false ∧ (start []).cc.z = false ∧ (start []).cc.v = false ∧ (start []).cc.c = false ∧
    State.reset.cc.n = true ∧ State.reset.cc.z = true ∧ State.reset.cc.v = true ∧ State.reset.cc.c = true := by decide

theorem witness_CombinedFlagBranches :
    ((start []).cc.c = false ∧ (start []).cc.z = false) ∧ (State.reset.cc.c = true ∨ State.reset.cc.z = true) ∧
    ((start []).cc.n = (start []).cc.v ∧ (start []).cc.z = false) ∧ State.reset.cc.n = State.reset.cc.v ∧
    ((interrupted []).cc.n ≠ (interrupted []).cc.v ∨ (interrupted []).cc.z = true) ∧
    (interrupted []).cc.n ≠ (interrupted []).cc.v := by decide

/-- Each of the five instructions answers a next state; operands on both sides of every relation, at its boundary. -/
theorem witness_BranchesAfterCompareMeanTheirRelation :
    exec (.cmpa (.im 0x11)) (start []) = .next (done (.cmpa (.im 0x11)) (start [])) ∧
    exec (.cmpx (.im 0x80)) (start []) = .next (done (.cmpx (.im 0x80)) (start [])) ∧
    exec (.cmpy (.im 0x00)) (start []) = .next (done (.cmpy (.im 0x00)) (start [])) ∧
    exec (.cmpsp (.im 0x7F)) (start []) = .next (done (.cmpsp (.im 0x7F)) (start [])) ∧
    exec (.suba (.im 0xFF)) (start []) = .next (done (.suba (.im 0xFF)) (start [])) :=
  ⟨rfl, rfl, rfl, rfl, rfl⟩

/-- $01FF + $0001 = $0200: the low bytes carry, the high bytes take the carry. -/
theorem witness_SixteenBitSumThroughCarry :
    exec (.adda (.im 0x01)) { start [] with a := 0xFF } = .next (done (.adda (.im 0x01)) { start [] with a := 0xFF }) ∧
    exec (.lda (.im 0x01)) (done (.adda (.im 0x01)) { start [] with a := 0xFF }) =
      .next (done (.lda (.im 0x01)) (done (.adda (.im 0x01)) { start [] with a := 0xFF })) ∧
    exec (.adca (.im 0x00)) (done (.lda (.im 0x01)) (done (.adda (.im 0x01)) { start [] with a := 0xFF })) =
      .next (done (.adca (.im 0x00)) (done (.lda (.im 0x01)) (done (.adda (.im 0x01)) { start [] with a := 0xFF }))) ∧
    (done (.adca (.im 0x00)) (done (.lda (.im 0x01)) (done (.adda (.im 0x01)) { start [] with a := 0xFF }))).a = 0x02 :=
  ⟨rfl, rfl, rfl, rfl⟩

theorem witness_NineRotatesRestore :
    exec .rola (start []) = .next (done .rola (start [])) ∧
    exec .rora (done .rola (start [])) = .next (done .rora (done .rola (start []))) := ⟨rfl, rfl⟩

theorem witness_PushAndPullOfCc :
    (start []).keeps ((start []).sp - 1) ∧ exec .pshc (start []) = .next (done .pshc (start [])) ∧
    exec .pulc (done .pshc (start [])) = .next (done .pulc (done .pshc (start []))) := ⟨by decide, rfl, rfl⟩

theorem witness_NopDoesNothing :
    (start [(0x20, 0x00)]).fetches ∧ portOf (start [(0x20, 0x00)]).pc = none ∧ (start [(0x20, 0x00)]).cell 0x20 = 0x00 := by
  decide

end Sys2Proof.Tests
end

/-! The state (`10_state.md`): what each instruction leaves unchanged, the flag table, the canonical memory, reset values
and the interrupt mask. -/

namespace Sys2Proof.Machine

open Sys2Proof

/-! The shapes of instruction, field by field. -/

section Shapes
variable (row : FlagRow) (f : Byte → AluOut) (o : Source) (c : Cell) (s : State)

@[simp] theorem accumulate_x : (accumulate row f o s).x = s.x := by rw [accumulate_spec]
@[simp] theorem accumulate_y : (accumulate row f o s).y = s.y := by rw [accumulate_spec]
@[simp] theorem accumulate_sp : (accumulate row f o s).sp = s.sp := by rw [accumulate_spec]
@[simp] theorem accumulate_pc : (accumulate row f o s).pc = s.pc := by rw [accumulate_spec]
@[simp] theorem accumulate_mem : (accumulate row f o s).mem = s.mem := by rw [accumulate_spec]
@[simp] theorem accumulate_cc :
    (accumulate row f o s).cc = row.apply (f (readSource o s).1) s.cc := by rw [accumulate_spec]

@[simp] theorem testSource_a : (testSource row f o s).a = s.a := by rw [testSource_spec]
@[simp] theorem testSource_x : (testSource row f o s).x = s.x := by rw [testSource_spec]
@[simp] theorem testSource_y : (testSource row f o s).y = s.y := by rw [testSource_spec]
@[simp] theorem testSource_sp : (testSource row f o s).sp = s.sp := by rw [testSource_spec]
@[simp] theorem testSource_pc : (testSource row f o s).pc = s.pc := by rw [testSource_spec]
@[simp] theorem testSource_mem : (testSource row f o s).mem = s.mem := by rw [testSource_spec]
@[simp] theorem testSource_cc :
    (testSource row f o s).cc = row.apply (f (readSource o s).1) s.cc := by rw [testSource_spec]

@[simp] theorem modifyCell_a : (modifyCell row f c s).a = s.a := by rw [modifyCell_frame]
@[simp] theorem modifyCell_x : (modifyCell row f c s).x = s.x := by rw [modifyCell_frame]
@[simp] theorem modifyCell_y : (modifyCell row f c s).y = s.y := by rw [modifyCell_frame]
@[simp] theorem modifyCell_sp : (modifyCell row f c s).sp = s.sp := by rw [modifyCell_frame]
@[simp] theorem modifyCell_pc : (modifyCell row f c s).pc = s.pc := by rw [modifyCell_frame]
@[simp] theorem modifyCell_cc :
    (modifyCell row f c s).cc = row.apply (f (memRead s (ea c s)).1) s.cc := by rw [modifyCell_frame]

@[simp] theorem returnFromException_mem : (returnFromException s).mem = s.mem :=
  (returnFromException_frame s).2.1

/-- The register step of an operand of LDA is all that its read does to X. -/
theorem readLoad_x (m : MemOperand) : (readLoad (.mem m) s).2.x = (stepRegister m s).x := by simp
theorem readLoad_y (m : MemOperand) : (readLoad (.mem m) s).2.y = (stepRegister m s).y := by simp
theorem storeTo_x (m : MemOperand) (v : Byte) : (storeTo m v s).x = (stepRegister m s).x := memWrite_x _ _ _
theorem storeTo_y (m : MemOperand) (v : Byte) : (storeTo m v s).y = (stepRegister m s).y := memWrite_y _ _ _

end Shapes

/-! The canonical form of the memory (`10_state.md` R38). -/

theorem takeTrap_wf {s : State} (h : s.mem.wf) : (takeTrap s).mem.wf := by
  rw [takeTrap_mem]; exact pushFrame_wf h

theorem takeIrq_wf {s : State} (h : s.mem.wf) : (takeIrq s).mem.wf := by
  rw [takeIrq_mem]; exact pushFrame_wf h

/-- Every instruction keeps the canonical form: it stores through the memory primitives or not at all. -/
theorem exec_wf {i : Instr} {s t : State} (h : exec i s = .next t) (hwf : s.mem.wf) : t.mem.wf := by
  cases i with
  | sta m => injection h with ht; subst ht; exact storeTo_wf m s.a hwf
  | stx c | sty c | stsp c | clr c => injection h with ht; subst ht; exact memWrite_wf _ _ hwf
  | neg c | inc c | dec c | com c | lsl c | lsr c | rol c | ror c | asr c =>
    injection h with ht; subst ht; exact modifyCell_wf _ _ _ hwf
  | psha | pshx | pshy | jsr _ | bsr _ => injection h with ht; subst ht; exact push_wf _ hwf
  | pshc => injection h with ht; subst ht; exact push_wf _ (by rwa [copyCc_mem])
  | illegal03 | illegal04 | illegalDF | illegalE0 | illegalEF | illegalFF =>
    injection h with ht; subst ht; exact takeTrap_wf hwf
  | _ =>
    have hmem : t.mem = s.mem := by injection h with ht; subst ht; simp
    rwa [hmem]

/-- Settles O17: a reset stores nothing, an interrupt entry and an instruction store through the memory primitives. -/
theorem stepKeepsMemoryCanonical : Obligations.StepKeepsMemoryCanonical := by
  intro s t hwf h
  rcases step_cases s with ⟨-, hs⟩ | ⟨-, -, -, hs⟩ | ⟨-, -, hs⟩ <;> rw [hs] at h
  · injection h with ht; subst ht; rwa [takeReset_mem]
  · injection h with ht; subst ht; exact takeIrq_wf hwf
  · exact exec_wf h (by rwa [fetchInstr_mem])

/-- Settles O18: a reset stores nothing, and an image is loaded into the empty memory by writes. -/
theorem resetAndImagesAreCanonical : Obligations.ResetAndImagesAreCanonical := by
  refine ⟨Memory.wf_nil, fun image => ?_⟩
  rw [State.boot, takeReset_mem]
  exact Memory.wf_load image Memory.wf_nil

/-! The flag table (`10_state.md` R33). -/

/-- Each of the five flags obeys its column. -/
def FlagColumns.Allow (cols : FlagColumns) (old new : CC) : Prop :=
  cols.i.allows old.i new.i ∧ cols.n.allows old.n new.n ∧ cols.z.allows old.z new.z ∧
    cols.v.allows old.v new.v ∧ cols.c.allows old.c new.c

/-- The columns of an instruction that writes its flags through a row of N Z V C columns. -/
def FlagRow.columns (r : FlagRow) : FlagColumns := ⟨.keep, r.n, r.z, r.v, r.c⟩

theorem FlagRule.allows_apply (r : FlagRule) (output old : Bool) : r.allows old (r.apply output old) := by
  cases r with
  | delta => trivial
  | keep | clear | set => rfl

/-- What a row computes obeys its columns. -/
theorem FlagRow.columns_allow_apply (r : FlagRow) (o : AluOut) (cc : CC) : r.columns.Allow cc (r.apply o cc) :=
  ⟨rfl, r.n.allows_apply o.n cc.n, r.z.allows_apply o.z cc.z, r.v.allows_apply o.v cc.v, r.c.allows_apply o.c cc.c⟩

/-- "-" in every column: CC is unchanged. -/
theorem FlagColumns.allow_untouched {old new : CC} (h : new = old) :
    (⟨.keep, .keep, .keep, .keep, .keep⟩ : FlagColumns).Allow old new := by
  subst h; exact ⟨rfl, rfl, rfl, rfl, rfl⟩

/-- The columns of a load of CC, I only under `CC_LOAD_WRITES_I` (D14). -/
theorem loadCc_allowed (v : Byte) (s : State) :
    (⟨if s.params.ccLoadWritesI then .delta else .keep, .delta, .delta, .delta, .delta⟩ : FlagColumns).Allow
      s.cc (loadCc v s).cc := by
  rw [loadCc_cc]
  refine ⟨?_, trivial, trivial, trivial, trivial⟩
  cases s.params.ccLoadWritesI
  · rfl
  · trivial

/-- The columns of the trap entry, which sets I under `TRAP_SETS_I` (`60_exceptions.md` R337). -/
theorem takeTrap_allowed (s : State) :
    (⟨if s.params.trapSetsI then .set else .keep, .keep, .keep, .keep, .keep⟩ : FlagColumns).Allow
      s.cc (takeTrap s).cc := by
  rw [takeTrap_cc]
  refine ⟨?_, rfl, rfl, rfl, rfl⟩
  cases s.params.trapSetsI <;> rfl

/-- Every instruction obeys its row of the flag table. -/
theorem exec_allowed {i : Instr} {s t : State} (h : exec i s = .next t) : (flagColumns s.params i).Allow s.cc t.cc := by
  cases i with
  | clra | nega | inca | deca | coma | lsla | lsra | rola | rora | asra | tsta =>
    injection h with ht; subst ht; exact FlagRow.columns_allow_apply _ _ _
  | clr c =>
    injection h with ht; subst ht; rw [State.setFlags_cc, memWrite_cc]; exact rowClear.columns_allow_apply _ _
  | tst c =>
    injection h with ht; subst ht; rw [State.setFlags_cc, memRead_cc]; exact rowTest.columns_allow_apply _ _
  | neg c | inc c | dec c | com c | lsl c | lsr c | rol c | ror c | asr c =>
    injection h with ht; subst ht; rw [modifyCell_cc]; exact FlagRow.columns_allow_apply _ _ _
  | adda o | adca o | suba o | sbca o | anda o | ora o | eora o =>
    injection h with ht; subst ht; rw [accumulate_cc]; exact FlagRow.columns_allow_apply _ _ _
  | cmpa o | cmpx o | cmpy o | cmpsp o | bita o =>
    injection h with ht; subst ht; rw [testSource_cc]; exact FlagRow.columns_allow_apply _ _ _
  | lda o =>
    injection h with ht; subst ht; rw [writeA_cc, readLoad_cc]; exact rowLogic.columns_allow_apply _ _
  | ldx o =>
    injection h with ht; subst ht; rw [State.setFlags_cc, State.setX_cc, readSource_cc]; exact rowLogic.columns_allow_apply _ _
  | ldy o =>
    injection h with ht; subst ht; rw [State.setFlags_cc, State.setY_cc, readSource_cc]; exact rowLogic.columns_allow_apply _ _
  | ldsp o =>
    injection h with ht; subst ht; rw [State.setFlags_cc, State.setSp_cc, readSource_cc]; exact rowLogic.columns_allow_apply _ _
  | andcc _ | orcc _ | rti => exact ⟨trivial, trivial, trivial, trivial, trivial⟩
  | tfrACc => injection h with ht; subst ht; exact loadCc_allowed s.a s
  | exgACc => injection h with ht; subst ht; simpa [flagColumns] using loadCc_allowed s.a (copyCc s).2
  | pulc => injection h with ht; subst ht; simpa [flagColumns] using loadCc_allowed (pull s).1 (pull s).2
  | illegal03 | illegal04 | illegalDF | illegalE0 | illegalEF | illegalFF => injection h with ht; subst ht; exact takeTrap_allowed s
  | _ => injection h with ht; subst ht; exact FlagColumns.allow_untouched (by simp)

/-- Settles O19, instruction by instruction. -/
theorem flagColumnsAreKept : Obligations.FlagColumnsAreKept :=
  fun _ _ _ h => exec_allowed h

/-! The writers of each register (`10_state.md` R21 to R25). -/

theorem exec_keeps_a {i : Instr} {s t : State} (h : exec i s = .next t) (hw : writesA i = false) : t.a = s.a := by
  cases i with
  | lda _ | pula | tfrCcA | exgACc | rti | adda _ | adca _ | suba _ | sbca _ | anda _ | ora _ | eora _ | clra | nega
  | inca | deca | coma | lsla | lsra | asra | rola | rora => cases hw
  | _ => injection h with ht; subst ht; simp

theorem stepRegister_keeps_x {m : MemOperand} (hm : ∀ k, m ≠ .auto .x k) (s : State) : (stepRegister m s).x = s.x := by
  rw [stepRegister_x]
  split
  · next k => exact absurd rfl (hm k)
  · rfl

theorem exec_keeps_x {i : Instr} {s t : State} (h : exec i s = .next t) (hw : writesX i = false) : t.x = s.x := by
  cases i with
  | ldx _ | leax _ | pulx | tfrYX | tfrSpX | exgXY | exgXSp | rti => cases hw
  | lda o =>
    injection h with ht; subst ht
    cases o with
    | im d => rfl
    | mem m => rw [writeA_x, readLoad_x]; exact stepRegister_keeps_x (by rintro k rfl; cases hw) s
  | sta m => injection h with ht; subst ht; rw [storeTo_x]; exact stepRegister_keeps_x (by rintro k rfl; cases hw) s
  | _ => injection h with ht; subst ht; simp

theorem stepRegister_keeps_y {m : MemOperand} (hm : ∀ k, m ≠ .auto .y k) (s : State) : (stepRegister m s).y = s.y := by
  rw [stepRegister_y]
  split
  · next k => exact absurd rfl (hm k)
  · rfl

theorem exec_keeps_y {i : Instr} {s t : State} (h : exec i s = .next t) (hw : writesY i = false) : t.y = s.y := by
  cases i with
  | ldy _ | leay _ | puly | tfrXY | tfrSpY | exgXY | exgYSp | rti => cases hw
  | lda o =>
    injection h with ht; subst ht
    cases o with
    | im d => rfl
    | mem m => rw [writeA_y, readLoad_y]; exact stepRegister_keeps_y (by rintro k rfl; cases hw) s
  | sta m => injection h with ht; subst ht; rw [storeTo_y]; exact stepRegister_keeps_y (by rintro k rfl; cases hw) s
  | _ => injection h with ht; subst ht; simp

theorem exec_keeps_sp {i : Instr} {s t : State} (h : exec i s = .next t) (hw : writesSp i = false) : t.sp = s.sp := by
  cases i with
  | ldsp _ | leasp _ | tfrXSp | tfrYSp | exgXSp | exgYSp | psha | pshx | pshy | pshc | pula | pulx | puly | pulc | jsr _
  | bsr _ | rts | rti | illegal03 | illegal04 | illegalDF | illegalE0 | illegalEF | illegalFF => cases hw
  | _ => injection h with ht; subst ht; simp

theorem exec_keeps_pc {i : Instr} {s t : State} (h : exec i s = .next t) (hw : writesPc i = false) : t.pc = s.pc := by
  cases i with
  | jmp _ | jsr _ | bra _ | bsr _ | rts | rti | bmi _ | bpl _ | beq _ | bne _ | bvs _ | bvc _ | bcs _ | bcc _ | bhi _
  | bls _ | bgt _ | bge _ | ble _ | blt _ | illegal03 | illegal04 | illegalDF | illegalE0 | illegalEF
  | illegalFF => cases hw
  | _ => injection h with ht; subst ht; simp

/-- Settles O20, register by register. -/
theorem onlyListedInstructionsWriteRegisters : Obligations.OnlyListedInstructionsWriteRegisters :=
  fun _ _ _ h => ⟨exec_keeps_a h, exec_keeps_x h, exec_keeps_y h, exec_keeps_sp h, exec_keeps_pc h⟩

/-! The interrupt mask (`10_state.md` R31). -/

/-- The flag table lets I go from 1 to 0 in six instructions; ORCC is among them, since its column is "Δ". -/
theorem flagColumns_i_allows_clear {p : Params} {i : Instr} (h : (flagColumns p i).i.allows true false) :
    (∃ d, i = .andcc d) ∨ (∃ d, i = .orcc d) ∨ i ∈ [.tfrACc, .exgACc, .pulc, .rti] := by
  cases i with
  | andcc d => exact .inl ⟨d, rfl⟩
  | orcc d => exact .inr (.inl ⟨d, rfl⟩)
  | tfrACc | exgACc | pulc | rti => exact .inr (.inr (by simp))
  | illegal03 | illegal04 | illegalDF | illegalE0 | illegalEF | illegalFF =>
    cases hp : p.trapSetsI <;> simp [flagColumns, FlagRule.allows, hp] at h
  | _ => cases h

/-- ORCC never clears I (`45_logical.md` R238). -/
theorem exec_orcc_keeps_mask {d : Byte} {s t : State} (h : exec (.orcc d) s = .next t) (hi : s.cc.i = true) :
    t.cc.i = true := by
  injection h with ht; subst ht; simp [hi]

/-- An instruction that clears I is one of the five. -/
theorem exec_unmasks {i : Instr} {s t : State} (h : exec i s = .next t) (hi : s.cc.i = true) (ht : t.cc.i = false) :
    (∃ d, i = .andcc d) ∨ i ∈ [.tfrACc, .exgACc, .pulc, .rti] := by
  obtain ⟨hcol, -⟩ := exec_allowed h
  rw [hi, ht] at hcol
  rcases flagColumns_i_allows_clear hcol with hand | ⟨d, rfl⟩ | hlist
  · exact .inl hand
  · have := exec_orcc_keeps_mask h hi
    simp [ht] at this
  · exact .inr hlist

/-- Settles O24: a reset sets I, an interrupt entry needs I = 0, and an instruction obeys the flag table. -/
theorem onlyFiveInstructionsUnmask : Obligations.OnlyFiveInstructionsUnmask := by
  intro s t h hi ht
  rcases step_cases s with ⟨-, hs⟩ | ⟨-, -, hclear, -⟩ | ⟨hreset, hirq, hs⟩
  · rw [hs] at h; injection h with hst; subst hst; simp at ht
  · simp [hi] at hclear
  · rw [hs] at h
    exact ⟨⟨hreset, hirq⟩, exec_unmasks h (by simpa using hi) ht⟩

/-! The masked interrupt (`60_exceptions.md` R334). -/

/-- A boundary at which nothing is taken: the step is the fetched instruction (`60_exceptions.md` R330). -/
theorem step_of_fetches {s : State} (h : s.fetches) :
    step s = exec (fetchInstr s.passBoundary).1 (fetchInstr s.passBoundary).2 := by
  obtain ⟨hreset, hirq⟩ := h
  rcases step_cases s with ⟨hr, -⟩ | ⟨-, hq, hi, -⟩ | ⟨-, -, hs⟩
  · simp [hreset] at hr
  · simp [hq, hi] at hirq
  · exact hs

/-- Settles O11: with I = 1 both samples let the instruction start, and the fetch sees the script after the sample only. -/
theorem maskedInterruptIsIgnored : Obligations.MaskedInterruptIsIgnored := by
  intro s later hi
  have hasserted := step_of_fetches (s := s.setEnv { s.env with pins := ⟨false, true⟩ :: later }) ⟨rfl, .inr hi⟩
  have hquiet := step_of_fetches (s := s.setEnv { s.env with pins := ⟨false, false⟩ :: later }) ⟨rfl, .inl rfl⟩
  exact hasserted.trans hquiet.symm

/-! Power-on (`10_state.md` R40). -/

/-- The byte an image gives an address: that of its last cell there. -/
def lastPlaced (image : List (Byte × Byte)) (adr : Byte) : Option Byte :=
  (image.reverse.find? fun c => c.1 == adr).map Prod.snd

/-- The first cell of an image counts where no later one lies at its address. -/
theorem lastPlaced_cons (a v : Byte) (image : List (Byte × Byte)) (adr : Byte) :
    lastPlaced ((a, v) :: image) adr = (lastPlaced image adr).or (if a = adr then some v else none) := by
  unfold lastPlaced
  rw [List.reverse_cons, List.find?_append, Option.map_or]
  by_cases h : a = adr <;> simp [h]

/-- A cell of a loaded image holds the last byte placed there, or what the memory held before. -/
theorem Memory.read_load (m : Memory) (image : List (Byte × Byte)) {adr : Byte} (h : portOf adr = none) :
    (Memory.load m image).read adr.toNat = (lastPlaced image adr).getD (m.read adr.toNat) := by
  induction image generalizing m with
  | nil => rfl
  | cons c image ih =>
    obtain ⟨a, v⟩ := c
    rw [Memory.load, ih, lastPlaced_cons]
    by_cases ha : a = adr
    · subst ha
      cases lastPlaced image a <;> simp [h]
    · have hne : adr.toNat ≠ a.toNat := fun e => ha (BitVec.eq_of_toNat_eq e.symm)
      cases lastPlaced image adr <;> simp [ha, apply_ite (Memory.read · adr.toNat), Memory.read_write_other m v hne]

/-- Settles O7: the reset reads the vector from the loaded memory and leaves that memory as it is. -/
theorem bootPlacesImageAndStartsAtVector : Obligations.BootPlacesImageAndStartsAtVector := by
  refine ⟨rfl, rfl, fun image => ⟨?_, ?_, fun adr hadr => ?_⟩⟩
  · rw [State.boot, takeReset_cc]
  · rw [State.boot, takeReset_spec]; rfl
  · have hmem : (State.boot image).mem = Memory.load [] image := by rw [State.boot, takeReset_mem]; rfl
    rw [State.cell, hmem]
    exact Memory.read_load [] image hadr

end Sys2Proof.Machine

/-! Memory, stores and ports (`20_memory.md`): the stores of an instruction as a sequence of single stores, what such a
sequence leaves alone, the memory primitives, and the fetch of a byte just stored. -/

namespace Sys2Proof.Machine

open Sys2Proof

/-! Sequences of stores. -/

/-- `t` follows `s` by single stores at the listed addresses, in their order, and between them by changes of the
registers and the environment only. -/
inductive StoresAt : List Byte → State → State → Prop
  /-- No store. -/
  | refl (s : State) : StoresAt [] s s
  /-- A change of registers or environment, before further stores. -/
  | idle {adrs : List Byte} {s u t : State} (hmem : u.mem = s.mem) (hout : u.out = s.out)
      (hparams : u.params = s.params) (rest : StoresAt adrs u t) : StoresAt adrs s t
  /-- One store, before further stores. -/
  | store {adr v : Byte} {adrs : List Byte} {s u t : State} (hstored : Stored s u adr v)
      (hparams : u.params = s.params) (rest : StoresAt adrs u t) : StoresAt (adr :: adrs) s t

namespace StoresAt

variable {adrs adrs' : List Byte} {s u t : State}

/-- Two sequences of stores, one after the other. -/
theorem trans (h : StoresAt adrs s u) (h' : StoresAt adrs' u t) : StoresAt (adrs ++ adrs') s t := by
  induction h with
  | refl s => exact h'
  | idle hmem hout hparams _ ih => exact .idle hmem hout hparams (ih h')
  | store hstored hparams _ ih => exact .store hstored hparams (ih h')

/-- A change of registers and environment alone. -/
theorem of_idle (hmem : t.mem = s.mem) (hout : t.out = s.out) (hparams : t.params = s.params) : StoresAt [] s t :=
  .idle hmem hout hparams (.refl t)

/-- One store alone. -/
theorem of_stored {adr v : Byte} (hstored : Stored s t adr v) (hparams : t.params = s.params) : StoresAt [adr] s t :=
  .store hstored hparams (.refl t)

/-- A change of registers and environment after the last store. -/
theorem then_idle (h : StoresAt adrs s u) (hmem : t.mem = u.mem) (hout : t.out = u.out)
    (hparams : t.params = u.params) : StoresAt adrs s t := by
  simpa using h.trans (.of_idle hmem hout hparams)

theorem params_eq (h : StoresAt adrs s t) : t.params = s.params := by
  induction h with
  | refl s => rfl
  | idle _ _ hparams _ ih | store _ hparams _ ih => rw [ih, hparams]

/-- A byte stays what it was if no store goes to it. -/
theorem cell_of_not_mem (h : StoresAt adrs s t) {b : Byte} (hb : b ∉ adrs) : t.cell b = s.cell b := by
  induction h with
  | refl s => rfl
  | idle hmem _ _ _ ih => rw [ih hb, State.cell_congr hmem]
  | store hstored _ _ ih =>
    obtain ⟨hne, hrest⟩ := not_or.1 (List.mem_cons.not.1 hb)
    obtain ⟨-, -, hother, -, -⟩ := hstored
    rw [ih hrest, hother b hne]

/-- A byte that does not keep what is written to it stays what it was, stored to or not (`20_memory.md` R65, R66). -/
theorem cell_of_not_keeps (h : StoresAt adrs s t) {b : Byte} (hb : ¬ s.keeps b) : t.cell b = s.cell b := by
  induction h with
  | refl s => rfl
  | idle hmem _ hparams _ ih => rw [ih (by simpa [hparams] using hb), State.cell_congr hmem]
  | @store adr _ _ s u _ hstored hparams _ ih =>
    obtain ⟨-, hkept, hother, -, -⟩ := hstored
    have hu : u.cell b = s.cell b := by
      by_cases he : b = adr
      · subst he; exact hkept hb
      · exact hother b he
    rw [ih (by simpa [hparams] using hb), hu]

/-- Stores to cells send nothing out. -/
theorem out_of_no_port (h : StoresAt adrs s t) (hp : ∀ b ∈ adrs, portOf b = none) : t.out = s.out := by
  induction h with
  | refl s => rfl
  | idle _ hout _ _ ih => rw [ih hp, hout]
  | store hstored _ _ ih =>
    obtain ⟨hfirst, hrest⟩ := List.forall_mem_cons.1 hp
    obtain ⟨-, -, -, hcell, -⟩ := hstored
    rw [ih hrest, hcell hfirst]

/-- Each store adds one output event at most (`20_memory.md` R65). -/
theorem out_grows (h : StoresAt adrs s t) :
    ∃ new : List (Port × Byte), t.out = s.out ++ new ∧ new.length ≤ adrs.length := by
  induction h with
  | refl s => exact ⟨[], by simp⟩
  | idle _ hout _ _ ih => rwa [hout] at ih
  | @store adr v _ _ _ _ hstored _ _ ih =>
    obtain ⟨-, -, -, hcell, hport⟩ := hstored
    obtain ⟨new, hnew, hlen⟩ := ih
    cases hp : portOf adr with
    | none => exact ⟨new, by rw [hnew, hcell hp], Nat.le_succ_of_le hlen⟩
    | some p => exact ⟨(p, v) :: new, by rw [hnew, hport p hp]; simp, Nat.succ_le_succ hlen⟩

end StoresAt

/-! The stores of the shared operations. -/

section Shapes
variable (row : FlagRow) (f : Byte → AluOut) (o : Source) (s : State)

@[simp] theorem accumulate_out : (accumulate row f o s).out = s.out := by rw [accumulate_spec]
@[simp] theorem accumulate_params : (accumulate row f o s).params = s.params := by rw [accumulate_spec]
@[simp] theorem testSource_out : (testSource row f o s).out = s.out := by rw [testSource_spec]
@[simp] theorem testSource_params : (testSource row f o s).params = s.params := by rw [testSource_spec]

end Shapes

theorem memWrite_storesAt (s : State) (adr v : Byte) : StoresAt [adr] s (memWrite s adr v) :=
  .of_stored (memWrite_stored s adr v) (memWrite_params s adr v)

theorem push_storesAt (v : Byte) (s : State) : StoresAt [s.sp - 1] s (push v s) :=
  .of_stored (push_stored s v) (push_params v s)

theorem storeTo_storesAt (m : MemOperand) (v : Byte) (s : State) : StoresAt [memAddress m s] s (storeTo m v s) :=
  .idle (stepRegister_mem m s) (stepRegister_out m s) (stepRegister_params m s) (memWrite_storesAt _ _ v)

theorem modifyCell_storesAt (row : FlagRow) (f : Byte → AluOut) (c : Cell) (s : State) :
    StoresAt [ea c s] s (modifyCell row f c s) :=
  .of_stored (modifyCell_stored row f c s) (by rw [modifyCell_frame])

theorem copyCc_storesAt (s : State) : StoresAt [] s (copyCc s).2 :=
  .of_idle (copyCc_mem s) (copyCc_out s) (copyCc_params s)

/-- The five cells below SP, in the order of the pushes of an entry (`60_exceptions.md` R336). -/
def State.frameAddresses (s : State) : List Byte := [s.sp - 1, s.sp - 2, s.sp - 3, s.sp - 4, s.sp - 5]

theorem pushFrame_storesAt (s : State) : StoresAt s.frameAddresses s (pushFrame s) := by
  have hregisters := (((push_storesAt s.pc s).trans (push_storesAt s.y _)).trans (push_storesAt s.x _)).trans
    (push_storesAt s.a _)
  have hcc (u : State) := (copyCc_storesAt u).trans (push_storesAt (copyCc u).1 (copyCc u).2)
  simpa [State.frameAddresses, sub_sub, pushFrame] using hregisters.trans (hcc _)

theorem enterException_storesAt (vec : Byte) (setI : Bool) (s : State) :
    StoresAt s.frameAddresses s (enterException vec setI s) :=
  (pushFrame_storesAt s).then_idle (by simp) (by simp) (by simp)

/-! The stores of an instruction and of a step. -/

/-- Every instruction stores at its computed addresses, once at each, and nowhere else. -/
theorem exec_storesAt {i : Instr} {s t : State} (h : exec i s = .next t) : StoresAt (storeAddresses i s) s t := by
  cases i with
  | sta m => injection h with ht; subst ht; exact storeTo_storesAt m s.a s
  | stx c | sty c | stsp c => injection h with ht; subst ht; exact memWrite_storesAt s (ea c s) _
  | clr c => injection h with ht; subst ht; exact (memWrite_storesAt s (ea c s) 0).then_idle rfl rfl rfl
  | neg c | inc c | dec c | com c | lsl c | lsr c | rol c | ror c | asr c =>
    injection h with ht; subst ht; exact modifyCell_storesAt _ _ c s
  | psha | pshx | pshy => injection h with ht; subst ht; exact push_storesAt _ s
  | pshc =>
    injection h with ht; subst ht
    simpa [storeAddresses] using (copyCc_storesAt s).trans (push_storesAt (copyCc s).1 (copyCc s).2)
  | jsr _ | bsr _ => injection h with ht; subst ht; exact (push_storesAt s.pc s).then_idle rfl rfl rfl
  | illegal03 | illegal04 | illegalDF | illegalE0 | illegalEF | illegalFF =>
    injection h with ht; subst ht; exact enterException_storesAt trapVector s.params.trapSetsI s
  | rti =>
    injection h with ht; subst ht
    obtain ⟨-, hmem, hout, hparams⟩ := returnFromException_frame s
    exact .of_idle hmem hout hparams
  | _ => injection h with ht; subst ht; exact .of_idle (by simp) (by simp) (by simp)

/-- Settles O21: the stores of an instruction are single stores at its computed addresses. -/
theorem storesStayAtComputedAddresses : Obligations.StoresStayAtComputedAddresses :=
  fun _ _ _ h => ⟨fun _ hb => (exec_storesAt h).cell_of_not_mem hb, (exec_storesAt h).out_of_no_port⟩

/-- No instruction stores more often than a trap. -/
theorem storeAddresses_length_le (i : Instr) (s : State) : (storeAddresses i s).length ≤ 5 := by
  unfold storeAddresses; split <;> simp

/-- A step stores at five addresses at most: none in a reset, the frame in an interrupt entry, those of the fetched
instruction else (`60_exceptions.md` R330). -/
theorem step_storesAt {s t : State} (h : step s = .next t) :
    ∃ adrs : List Byte, adrs.length ≤ 5 ∧ StoresAt adrs s t := by
  have hboundary : StoresAt [] s s.passBoundary := .of_idle rfl rfl rfl
  rcases step_cases s with ⟨-, hs⟩ | ⟨-, -, -, hs⟩ | ⟨-, -, hs⟩ <;> rw [hs] at h
  · injection h with ht; subst ht
    exact ⟨[], Nat.zero_le 5, hboundary.then_idle (takeReset_mem _) (takeReset_out _) (takeReset_params _)⟩
  · injection h with ht; subst ht
    exact ⟨s.frameAddresses, Nat.le_refl 5, hboundary.trans (enterException_storesAt irqVector true s.passBoundary)⟩
  · have hfetch : StoresAt [] s (fetchInstr s.passBoundary).2 :=
      hboundary.then_idle (fetchInstr_mem _) (fetchInstr_out _) (fetchInstr_params _)
    exact ⟨_, storeAddresses_length_le _ _, hfetch.trans (exec_storesAt h)⟩

/-- Settles O22: a sequence of stores changes no parameter and no byte that keeps nothing, be it read-only or a port. -/
theorem readOnlyCellsAndPortsHoldNoStores : Obligations.ReadOnlyCellsAndPortsHoldNoStores := by
  intro s t h
  obtain ⟨adrs, -, hstores⟩ := step_storesAt h
  refine ⟨hstores.params_eq, fun b hb => ?_, fun p => ?_⟩
  · exact hstores.cell_of_not_keeps fun ⟨_, hwritable⟩ => hwritable hb
  · exact hstores.cell_of_not_keeps fun ⟨hnone, _⟩ => by simp at hnone

/-- Settles O23: a step stores five times at most, and each store adds one event at most. -/
theorem outputEventsOnlyGrow : Obligations.OutputEventsOnlyGrow := by
  intro s t h
  obtain ⟨adrs, hfive, hstores⟩ := step_storesAt h
  obtain ⟨new, hout, hlen⟩ := hstores.out_grows
  exact ⟨new, hout, hlen.trans hfive⟩

/-! The memory primitives. -/

/-- A port whose script has a byte gives that byte and uses it up (`20_memory.md` R64). -/
theorem readPort_of_script {p : Port} {s : State} {b : Byte} {rest : List Byte} (h : s.env.input p = b :: rest) :
    readPort p s = (b, s.setEnv (s.env.setInput p rest)) := by
  unfold readPort; rw [h]

/-- A port whose script has ended gives a free value (`20_memory.md` R64, log 5). -/
theorem readPort_of_ended {p : Port} {s : State} (h : s.env.input p = []) :
    readPort p s =
      (Config.portIn p.address s.env.draws, s.setEnv { s.env with draws := s.env.draws + 1 }) := by
  unfold readPort; rw [h]

/-- Settles O25, from the rules of one read and one store. -/
theorem memoryPrimitivesFollowTheMap : Obligations.MemoryPrimitivesFollowTheMap := by
  refine fun s adr v => ⟨memRead_cell, fun p hp => ⟨fun b rest hin => ?_, fun hin => ?_, fun adr' => ?_⟩,
    memWrite_frame s adr v, memWrite_stored s adr v⟩
  · rw [memRead_port hp, readPort_of_script hin]; rfl
  · rw [memRead_port hp, readPort_of_ended hin, (portOf_eq_some_iff adr p).1 hp]; rfl
  · exact memRead_port_of_memWrite hp s adr' v

/-! The fetch of a byte just stored (`20_memory.md` R76). -/

/-- Bytes that decode to an instruction without a rest are one for a one-byte opcode. -/
theorem decodeOp_of_decode_one {op : Byte} {i : Instr} (h : decode [op] = .ok (i, [])) : decodeOp op = .f1 i := by
  cases hop : decodeOp op with
  | f1 j => simpa [decode, hop] using h
  | f2 mk => simp [decode, hop] at h

/-- Bytes that decode to an instruction without a rest are two for an opcode that awaits its operand byte. -/
theorem decodeOp_of_decode_two {op b : Byte} {i : Instr} (h : decode [op, b] = .ok (i, [])) :
    ∃ mk : Byte → Instr, decodeOp op = .f2 mk ∧ mk b = i := by
  cases hop : decodeOp op with
  | f1 j => simp [decode, hop] at h
  | f2 mk => exact ⟨mk, rfl, by simpa [decode, hop] using h⟩

/-- A step that runs a one-byte instruction (`30_encoding.md` R90). -/
theorem step_of_decode_one {s : State} {i : Instr} (hf : s.fetches)
    (h : decode [(memRead s.passBoundary s.pc).1] = .ok (i, [])) :
    step s = exec i { s.passBoundary with pc := s.pc + 1, env := (memRead s.passBoundary s.pc).2.env } := by
  rw [step_of_fetches hf, fetchInstr_one (decodeOp_of_decode_one h)]
  rfl

/-- A step that runs a two-byte instruction, its operand byte read after its opcode (`30_encoding.md` R90). -/
theorem step_of_decode_two {s : State} {i : Instr} (hf : s.fetches)
    (h : decode [(memRead s.passBoundary s.pc).1,
      (memRead (memRead s.passBoundary s.pc).2 (s.pc + 1)).1] = .ok (i, [])) :
    step s = exec i { s.passBoundary with
      pc := s.pc + 2, env := (memRead (memRead s.passBoundary s.pc).2 (s.pc + 1)).2.env } := by
  obtain ⟨mk, hop, hmk⟩ := decodeOp_of_decode_two h
  have hpc : s.pc + 1 + 1 = s.pc + 2 := by bv_omega
  obtain ⟨hbyte, henv⟩ := memRead_congr (s := (memRead s.passBoundary s.pc).2)
    (t := { s.passBoundary with pc := s.pc + 1, env := (memRead s.passBoundary s.pc).2.env })
    (memRead_mem _ _) rfl (s.pc + 1)
  rw [step_of_fetches hf, fetchInstr_two hop, ← hmk, hbyte, henv, ← hpc]
  rfl

/-- STA stores its byte in a cell that keeps it (`40_load_store.md` R137). -/
theorem storeTo_cell_self {m : MemOperand} {s : State} (v : Byte) (hk : s.keeps (memAddress m s)) :
    (storeTo m v s).cell (memAddress m s) = v :=
  memWrite_cell_self hk.1 (by simpa using hk.2) v

/-- Settles O26: the fetch reads the byte stored, at the opcode or at the operand byte. -/
theorem storeIsSeenByNextFetch : Obligations.StoreIsSeenByNextFetch := by
  intro m s t i h hk hf t0 first second
  injection h with ht
  have hpc : t.pc = s.pc := by rw [← ht, storeTo_pc]
  have hcell : t.cell (memAddress m s) = s.a := by rw [← ht, storeTo_cell_self s.a hk]
  have hread (u : State) (hu : u.mem = t.mem) : memRead u (memAddress m s) = (s.a, u) := by
    rw [memRead_cell hk.1, State.cell_congr hu, hcell]
  have hopcode (ha : memAddress m s = s.pc) : memRead t.passBoundary t.pc = (s.a, t.passBoundary) := by
    rw [hpc, ← ha]; exact hread _ rfl
  refine ⟨hcell, fun ha hd => ?_, fun ha hd => ?_, fun ha hd => ?_⟩
  · have hstep := step_of_decode_one hf (i := i) (by rwa [hopcode ha])
    rwa [hopcode ha, hpc] at hstep
  · have hstep := step_of_decode_two hf (i := i) (by rw [hopcode ha, hpc]; exact hd)
    rwa [hopcode ha, hpc] at hstep
  · have hoperand : memRead (memRead t.passBoundary t.pc).2 (t.pc + 1) = (s.a, (memRead t.passBoundary t.pc).2) := by
      rw [hpc, ← ha]; exact hread _ (memRead_mem _ _)
    have hstep := step_of_decode_two hf (i := i) (by rw [hoperand, hpc]; exact hd)
    rwa [hoperand, hpc] at hstep

end Sys2Proof.Machine

/-! Encoding (`30_encoding.md`): the opcode map read by columns and the encoder of the instruction tables are inverse to
each other, the opcode byte alone fixes the length, and the assembler reads back what it writes. -/

namespace Sys2Proof.Machine

open Sys2Proof

/-! The encoder has bytes for the well-formed instructions. -/

/-- The laws of `Laws/PerInstr.lean`, for every instruction; without an operand type there is nothing to refuse. -/
theorem encode_isSome (i : Instr) : (encode i).isSome = i.wf := by
  cases i with
  | jmp c => exact Laws.EncodesIffWellFormed.jmp c
  | jsr c => exact Laws.EncodesIffWellFormed.jsr c
  | ldx o => exact Laws.EncodesIffWellFormed.ldx o
  | ldy o => exact Laws.EncodesIffWellFormed.ldy o
  | ldsp o => exact Laws.EncodesIffWellFormed.ldsp o
  | sbca o => exact Laws.EncodesIffWellFormed.sbca o
  | suba o => exact Laws.EncodesIffWellFormed.suba o
  | adca o => exact Laws.EncodesIffWellFormed.adca o
  | adda o => exact Laws.EncodesIffWellFormed.adda o
  | cmpa o => exact Laws.EncodesIffWellFormed.cmpa o
  | bita o => exact Laws.EncodesIffWellFormed.bita o
  | anda o => exact Laws.EncodesIffWellFormed.anda o
  | ora o => exact Laws.EncodesIffWellFormed.ora o
  | eora o => exact Laws.EncodesIffWellFormed.eora o
  | cmpx o => exact Laws.EncodesIffWellFormed.cmpx o
  | cmpy o => exact Laws.EncodesIffWellFormed.cmpy o
  | cmpsp o => exact Laws.EncodesIffWellFormed.cmpsp o
  | leax c => exact Laws.EncodesIffWellFormed.leax c
  | leay c => exact Laws.EncodesIffWellFormed.leay c
  | leasp c => exact Laws.EncodesIffWellFormed.leasp c
  | _ => rfl

theorem wf_iff_encode (i : Instr) : i.wf = true ↔ ∃ bytes, encode i = some bytes := by
  rw [← encode_isSome, Option.isSome_iff_exists]

/-! The decoder on an opcode byte of either format (`30_encoding.md` R91, R92). -/

theorem decode_f1 {op : Byte} {i : Instr} (h : decodeOp op = .f1 i) (rest : List Byte) :
    decode (op :: rest) = .ok (i, rest) := by simp only [decode, h]

theorem decode_f2 {op : Byte} {mk : Byte → Instr} (h : decodeOp op = .f2 mk) (b : Byte) (rest : List Byte) :
    decode (op :: b :: rest) = .ok (mk b, rest) := by simp only [decode, h]

theorem decode_f2_alone {op : Byte} {mk : Byte → Instr} (h : decodeOp op = .f2 mk) :
    decode [op] = .error (.noOperand op) := by simp only [decode, h]

theorem opLength_f1 {op : Byte} {i : Instr} (h : decodeOp op = .f1 i) : opLength op = 1 := by simp only [opLength, h]

theorem opLength_f2 {op : Byte} {mk : Byte → Instr} (h : decodeOp op = .f2 mk) : opLength op = 2 := by
  simp only [opLength, h]

/-! Decode after encode, table by table: a row of a table is an operation whose opcodes stand in the map's columns of
its modes, and a row is read back in every mode. -/

/-- The map has the operation `mk` in row `lo` of the five columns of table T-M that JMP and JSR share with the other
operations (`42_flow_control.md` R170, R171). -/
structure JumpRow (lo : Byte) (mk : Cell → Instr) : Prop where
  ab : decodeOp (0x30 + lo) = .f2 fun b => mk (.ab b)
  nx : decodeOp (0x50 + lo) = .f2 fun b => mk (.nx b)
  ax : decodeOp (0x60 + lo) = .f1 (mk .ax)
  ny : decodeOp (0x70 + lo) = .f2 fun b => mk (.ny b)
  ay : decodeOp (0x80 + lo) = .f1 (mk .ay)

/-- A whole row of table T-M (`43_integer_arithmetic.md`): the mode ns too. -/
structure CellRow (lo : Byte) (mk : Cell → Instr) : Prop extends JumpRow lo mk where
  ns : decodeOp (0x40 + lo) = .f2 fun b => mk (.ns b)

/-- The first columns of table T-A, which CMPX and CMPY have (`44_integer_test.md` R221, R222). -/
structure IndexCompareRow (lo : Byte) (mk : Source → Instr) : Prop where
  im : decodeOp (0x90 + lo) = .f2 fun b => mk (.im b)
  ab : decodeOp (0xA0 + lo) = .f2 fun b => mk (.cell (.ab b))
  ns : decodeOp (0xB0 + lo) = .f2 fun b => mk (.cell (.ns b))

/-- A whole row of table T-A (`43_integer_arithmetic.md`): the modes nx and ny too. -/
structure SourceRow (lo : Byte) (mk : Source → Instr) : Prop extends IndexCompareRow lo mk where
  nx : decodeOp (0xC0 + lo) = .f2 fun b => mk (.cell (.nx b))
  ny : decodeOp (0xD0 + lo) = .f2 fun b => mk (.cell (.ny b))

theorem JumpRow.decode_jumpBytes {lo : Byte} {mk : Cell → Instr} (row : JumpRow lo mk) {c : Cell} {bytes : List Byte}
    (h : jumpBytes lo c = some bytes) (rest : List Byte) : decode (bytes ++ rest) = .ok (mk c, rest) := by
  cases c with
  | ab b => cases h; exact decode_f2 row.ab b rest
  | ns b => cases h
  | nx b => cases h; exact decode_f2 row.nx b rest
  | ax => cases h; exact decode_f1 row.ax rest
  | ny b => cases h; exact decode_f2 row.ny b rest
  | ay => cases h; exact decode_f1 row.ay rest

theorem CellRow.decode_cellBytes {lo : Byte} {mk : Cell → Instr} (row : CellRow lo mk) (c : Cell) (rest : List Byte) :
    decode (cellBytes lo c ++ rest) = .ok (mk c, rest) := by
  cases c with
  | ns b => exact decode_f2 row.ns b rest
  | _ => exact row.toJumpRow.decode_jumpBytes rfl rest

theorem IndexCompareRow.decode_indexCompareBytes {lo : Byte} {mk : Source → Instr} (row : IndexCompareRow lo mk)
    {o : Source} {bytes : List Byte} (h : indexCompareBytes lo o = some bytes) (rest : List Byte) :
    decode (bytes ++ rest) = .ok (mk o, rest) := by
  match o with
  | .im b => cases h; exact decode_f2 row.im b rest
  | .cell (.ab b) => cases h; exact decode_f2 row.ab b rest
  | .cell (.ns b) => cases h; exact decode_f2 row.ns b rest

theorem SourceRow.decode_sourceBytes {lo : Byte} {mk : Source → Instr} (row : SourceRow lo mk)
    {o : Source} {bytes : List Byte} (h : sourceBytes lo o = some bytes) (rest : List Byte) :
    decode (bytes ++ rest) = .ok (mk o, rest) := by
  match o with
  | .im _ | .cell (.ab _) | .cell (.ns _) => cases h; exact row.toIndexCompareRow.decode_indexCompareBytes rfl rest
  | .cell (.nx b) => cases h; exact decode_f2 row.nx b rest
  | .cell (.ny b) => cases h; exact decode_f2 row.ny b rest

/-- Column Ex (`40_load_store.md` R137). -/
theorem decode_staBytes (m : MemOperand) (rest : List Byte) : decode (staBytes m ++ rest) = .ok (.sta m, rest) := by
  match m with
  | .cell c => cases c <;> rfl
  | .auto r k => cases r <;> cases k <;> rfl

/-- Column Fx (`40_load_store.md` R130). -/
theorem decode_ldaBytes (o : LoadOperand) (rest : List Byte) : decode (ldaBytes o ++ rest) = .ok (.lda o, rest) := by
  match o with
  | .im b => rfl
  | .mem (.cell c) => cases c <;> rfl
  | .mem (.auto r k) => cases r <;> cases k <;> rfl

/-- The decoder inverts the encoder wherever the encoder has bytes (`30_encoding.md` R107). -/
theorem decode_encode {i : Instr} {bytes : List Byte} (h : encode i = some bytes) (rest : List Byte) :
    decode (bytes ++ rest) = .ok (i, rest) := by
  cases i with
  | stx c | sty c | stsp c | clr c | neg c | inc c | dec c | tst c | com c | lsl c | lsr c | rol c | ror c | asr c =>
    cases h
    exact CellRow.decode_cellBytes ⟨⟨rfl, rfl, rfl, rfl, rfl⟩, rfl⟩ c rest
  | jmp c | jsr c => exact JumpRow.decode_jumpBytes ⟨rfl, rfl, rfl, rfl, rfl⟩ h rest
  | ldx o | ldy o | ldsp o | sbca o | suba o | adca o | adda o | cmpa o | bita o | anda o | ora o | eora o =>
    exact SourceRow.decode_sourceBytes ⟨⟨rfl, rfl, rfl⟩, rfl, rfl⟩ h rest
  | cmpx o | cmpy o => exact IndexCompareRow.decode_indexCompareBytes ⟨rfl, rfl, rfl⟩ h rest
  | cmpsp o =>
    match o with
    | .im _ | .cell (.ab _) => cases h; rfl
  | leax c | leay c | leasp c => cases c <;> cases h <;> rfl
  | sta m => cases h; exact decode_staBytes m rest
  | lda o => cases h; exact decode_ldaBytes o rest
  | _ => cases h; rfl

/-- Settles O2: a well-formed instruction has bytes, and its row of the tables stands in the opcode map. -/
theorem decodeInvertsEncode : Obligations.DecodeInvertsEncode := by
  intro i hwf
  obtain ⟨bytes, hbytes⟩ := (wf_iff_encode i).mp hwf
  exact ⟨bytes, hbytes, decode_encode hbytes⟩

/-! Encode after decode: the opcode map, entry by entry. -/

/-- The encoder gives an entry of the map the opcode byte at which it stands, and the operand byte if it awaits one. -/
def EncodesAt (op : Byte) : OpForm → Prop
  | .f1 i => encode i = some [op]
  | .f2 mk => ∀ b : Byte, encode (mk b) = some [op, b]

/-- The entries of a column stand at consecutive opcode bytes. -/
def ColumnEncodesFrom (op : Byte) : List OpForm → Prop
  | [] => True
  | form :: forms => EncodesAt op form ∧ ColumnEncodesFrom (op + 1#8) forms

/-- The columns of the map stand 16 opcode bytes apart. -/
def MapEncodesFrom (op : Byte) : List (List OpForm) → Prop
  | [] => True
  | column :: columns => ColumnEncodesFrom op column ∧ MapEncodesFrom (op + 16#8) columns

theorem ColumnEncodesFrom.entry {op : Byte} {column : List OpForm} (h : ColumnEncodesFrom op column) {row : Nat}
    (hrow : row < column.length) (default : OpForm) : EncodesAt (op + BitVec.ofNat 8 row) (column.getD row default) := by
  induction column generalizing op row with
  | nil => cases hrow
  | cons form forms ih =>
    obtain ⟨hform, hforms⟩ := h
    cases row with
    | zero => simpa using hform
    | succ row =>
      have hop : op + BitVec.ofNat 8 (row + 1) = op + 1#8 + BitVec.ofNat 8 row := by
        rw [Nat.add_comm, BitVec.ofNat_add, ← BitVec.add_assoc]
      rw [hop, List.getD_cons_succ]
      exact ih hforms (Nat.lt_of_succ_lt_succ hrow)

theorem MapEncodesFrom.column {op : Byte} {columns : List (List OpForm)} (h : MapEncodesFrom op columns) {col : Nat}
    (hcol : col < columns.length) (default : List OpForm) :
    ColumnEncodesFrom (op + BitVec.ofNat 8 (16 * col)) (columns.getD col default) := by
  induction columns generalizing op col with
  | nil => cases hcol
  | cons column columns ih =>
    obtain ⟨hcolumn, hcolumns⟩ := h
    cases col with
    | zero => simpa using hcolumn
    | succ col =>
      have hop : op + BitVec.ofNat 8 (16 * (col + 1)) = op + 16#8 + BitVec.ofNat 8 (16 * col) := by
        rw [Nat.mul_succ, Nat.add_comm, BitVec.ofNat_add, ← BitVec.add_assoc]
      rw [hop, List.getD_cons_succ]
      exact ih hcolumns (Nat.lt_of_succ_lt_succ hcol)

/-- The 256 entries of the map (`30_encoding.md` R107) against the instruction tables. -/
theorem opcodeMap_encodes : MapEncodesFrom 0#8 opcodeMap := by
  simp [opcodeMap, mapColumn0, mapColumn1, mapColumn2, mapColumn3, mapColumn4, mapColumn5, mapColumn6, mapColumn7,
    mapColumn8, mapColumn9, mapColumnA, mapColumnB, mapColumnC, mapColumnD, mapColumnE, mapColumnF,
    MapEncodesFrom, ColumnEncodesFrom, EncodesAt, encode, cellBytes, jumpBytes, sourceBytes, indexCompareBytes,
    staBytes, ldaBytes]

/-- Every column of the map has 16 rows. -/
theorem opcodeMap_column_length {col : Nat} (hcol : col < opcodeMap.length) : (opcodeMap.getD col []).length = 16 := by
  rw [List.getD_eq_getElem _ _ hcol]
  exact (show ∀ column ∈ opcodeMap, column.length = 16 by decide) _ (List.getElem_mem hcol)

/-- Column `op / 16`, row `op % 16` of the map is the entry of the byte `op`. -/
theorem decodeOp_encodes (op : Byte) : EncodesAt op (decodeOp op) := by
  have hcol : op.toNat / 16 < opcodeMap.length := Nat.div_lt_of_lt_mul op.isLt
  have hcolumn := opcodeMap_encodes.column hcol []
  have hrow : op.toNat % 16 < (opcodeMap.getD (op.toNat / 16) []).length := by
    rw [opcodeMap_column_length hcol]; exact Nat.mod_lt _ (by decide)
  have hop : 0#8 + BitVec.ofNat 8 (16 * (op.toNat / 16)) + BitVec.ofNat 8 (op.toNat % 16) = op := by
    rw [BitVec.zero_add, ← BitVec.ofNat_add, Nat.div_add_mod, BitVec.ofNat_toNat, BitVec.setWidth_eq]
  have hentry := hcolumn.entry hrow (.f1 .illegalFF)
  rwa [hop] at hentry

theorem encode_decodeOp_f1 {op : Byte} {i : Instr} (h : decodeOp op = .f1 i) : encode i = some [op] := by
  simpa only [EncodesAt, h] using decodeOp_encodes op

theorem encode_decodeOp_f2 {op : Byte} {mk : Byte → Instr} (h : decodeOp op = .f2 mk) (b : Byte) :
    encode (mk b) = some [op, b] := by
  have hop := decodeOp_encodes op
  rw [h] at hop
  exact hop b

/-- The encoder inverts the decoder: what was read is what the encoder writes. -/
theorem encode_decode {bytes rest : List Byte} {i : Instr} (h : decode bytes = .ok (i, rest)) :
    ∃ used, encode i = some used ∧ bytes = used ++ rest := by
  cases bytes with
  | nil => cases h
  | cons op tail =>
    cases hop : decodeOp op with
    | f1 j =>
      cases (decode_f1 hop tail).symm.trans h
      exact ⟨[op], encode_decodeOp_f1 hop, rfl⟩
    | f2 mk =>
      cases tail with
      | nil => cases (decode_f2_alone hop).symm.trans h
      | cons b tail =>
        cases (decode_f2 hop b tail).symm.trans h
        exact ⟨[op, b], encode_decodeOp_f2 hop b, rfl⟩

/-- Settles O3: the encoder has bytes for what the decoder reads, so it is well formed. -/
theorem encodeInvertsDecode : Obligations.EncodeInvertsDecode := by
  intro bytes rest i h
  obtain ⟨used, hused, hbytes⟩ := encode_decode h
  exact ⟨(wf_iff_encode i).mpr ⟨used, hused⟩, used, hused, hbytes⟩

/-! The six illegal opcodes (`30_encoding.md` R108, R109). -/

/-- The bytes of the illegal opcodes. -/
abbrev illegalOpcodes : List Byte := [0x03, 0x04, 0xDF, 0xE0, 0xEF, 0xFF]

/-- An illegal instruction has one byte, one of the six. -/
theorem encode_of_isIllegal {i : Instr} (h : isIllegal i = true) :
    ∃ op ∈ illegalOpcodes, encode i = some [op] := by
  cases i with
  | illegal03 | illegal04 | illegalDF | illegalE0 | illegalEF | illegalFF => exact ⟨_, by decide, rfl⟩
  | _ => cases h

/-- The map has an illegal instruction at each of the six bytes. -/
theorem decodeOp_of_mem_illegal {op : Byte} (h : op ∈ illegalOpcodes) :
    ∃ i : Instr, decodeOp op = .f1 i ∧ isIllegal i = true := by
  simp only [illegalOpcodes, List.mem_cons, List.not_mem_nil, or_false] at h
  rcases h with rfl | rfl | rfl | rfl | rfl | rfl <;> exact ⟨_, rfl, rfl⟩

/-- A one-byte opcode is illegal for the six bytes only. -/
theorem isIllegal_decodeOp_f1_iff {op : Byte} {i : Instr} (h : decodeOp op = .f1 i) :
    isIllegal i = true ↔ op ∈ illegalOpcodes := by
  constructor
  · intro hi
    obtain ⟨op', hmem, hbytes⟩ := encode_of_isIllegal hi
    cases (encode_decodeOp_f1 h).symm.trans hbytes
    exact hmem
  · intro hmem
    obtain ⟨j, hj, hillegal⟩ := decodeOp_of_mem_illegal hmem
    cases h.symm.trans hj
    exact hillegal

/-- An opcode that awaits an operand byte is illegal with none (`30_encoding.md` R109). -/
theorem isIllegal_decodeOp_f2 {op : Byte} {mk : Byte → Instr} (h : decodeOp op = .f2 mk) (b : Byte) :
    isIllegal (mk b) = false := by
  refine Bool.eq_false_iff.mpr fun hi => ?_
  obtain ⟨op', -, hbytes⟩ := encode_of_isIllegal hi
  cases (encode_decodeOp_f2 h b).symm.trans hbytes

/-- Settles O4, by the format of the opcode's entry in the map. -/
theorem opcodeByteFixesInstructionAndLength : Obligations.OpcodeByteFixesInstructionAndLength := by
  intro op
  cases hop : decodeOp op with
  | f1 i =>
    have hlength := opLength_f1 hop
    refine ⟨.inl hlength, fun _ => hlength, fun _ => ⟨i, decode_f1 hop, isIllegal_decodeOp_f1_iff hop⟩, fun h2 => ?_⟩
    rw [hlength] at h2
    cases h2
  | f2 mk =>
    have hlength := opLength_f2 hop
    refine ⟨.inr hlength, fun hmem => ?_, fun h1 => ?_,
      fun _ => ⟨decode_f2_alone hop, mk, fun b => ⟨decode_f2 hop b, isIllegal_decodeOp_f2 hop b⟩⟩⟩
    · obtain ⟨i, hi, -⟩ := decodeOp_of_mem_illegal hmem
      exact opLength_f1 hi
    · rw [hlength] at h1
      cases h1

/-- Settles O1: each word is read from its entry of the map. -/
theorem writtenOutWordsDecode : Obligations.WrittenOutWordsDecode :=
  ⟨rfl, rfl, rfl, rfl, rfl, rfl, rfl, rfl, rfl, rfl, rfl, rfl, rfl, rfl, rfl, rfl, rfl, rfl, rfl⟩

/-! The assembler reads back what it writes (`30_encoding.md` R110). -/

@[simp] theorem asmCell_cellSyntax (c : Cell) : asmCell (cellSyntax c) = some c := by cases c <;> rfl

@[simp] theorem asmMem_memSyntax (m : MemOperand) : asmMem (memSyntax m) = some m := by
  match m with
  | .cell c => cases c <;> rfl
  | .auto _ _ => rfl

@[simp] theorem asmSource_sourceSyntax (o : Source) : asmSource (sourceSyntax o) = some o := by
  match o with
  | .im _ => rfl
  | .cell c => cases c <;> rfl

@[simp] theorem asmLoad_loadSyntax (o : LoadOperand) : asmLoad (loadSyntax o) = some o := by
  match o with
  | .im _ => rfl
  | .mem (.cell c) => cases c <;> rfl
  | .mem (.auto _ _) => rfl

/-- A branch to `op_addr + 2 + off` has the offset `off` (`30_encoding.md` R98, R118). -/
@[simp] theorem asmOffset_destination (opAddr off : Byte) : asmOffset opAddr (.adr (opAddr + 2 + off)) = some off :=
  congrArg some (by bv_omega)

theorem instrSyntax_of_isIllegal (opAddr : Byte) {i : Instr} (h : isIllegal i = true) : instrSyntax opAddr i = none := by
  cases i with
  | illegal03 | illegal04 | illegalDF | illegalE0 | illegalEF | illegalFF => rfl
  | _ => cases h

/-- Every other instruction has a line, and the line is read as that instruction. -/
theorem asmForm_instrSyntax (opAddr : Byte) {i : Instr} (h : isIllegal i = false) :
    ∃ (m : Mnemonic) (o : AsmOperand Byte), instrSyntax opAddr i = some (m, o) ∧ asmForm opAddr m o = some i := by
  cases i with
  | illegal03 | illegal04 | illegalDF | illegalE0 | illegalEF | illegalFF => cases h
  | lda o => exact ⟨_, _, rfl, congrArg (Option.map _) (asmLoad_loadSyntax o)⟩
  | sta m => exact ⟨_, _, rfl, congrArg (Option.map _) (asmMem_memSyntax m)⟩
  | stx c | sty c | stsp c | jmp c | jsr c | clr c | neg c | inc c | dec c | tst c | com c | lsl c | lsr c | rol c | ror c
  | asr c | leax c | leay c | leasp c =>
    exact ⟨_, _, rfl, congrArg (Option.map _) (asmCell_cellSyntax c)⟩
  | ldx o | ldy o | ldsp o | sbca o | suba o | adca o | adda o | cmpa o | bita o | anda o | ora o | eora o | cmpx o
  | cmpy o | cmpsp o =>
    exact ⟨_, _, rfl, congrArg (Option.map _) (asmSource_sourceSyntax o)⟩
  | bsr off | bra off | bmi off | bpl off | beq off | bne off | bvs off | bvc off | bcs off | bcc off | bhi off | bls off
  | bgt off | bge off | ble off | blt off =>
    exact ⟨_, _, rfl, congrArg (Option.map _) (asmOffset_destination opAddr off)⟩
  | _ => exact ⟨_, _, rfl, rfl⟩

theorem assembleInstr_of_asmForm {opAddr : Byte} {m : Mnemonic} {o : AsmOperand Byte} {i : Instr}
    (hform : asmForm opAddr m o = some i) (hwf : i.wf = true) : assembleInstr opAddr m o = some i := by
  simp only [assembleInstr, hform, hwf, if_true]

theorem assembleBytes_of_assembleInstr {opAddr : Byte} {m : Mnemonic} {o : AsmOperand Byte} {i : Instr}
    {bytes : List Byte} (hinstr : assembleInstr opAddr m o = some i) (hbytes : encode i = some bytes) :
    assembleBytes opAddr m o = .ok bytes := by
  simp only [assembleBytes, hinstr, hbytes]

/-- Settles O5: the line of an instruction is read as that instruction, which is well formed and so has bytes. -/
theorem assemblerReadsBackItsSyntax : Obligations.AssemblerReadsBackItsSyntax := by
  refine fun opAddr i hwf => ⟨instrSyntax_of_isIllegal opAddr, fun hlegal => ?_⟩
  obtain ⟨m, o, hsyntax, hform⟩ := asmForm_instrSyntax opAddr hlegal
  obtain ⟨bytes, hbytes⟩ := (wf_iff_encode i).mp hwf
  have hinstr := assembleInstr_of_asmForm hform hwf
  exact ⟨m, o, bytes, hsyntax, hinstr, hbytes, assembleBytes_of_assembleInstr hinstr hbytes⟩

/-! The addressing modes (`30_encoding.md` R96 to R105). -/

/-- Settles O27: a sum of two bytes is taken modulo 256, and the rest is the definition of each mode. -/
theorem operandsFollowTheirModes : Obligations.OperandsFollowTheirModes := by
  intro s b
  refine ⟨rfl, BitVec.toNat_add _ _, BitVec.toNat_add _ _, BitVec.toNat_add _ _, BitVec.toNat_add _ _,
    BitVec.toNat_add _ _, fun c => ⟨rfl, stepRegister_cell_operand c s⟩, rfl, rfl, rfl, rfl, rfl, rfl, rfl, rfl, rfl, rfl,
    rfl, rfl, rfl, rfl, rfl, rfl, readSource_of_im b s, fun c => readSource_of_cell c s⟩

end Sys2Proof.Machine

/-! Load and store (`40_load_store.md`): the rows of the opcode table, and the next state of each instruction. -/

namespace Sys2Proof.Machine

open Sys2Proof

/-! Rows of the opcode table (`30_encoding.md` R107). The decoder inverts the encoder, so a row needs the encoder's bytes and
the clock cycles only. -/

theorem opcodeOf_of_encode {i : Instr} {bytes : List Byte} {clocks : Nat} (hbytes : encode i = some bytes)
    (hclocks : cycles i = some clocks) : OpcodeOf bytes i clocks :=
  ⟨hbytes, by simpa only [List.append_nil] using decode_encode hbytes [], hclocks⟩

theorem oneForm_of_encode {mk : Byte → Instr} {op : Byte} {clocks : Nat} (hbytes : ∀ b, encode (mk b) = some [op, b])
    (hclocks : ∀ b, cycles (mk b) = some clocks) : OneForm op mk clocks :=
  fun b => opcodeOf_of_encode (hbytes b) (hclocks b)

/-- An operation that the encoder reads off table T-M has its six rows. -/
theorem tableTM_of_cellBytes {mk : Cell → Instr} {lo : Byte} {clocks : Nat}
    (hbytes : ∀ c, encode (mk c) = some (cellBytes lo c)) (hclocks : ∀ c, cycles (mk c) = some clocks) :
    TableTM mk lo clocks :=
  have row (c : Cell) : OpcodeOf (cellBytes lo c) (mk c) clocks := opcodeOf_of_encode (hbytes c) (hclocks c)
  fun b => ⟨row (.ab b), row (.ns b), row (.nx b), row .ax, row (.ny b), row .ay⟩

/-- An operation that the encoder reads off table T-A has its five rows. -/
theorem tableTA_of_sourceBytes {mk : Source → Instr} {lo : Byte} {immediate memory : Nat}
    (hbytes : ∀ o, encode (mk o) = sourceBytes lo o)
    (hclocks : ∀ o, cycles (mk o) = some (sourceCycles immediate memory o)) : TableTA mk lo immediate memory :=
  have row (o : Source) {bytes : List Byte} (h : sourceBytes lo o = some bytes) :
      OpcodeOf bytes (mk o) (sourceCycles immediate memory o) :=
    opcodeOf_of_encode ((hbytes o).trans h) (hclocks o)
  fun b => ⟨row (.im b) rfl, row (.cell (.ab b)) rfl, row (.cell (.ns b)) rfl, row (.cell (.nx b)) rfl,
    row (.cell (.ny b)) rfl⟩

/-! Loads (`40_load_store.md` R130 to R133): the whole next state. -/

theorem exec_lda_im_spec (d : Byte) (s : State) :
    exec (.lda (.im d)) s = .next { s with a := d, cc := rowLogic.apply (pass8 d) s.cc } := rfl

/-- The value and the script left are those of a read in the state before the register step. -/
theorem exec_lda_mem_spec (m : MemOperand) (s : State) :
    exec (.lda (.mem m)) s = .next { s with
      a := (memRead s (memAddress m s)).1, x := (stepRegister m s).x, y := (stepRegister m s).y,
      cc := rowLogic.apply (pass8 (memRead s (memAddress m s)).1) s.cc,
      env := (memRead s (memAddress m s)).2.env } := by
  rw [exec_lda, readLoad_of_mem_value]
  refine congrArg _ (State.ext_fields rfl ?_ ?_ ?_ ?_ ?_ ?_ ?_ ?_ (readLoad_of_mem_env m s)) <;> simp

theorem exec_ldx_spec (o : Source) (s : State) :
    exec (.ldx o) s = .next { s with
      x := (readSource o s).1, cc := rowLogic.apply (pass8 (readSource o s).1) s.cc, env := (readSource o s).2.env } := by
  rw [exec_ldx, readSource_frame]; rfl

theorem exec_ldy_spec (o : Source) (s : State) :
    exec (.ldy o) s = .next { s with
      y := (readSource o s).1, cc := rowLogic.apply (pass8 (readSource o s).1) s.cc, env := (readSource o s).2.env } := by
  rw [exec_ldy, readSource_frame]; rfl

theorem exec_ldsp_spec (o : Source) (s : State) :
    exec (.ldsp o) s = .next { s with
      sp := (readSource o s).1, cc := rowLogic.apply (pass8 (readSource o s).1) s.cc, env := (readSource o s).2.env } := by
  rw [exec_ldsp, readSource_frame]; rfl

/-- Settles O28: the address is formed before the load, and the flags are those of the loaded byte. -/
theorem ldaLoadsWithFlags : Obligations.LdaLoadsWithFlags := by
  have row (o : LoadOperand) {clocks : Nat} (h : cycles (.lda o) = some clocks) :
      OpcodeOf (ldaBytes o) (.lda o) clocks := opcodeOf_of_encode rfl h
  refine ⟨fun b => ⟨row (.im b) rfl, row (.mem (.cell (.ab b))) rfl, row (.mem (.cell (.ns b))) rfl,
    row (.mem (.cell (.nx b))) rfl, row (.mem (.cell .ax)) rfl, row (.mem (.auto .x .postInc)) rfl,
    row (.mem (.auto .x .postDec)) rfl, row (.mem (.auto .x .preInc)) rfl, row (.mem (.auto .x .preDec)) rfl,
    row (.mem (.cell (.ny b))) rfl, row (.mem (.cell .ay)) rfl, row (.mem (.auto .y .postInc)) rfl,
    row (.mem (.auto .y .postDec)) rfl, row (.mem (.auto .y .preInc)) rfl, row (.mem (.auto .y .preDec)) rfl⟩, ?_, ?_⟩
  · exact fun d s => ⟨_, exec_lda_im_spec d s, rfl, rfl, pass8_flags _ _⟩
  · exact fun m s => ⟨_, exec_lda_mem_spec m s, rfl, rfl, pass8_flags _ _⟩

/-- Settles O29: the operand is read in the state before the load, and the flags are those of its value. -/
theorem loadsOfXYAndSp : Obligations.LoadsOfXYAndSp := by
  refine ⟨tableTA_of_sourceBytes (fun _ => rfl) fun _ => rfl, tableTA_of_sourceBytes (fun _ => rfl) fun _ => rfl,
    tableTA_of_sourceBytes (fun _ => rfl) fun _ => rfl, fun o s => ⟨?_, ?_, ?_⟩⟩
  · exact ⟨_, exec_ldx_spec o s, rfl, rfl, pass8_flags _ _⟩
  · exact ⟨_, exec_ldy_spec o s, rfl, rfl, pass8_flags _ _⟩
  · exact ⟨_, exec_ldsp_spec o s, rfl, rfl, pass8_flags _ _⟩

/-! Stores (`40_load_store.md` R137 to R140). -/

/-- STA changes the stepped register, the memory and the output events at most. -/
theorem storeTo_frame (m : MemOperand) (v : Byte) (s : State) :
    storeTo m v s = { s with
      x := (stepRegister m s).x, y := (stepRegister m s).y, mem := (storeTo m v s).mem, out := (storeTo m v s).out } := by
  apply State.ext_fields <;> simp [storeTo_x, storeTo_y]

/-- The register step is no part of the store: it is the one of the state before it. -/
theorem storeTo_stored (m : MemOperand) (v : Byte) (s : State) : Stored s (storeTo m v s) (memAddress m s) v := by
  have hstored : Stored (stepRegister m s) (storeTo m v s) (memAddress m s) v :=
    memWrite_stored (stepRegister m s) (memAddress m s) v
  simpa only [Stored, State.keeps, stepRegister_params, stepRegister_out, stepRegister_read_cell] using hstored

/-- Settles O31: one store of A, made after the register step and unaffected by it. -/
theorem staStoresAtItsAddress : Obligations.StaStoresAtItsAddress := by
  have row (m : MemOperand) {clocks : Nat} (h : cycles (.sta m) = some clocks) :
      OpcodeOf (staBytes m) (.sta m) clocks := opcodeOf_of_encode rfl h
  refine ⟨fun b => ⟨row (.cell (.ab b)) rfl, row (.cell (.ns b)) rfl, row (.cell (.nx b)) rfl, row (.cell .ax) rfl,
    row (.auto .x .postInc) rfl, row (.auto .x .postDec) rfl, row (.auto .x .preInc) rfl, row (.auto .x .preDec) rfl,
    row (.cell (.ny b)) rfl, row (.cell .ay) rfl, row (.auto .y .postInc) rfl, row (.auto .y .postDec) rfl,
    row (.auto .y .preInc) rfl, row (.auto .y .preDec) rfl⟩, ?_⟩
  exact fun m s => ⟨_, exec_sta m s, storeTo_frame m s.a s, storeTo_stored m s.a s⟩

/-- Settles O32: each is one `MemWrite` of its register at the effective address. -/
theorem storesOfXYAndSp : Obligations.StoresOfXYAndSp := by
  refine ⟨tableTM_of_cellBytes (fun _ => rfl) fun _ => rfl, tableTM_of_cellBytes (fun _ => rfl) fun _ => rfl,
    tableTM_of_cellBytes (fun _ => rfl) fun _ => rfl, fun c s => ⟨?_, ?_, ?_⟩⟩
  · exact ⟨_, exec_stx c s, memWrite_frame s _ _, memWrite_stored s _ _⟩
  · exact ⟨_, exec_sty c s, memWrite_frame s _ _, memWrite_stored s _ _⟩
  · exact ⟨_, exec_stsp c s, memWrite_frame s _ _, memWrite_stored s _ _⟩

/-! Load effective address (`40_load_store.md` R134 to R136). -/

/-- Settles O30: the register takes the effective address, which in these modes is the sum of a register and n. -/
theorem leaLoadsTheAddressItself : Obligations.LeaLoadsTheAddressItself := by
  refine ⟨oneForm_of_encode (fun _ => rfl) fun _ => rfl, oneForm_of_encode (fun _ => rfl) fun _ => rfl,
    oneForm_of_encode (fun _ => rfl) fun _ => rfl, oneForm_of_encode (fun _ => rfl) fun _ => rfl,
    oneForm_of_encode (fun _ => rfl) fun _ => rfl, oneForm_of_encode (fun _ => rfl) fun _ => rfl,
    oneForm_of_encode (fun _ => rfl) fun _ => rfl, fun n s => ?_⟩
  exact ⟨exec_leax (.nx n) s, exec_leax (.ns n) s, exec_leay (.ny n) s, exec_leay (.ns n) s, exec_leasp (.ns n) s,
    exec_leasp (.nx n) s, exec_leasp (.ny n) s⟩

end Sys2Proof.Machine

/-! Data movement (`41_data_movement.md`): the copy of CC out of the machine, the load of CC, and the transfers. -/

namespace Sys2Proof.Machine

open Sys2Proof

/-! CC out and in (`10_state.md` R32, decisions D1 and D14, log 4). -/

/-- The value drawn for bits 7..5: the script's next entry, or a free value when the script has ended. -/
theorem drawCcHi_fst (s : State) : (drawCcHi s).1 = s.env.ccHi.headD (Config.ccHi s.env.draws) := by
  unfold drawCcHi; split <;> simp [*]

/-- A draw uses up the script's next entry, or counts one free value. -/
theorem drawCcHi_env (s : State) :
    (drawCcHi s).2.env =
      if s.env.ccHi = [] then { s.env with draws := s.env.draws + 1 } else { s.env with ccHi := s.env.ccHi.tail } := by
  unfold drawCcHi; split <;> simp [*]

/-- A copy of CC changes the script or counter behind `CC_HI` only. -/
theorem copyCc_frame (s : State) :
    (copyCc s).2 = { s with
      env := if s.env.ccHi = [] then { s.env with draws := s.env.draws + 1 }
             else { s.env with ccHi := s.env.ccHi.tail } } :=
  State.ext_fields (copyCc_a s) (copyCc_x s) (copyCc_y s) (copyCc_sp s) (copyCc_pc s) (copyCc_cc s) (copyCc_mem s)
    (copyCc_out s) (copyCc_params s) (drawCcHi_env s)

theorem copyCc_image (s : State) :
    CcImage (copyCc s).1 (s.env.ccHi.headD (Config.ccHi s.env.draws)) s.cc :=
  drawCcHi_fst s ▸ ccByte_image (drawCcHi s).1 s.cc

/-- A load of CC changes the flags only, and I among them if the parameter lets it (D14). -/
theorem loadCc_spec (v : Byte) (s : State) :
    loadCc v s = { s with
      cc := { i := if s.params.ccLoadWritesI then v.getLsbD 4 else s.cc.i,
              n := v.getLsbD 3, z := v.getLsbD 2, v := v.getLsbD 1, c := v.getLsbD 0 } } :=
  State.ext_fields (loadCc_a v s) (loadCc_x v s) (loadCc_y v s) (loadCc_sp v s) (loadCc_pc v s) (loadCc_cc v s)
    (loadCc_mem v s) (loadCc_out v s) (loadCc_params v s) (loadCc_env v s)

/-! Transfers and exchanges (`41_data_movement.md` R150 to R161). -/

/-- Settles O34: TFR is one load or one copy of CC, and EXG is the copy followed by the load of the old A. -/
theorem transfersWithCc : Obligations.TransfersWithCc := by
  refine ⟨opcodeOf_of_encode rfl rfl, opcodeOf_of_encode rfl rfl, opcodeOf_of_encode rfl rfl, fun s => ?_⟩
  refine ⟨?tfrACc, (copyCc s).1, copyCc_image s, ?tfrCcA, ?exgACc⟩
  case tfrACc => rw [exec_tfrACc, loadCc_spec]
  case tfrCcA => rw [exec_tfrCcA, copyCc_frame]; rfl
  case exgACc => rw [exec_exgACc, loadCc_spec, copyCc_frame]; rfl

/-- Settles O33: a transfer is one register write, and an exchange writes both registers with the values before it. -/
theorem addressRegisterTransfers : Obligations.AddressRegisterTransfers := by
  refine ⟨opcodeOf_of_encode rfl rfl, opcodeOf_of_encode rfl rfl, opcodeOf_of_encode rfl rfl, opcodeOf_of_encode rfl rfl,
    opcodeOf_of_encode rfl rfl, opcodeOf_of_encode rfl rfl, opcodeOf_of_encode rfl rfl, opcodeOf_of_encode rfl rfl,
    opcodeOf_of_encode rfl rfl, fun s => ?_⟩
  exact ⟨exec_tfrXY s, exec_tfrYX s, exec_tfrXSp s, exec_tfrSpX s, exec_tfrYSp s, exec_tfrSpY s,
    exec_exgXY s, exec_exgXSp s, exec_exgYSp s⟩

end Sys2Proof.Machine

/-! Flow control (`42_flow_control.md`): jumps, calls and returns, the conditional branches on their flags, and the branches
after a comparison. -/

namespace Sys2Proof.Machine

open Sys2Proof

/-! Returns (`42_flow_control.md` R189, R190). -/

/-- A pull where `r` answers reads like `s`: both have the same memory and scripts. -/
theorem pull_of_sameReads {s r : State} {adr next : Byte} (hsp : s.sp = adr) (hnext : adr + 1 = next)
    (hmem : s.mem = r.mem) (henv : s.env = r.env) :
    pull s = ((memRead r adr).1, { s with sp := next, env := (memRead r adr).2.env }) := by
  subst hsp hnext
  obtain ⟨hvalue, hscripts⟩ := memRead_congr hmem henv s.sp
  refine Prod.ext hvalue ?_
  apply State.ext_fields <;> simp [hscripts]

/-- A pull changes SP, and by its read the environment's scripts at most. -/
theorem pull_spec (s : State) : pull s = ((memRead s s.sp).1, { s with sp := s.sp + 1, env := (memRead s s.sp).2.env }) :=
  pull_of_sameReads rfl rfl rfl rfl

/-- Settles O14: the register writes between two pulls touch neither memory nor scripts, so each pull reads what the
reads alone would. -/
theorem rtiPullsWholeFrame : Obligations.RtiPullsWholeFrame := by
  refine ⟨opcodeOf_of_encode rfl rfl, fun s => ?_⟩
  intro r0 r1 r2 r3 r4
  have hcc : pull s = (r0.1, { s with sp := s.sp + 1, env := r0.2.env }) := pull_spec s
  have ha : pull { s with cc := ccOfByte r0.1, sp := s.sp + 1, env := r0.2.env } =
      (r1.1, { s with cc := ccOfByte r0.1, sp := s.sp + 2, env := r1.2.env }) :=
    pull_of_sameReads rfl (by bv_omega) (by simp [r0]) rfl
  have hx : pull { s with cc := ccOfByte r0.1, a := r1.1, sp := s.sp + 2, env := r1.2.env } =
      (r2.1, { s with cc := ccOfByte r0.1, a := r1.1, sp := s.sp + 3, env := r2.2.env }) :=
    pull_of_sameReads rfl (by bv_omega) (by simp [r0, r1]) rfl
  have hy : pull { s with cc := ccOfByte r0.1, a := r1.1, x := r2.1, sp := s.sp + 3, env := r2.2.env } =
      (r3.1, { s with cc := ccOfByte r0.1, a := r1.1, x := r2.1, sp := s.sp + 4, env := r3.2.env }) :=
    pull_of_sameReads rfl (by bv_omega) (by simp [r0, r1, r2]) rfl
  have hpc : pull { s with cc := ccOfByte r0.1, a := r1.1, x := r2.1, y := r3.1, sp := s.sp + 4, env := r3.2.env } =
      (r4.1, { s with cc := ccOfByte r0.1, a := r1.1, x := r2.1, y := r3.1, sp := s.sp + 5, env := r4.2.env }) :=
    pull_of_sameReads rfl (by bv_omega) (by simp [r0, r1, r2, r3]) rfl
  simp only [exec_rti, returnFromException, State.setCc, State.setA, State.setX, State.setY, hcc, ha, hx, hy, hpc]
  rfl

/-! Jumps (`42_flow_control.md` R170, R172). -/

/-- A branch whose condition holds goes to PC + offset. -/
theorem branchIf_true (off : Byte) (s : State) : branchIf true off s = { s with pc := s.pc + off } := by
  rw [branchIf_spec, if_pos rfl]

/-- A branch whose condition does not hold changes nothing. -/
theorem branchIf_false (off : Byte) (s : State) : branchIf false off s = s := by
  rw [branchIf_spec, if_neg Bool.false_ne_true]

/-- Settles O35: JMP takes its effective address as the target, BRA is the branch that is always taken, and RTS is one
pull. -/
theorem jumpsAndReturnsSetPc : Obligations.JumpsAndReturnsSetPc := by
  refine ⟨oneForm_of_encode (fun _ => rfl) fun _ => rfl, oneForm_of_encode (fun _ => rfl) fun _ => rfl,
    opcodeOf_of_encode rfl rfl, oneForm_of_encode (fun _ => rfl) fun _ => rfl, opcodeOf_of_encode rfl rfl,
    oneForm_of_encode (fun _ => rfl) fun _ => rfl, opcodeOf_of_encode rfl rfl, fun n s => ?_⟩
  refine ⟨exec_jmp (.ab n) s, exec_jmp (.nx n) s, exec_jmp .ax s, exec_jmp (.ny n) s, exec_jmp .ay s, ?bra, ?rts⟩
  case bra => rw [exec_bra, branchIf_true]
  case rts => rw [exec_rts, pull_spec]; rfl

/-! Calls (`42_flow_control.md` R171, R173). -/

/-- A call changes SP, PC, the memory and the output events at most. -/
theorem call_frame (target : Byte) (s : State) :
    (push s.pc s).setPc target =
      { s with sp := s.sp - 1, pc := target, mem := (push s.pc s).mem, out := (push s.pc s).out } := by
  apply State.ext_fields <;> simp

/-- The one store of a call: the return address at the new SP. -/
theorem call_stored (target : Byte) (s : State) : Stored s ((push s.pc s).setPc target) (s.sp - 1) s.pc :=
  push_stored s s.pc

/-- Settles O36: JSR and BSR are the same call with different targets. -/
theorem callsPushReturnAddress : Obligations.CallsPushReturnAddress := by
  refine ⟨oneForm_of_encode (fun _ => rfl) fun _ => rfl, oneForm_of_encode (fun _ => rfl) fun _ => rfl,
    opcodeOf_of_encode rfl rfl, oneForm_of_encode (fun _ => rfl) fun _ => rfl, opcodeOf_of_encode rfl rfl,
    oneForm_of_encode (fun _ => rfl) fun _ => rfl, fun c s => ?jsr, fun off s => ?bsr⟩
  case jsr => exact ⟨_, exec_jsr c s, call_frame (ea c s) s, call_stored (ea c s) s⟩
  case bsr => exact ⟨_, exec_bsr off s, call_frame (s.pc + off) s, call_stored (s.pc + off) s⟩

/-! Conditional branches (`42_flow_control.md` R174 to R188). -/

/-- A branch on a Boolean test of the flags is taken exactly when what the test says holds. -/
theorem branchesOn_of_test {mk : Byte → Instr} {t : State} {test : Bool} {condition : Prop}
    (hexec : ∀ off, exec (mk off) t = .next (branchIf test off t)) (htest : test = true ↔ condition) :
    BranchesOn mk t condition := by
  refine fun off => ⟨fun h => ?taken, fun h => ?notTaken⟩
  case taken => rw [hexec, htest.2 h, branchIf_true]
  case notTaken => rw [hexec, Bool.eq_false_iff.2 (mt htest.1 h), branchIf_false]

/-- The negated test of a pair of branches says the opposite relation. -/
theorem not_test_iff {test : Bool} {condition opposite : Prop} (h : test = true ↔ condition)
    (hopposite : ¬ condition ↔ opposite) : (!test) = true ↔ opposite := by
  rw [Bool.not_eq_true', ← Bool.not_eq_true, h, hopposite]

/-- Settles O37: each of the eight tests its flag, or its flag's negation. -/
theorem singleFlagBranches : Obligations.SingleFlagBranches := by
  refine ⟨oneForm_of_encode (fun _ => rfl) fun _ => rfl, oneForm_of_encode (fun _ => rfl) fun _ => rfl,
    oneForm_of_encode (fun _ => rfl) fun _ => rfl, oneForm_of_encode (fun _ => rfl) fun _ => rfl,
    oneForm_of_encode (fun _ => rfl) fun _ => rfl, oneForm_of_encode (fun _ => rfl) fun _ => rfl,
    oneForm_of_encode (fun _ => rfl) fun _ => rfl, oneForm_of_encode (fun _ => rfl) fun _ => rfl, fun s => ?_⟩
  have hclear {flag : Bool} : (!flag) = true ↔ flag = false := not_test_iff Iff.rfl (Bool.not_eq_true flag).to_iff
  exact ⟨branchesOn_of_test (exec_bmi · s) Iff.rfl, branchesOn_of_test (exec_bpl · s) hclear,
    branchesOn_of_test (exec_beq · s) Iff.rfl, branchesOn_of_test (exec_bne · s) hclear,
    branchesOn_of_test (exec_bvs · s) Iff.rfl, branchesOn_of_test (exec_bvc · s) hclear,
    branchesOn_of_test (exec_bcs · s) Iff.rfl, branchesOn_of_test (exec_bcc · s) hclear⟩

/-- Settles O38: the six test three formulas and their negations. -/
theorem combinedFlagBranches : Obligations.CombinedFlagBranches := by
  refine ⟨oneForm_of_encode (fun _ => rfl) fun _ => rfl, oneForm_of_encode (fun _ => rfl) fun _ => rfl,
    oneForm_of_encode (fun _ => rfl) fun _ => rfl, oneForm_of_encode (fun _ => rfl) fun _ => rfl,
    oneForm_of_encode (fun _ => rfl) fun _ => rfl, oneForm_of_encode (fun _ => rfl) fun _ => rfl, fun s => ?_⟩
  have hls : (s.cc.c || s.cc.z) = true ↔ s.cc.c = true ∨ s.cc.z = true := (Bool.or_eq_true _ _).to_iff
  have hlt : (s.cc.n ^^ s.cc.v) = true ↔ s.cc.n ≠ s.cc.v := bne_iff_ne
  have hle : ((s.cc.n ^^ s.cc.v) || s.cc.z) = true ↔ s.cc.n ≠ s.cc.v ∨ s.cc.z = true := by rw [Bool.or_eq_true, hlt]
  refine ⟨branchesOn_of_test (exec_bhi · s) (not_test_iff hls ?bhi), branchesOn_of_test (exec_bls · s) hls,
    branchesOn_of_test (exec_bgt · s) (not_test_iff hle ?bgt),
    branchesOn_of_test (exec_bge · s) (not_test_iff hlt not_not),
    branchesOn_of_test (exec_ble · s) hle, branchesOn_of_test (exec_blt · s) hlt⟩
  case bhi => rw [not_or, Bool.not_eq_true, Bool.not_eq_true]
  case bgt => rw [not_or, not_not, Bool.not_eq_true]

/-! Branches after a comparison (the table "Villkorstest" of `42_flow_control.md` R174). -/

/-- The flags of a subtraction are those of the difference on integers (`49_alu_functions.md` R303, D15). -/
theorem sub8_differenceOf (r m : Byte) (borrow : Bool) (cc : CC) :
    DifferenceOf r m borrow (sub8 r m borrow).u (rowArith.apply (sub8 r m borrow) cc) := by
  refine ⟨?_, ⟨sub8_n r m borrow, sub8_z r m borrow⟩, sub8_v r m borrow, sub8_c r m borrow⟩
  have hr := r.isLt
  have hm := m.isLt
  have hb := borrow.toNat_le
  rw [sub8_u]
  omega

section Compare
variable {r m u : Byte} {cc : CC}

/-- The result is the difference modulo 256. -/
theorem eq_sub_of_differenceOf (h : DifferenceOf r m false u cc) : u = r - m := by
  obtain ⟨hsum, -⟩ := h
  rw [Bool.toNat_false] at hsum
  bv_omega

/-- Z says equal. -/
theorem z_iff_of_differenceOf (h : DifferenceOf r m false u cc) : cc.z = true ↔ r = m := by
  have hu := eq_sub_of_differenceOf h
  obtain ⟨-, ⟨-, hz⟩, -⟩ := h
  rw [hz, hu]
  bv_omega

/-- N says that the difference is negative. -/
theorem n_iff_of_differenceOf (h : DifferenceOf r m false u cc) : cc.n = true ↔ 128 ≤ (r - m).toNat := by
  have hu := eq_sub_of_differenceOf h
  obtain ⟨-, ⟨hn, -⟩, -⟩ := h
  rw [hn, hu]

/-- V says that the difference overflows. -/
theorem v_iff_of_differenceOf (h : DifferenceOf r m false u cc) :
    cc.v = true ↔ signedOverflow (r.toInt - m.toInt) := by
  obtain ⟨-, -, hv, -⟩ := h
  simpa using hv

/-- C says lower, unsigned. -/
theorem c_iff_of_differenceOf (h : DifferenceOf r m false u cc) : cc.c = true ↔ r.toNat < m.toNat := by
  obtain ⟨-, -, -, hc⟩ := h
  simpa using hc

/-- N xor V says less, signed: N is the wrong sign of the difference exactly when it overflows. -/
theorem xor_iff_of_differenceOf (h : DifferenceOf r m false u cc) : (cc.n ^^ cc.v) = true ↔ r.toInt < m.toInt := by
  have hn := n_iff_of_differenceOf h
  have hv := v_iff_of_differenceOf h
  have hr := r.isLt
  have hm := m.isLt
  rw [toInt_eq, toInt_eq] at hv ⊢
  rw [BitVec.toNat_sub] at hn
  rw [bne_iff_ne, ne_eq, Bool.eq_iff_iff, hn, hv, signedOverflow]
  by_cases hrsign : r.toNat < 128 <;> by_cases hmsign : m.toNat < 128 <;>
    simp only [hrsign, hmsign, if_true, if_false] <;> omega

/-- C or Z says lower or same, unsigned. -/
theorem c_or_z_iff_of_differenceOf (h : DifferenceOf r m false u cc) : (cc.c || cc.z) = true ↔ r.toNat ≤ m.toNat := by
  rw [Bool.or_eq_true, c_iff_of_differenceOf h, z_iff_of_differenceOf h, ← BitVec.toNat_inj, Nat.le_iff_lt_or_eq]

/-- (N xor V) or Z says less or equal, signed. -/
theorem xor_or_z_iff_of_differenceOf (h : DifferenceOf r m false u cc) :
    ((cc.n ^^ cc.v) || cc.z) = true ↔ r.toInt ≤ m.toInt := by
  rw [Bool.or_eq_true, xor_iff_of_differenceOf h, z_iff_of_differenceOf h, ← BitVec.toInt_inj, Int.le_iff_lt_or_eq]

/-- The fourteen branches test seven formulas and their negations, and each formula says one relation of r and m. -/
theorem branchesCompare_of_differenceOf {t : State} (h : DifferenceOf r m false u t.cc) : BranchesCompare t r m := by
  have hz := z_iff_of_differenceOf h
  have hn := n_iff_of_differenceOf h
  have hv := v_iff_of_differenceOf h
  have hlower := c_iff_of_differenceOf h
  have hlowerSame := c_or_z_iff_of_differenceOf h
  have hless := xor_iff_of_differenceOf h
  have hlessEqual := xor_or_z_iff_of_differenceOf h
  exact ⟨branchesOn_of_test (exec_beq · t) hz, branchesOn_of_test (exec_bne · t) (not_test_iff hz Iff.rfl),
    branchesOn_of_test (exec_bmi · t) hn, branchesOn_of_test (exec_bpl · t) (not_test_iff hn Nat.not_le),
    branchesOn_of_test (exec_bvs · t) hv, branchesOn_of_test (exec_bvc · t) (not_test_iff hv Iff.rfl),
    branchesOn_of_test (exec_bhi · t) (not_test_iff hlowerSame Nat.not_le),
    branchesOn_of_test (exec_bcc · t) (not_test_iff hlower Nat.not_lt),
    branchesOn_of_test (exec_bcs · t) hlower, branchesOn_of_test (exec_bls · t) hlowerSame,
    branchesOn_of_test (exec_bgt · t) (not_test_iff hlessEqual Int.not_le),
    branchesOn_of_test (exec_bge · t) (not_test_iff hless Int.not_lt),
    branchesOn_of_test (exec_blt · t) hless, branchesOn_of_test (exec_ble · t) hlessEqual⟩

end Compare

/-- Settles O39: each of the five leaves the flags of the difference r - m. -/
theorem branchesAfterCompareMeanTheirRelation : Obligations.BranchesAfterCompareMeanTheirRelation := by
  have compared {s t : State} {r m : Byte} (hcc : t.cc = rowArith.apply (sub8 r m false) s.cc) : BranchesCompare t r m :=
    branchesCompare_of_differenceOf (hcc ▸ sub8_differenceOf r m false s.cc)
  refine fun o s t => ⟨fun h => ?_, fun h => ?_, fun h => ?_, fun h => ?_, fun h => ?_⟩
  · cases h; exact compared (s := s) (testSource_cc ..)
  · cases h; exact compared (s := s) (testSource_cc ..)
  · cases h; exact compared (s := s) (testSource_cc ..)
  · cases h; exact compared (s := s) (testSource_cc ..)
  · cases h; exact compared (s := s) (accumulate_cc ..)

end Sys2Proof.Machine

/-! Integer arithmetic (`43_integer_arithmetic.md`): what each shape of instruction changes, the results and flags of the ALU
helpers on integers, and the 16-bit sum carried from byte to byte. -/

namespace Sys2Proof.Machine

open Sys2Proof

/-! What each shape of instruction changes, and what it leaves in A. -/

section Shapes
variable (row : FlagRow) (f : Byte → AluOut) (s : State)

@[simp] theorem accumulate_a (o : Source) : (accumulate row f o s).a = (f (readSource o s).1).u := by
  rw [accumulate_spec]

theorem writeA_changedA (out : AluOut) : ChangedA s (writeA row out s) := ⟨rfl, rfl⟩

theorem accumulate_combinedA (o : Source) : CombinedA o s (accumulate row f o s) := by
  rw [accumulate_spec]; exact ⟨rfl, rfl⟩

theorem modifyCell_modifiedCell (c : Cell) :
    ModifiedCell c s (modifyCell row f c s) (f (memRead s (ea c s)).1).u := by
  refine ⟨?frame, ?mask, modifyCell_stored row f c s⟩
  case frame => rw [modifyCell_cc]; exact modifyCell_frame row f c s
  case mask => rw [modifyCell_cc, FlagRow.apply_i]

end Shapes

/-! Addition and subtraction (`43_integer_arithmetic.md` R200 to R203). -/

/-- The flags of an addition are those of the sum on integers (`49_alu_functions.md` R302). -/
theorem add8_sumOf (a m : Byte) (carry : Bool) (cc : CC) :
    SumOf a m carry (add8 a m carry).u (rowArith.apply (add8 a m carry) cc) :=
  ⟨add8_u a m carry, ⟨add8_n a m carry, add8_z a m carry⟩, add8_v a m carry, add8_c a m carry⟩

theorem accumulate_add8_sumOf (carry : Bool) (o : Source) (s : State) :
    SumOf s.a (readSource o s).1 carry (accumulate rowArith (fun m => add8 s.a m carry) o s).a
      (accumulate rowArith (fun m => add8 s.a m carry) o s).cc := by
  rw [accumulate_a, accumulate_cc]
  exact add8_sumOf s.a (readSource o s).1 carry s.cc

theorem accumulate_sub8_differenceOf (borrow : Bool) (o : Source) (s : State) :
    DifferenceOf s.a (readSource o s).1 borrow (accumulate rowArith (fun m => sub8 s.a m borrow) o s).a
      (accumulate rowArith (fun m => sub8 s.a m borrow) o s).cc := by
  rw [accumulate_a, accumulate_cc]
  exact sub8_differenceOf s.a (readSource o s).1 borrow s.cc

/-- Settles O40: ADDA is the addition with no carry in, ADCA the one with C. -/
theorem additionOnA : Obligations.AdditionOnA := by
  refine ⟨tableTA_of_sourceBytes (fun _ => rfl) fun _ => rfl, tableTA_of_sourceBytes (fun _ => rfl) fun _ => rfl,
    fun o s => ⟨?adda, ?adca⟩⟩
  case adda => exact ⟨_, exec_adda o s, accumulate_combinedA _ _ s o, accumulate_add8_sumOf false o s⟩
  case adca => exact ⟨_, exec_adca o s, accumulate_combinedA _ _ s o, accumulate_add8_sumOf s.cc.c o s⟩

/-- Settles O41: SUBA is the subtraction with no borrow in, SBCA the one with C. -/
theorem subtractionOnA : Obligations.SubtractionOnA := by
  refine ⟨tableTA_of_sourceBytes (fun _ => rfl) fun _ => rfl, tableTA_of_sourceBytes (fun _ => rfl) fun _ => rfl,
    fun o s => ⟨?suba, ?sbca⟩⟩
  case suba => exact ⟨_, exec_suba o s, accumulate_combinedA _ _ s o, accumulate_sub8_differenceOf false o s⟩
  case sbca => exact ⟨_, exec_sbca o s, accumulate_combinedA _ _ s o, accumulate_sub8_differenceOf s.cc.c o s⟩

/-! Clear and test (`43_integer_arithmetic.md` R204, R205, `44_integer_test.md` R226). -/

/-- The flags of a tested value: N and Z from it, V and C cleared. -/
theorem pass8_testFlags (u : Byte) (cc : CC) :
    SignZero (rowTest.apply (pass8 u) cc) u ∧ (rowTest.apply (pass8 u) cc).v = false ∧
      (rowTest.apply (pass8 u) cc).c = false :=
  ⟨⟨aluOut_n u false false, aluOut_z u false false⟩, rfl, rfl⟩

theorem exec_clra_spec (s : State) :
    exec .clra s = .next { s with a := 0, cc := ⟨s.cc.i, false, true, false, false⟩ } := rfl

/-- CLR changes the flags, and by its store the memory and the output events at most; it reads nothing (D25). -/
theorem exec_clr_spec (c : Cell) (s : State) :
    exec (.clr c) s = .next { s with
      mem := (memWrite s (ea c s) 0).mem, out := (memWrite s (ea c s) 0).out,
      cc := ⟨s.cc.i, false, true, false, false⟩ } := by
  rw [exec_clr, memWrite_frame]; rfl

/-- TST changes the flags, and by its read the environment's scripts at most. -/
theorem exec_tst_spec (c : Cell) (s : State) :
    exec (.tst c) s = .next { s with
      cc := rowTest.apply (pass8 (memRead s (ea c s)).1) s.cc, env := (memRead s (ea c s)).2.env } := by
  rw [exec_tst, memRead_frame]; rfl

/-- Settles O42: the clears write the constant 0 and constant flags, and TST is one read and its flags. -/
theorem clearAndTest : Obligations.ClearAndTest := by
  refine ⟨opcodeOf_of_encode rfl rfl, tableTM_of_cellBytes (fun _ => rfl) fun _ => rfl,
    tableTM_of_cellBytes (fun _ => rfl) fun _ => rfl, exec_clra_spec, fun c s => ?clr, fun c s => ?tst⟩
  case clr => exact ⟨_, exec_clr_spec c s, rfl, stored_of_memWrite rfl rfl⟩
  case tst => exact ⟨_, exec_tst_spec c s, rfl, rfl, pass8_testFlags _ s.cc⟩

/-! Negation, decrement and increment (`43_integer_arithmetic.md` R206 to R211). -/

theorem neg8_negationOf (m : Byte) (cc : CC) : NegationOf m (neg8 m).u (rowArith.apply (neg8 m) cc) := by
  obtain ⟨hu, hv, hc, hn, hz⟩ := neg8_outputs m
  exact ⟨hu, ⟨hn, hz⟩, hv, hc⟩

theorem dec8_decrementOf (m : Byte) (cc : CC) : DecrementOf m cc (dec8 m).u (rowIncDec.apply (dec8 m) cc) := by
  obtain ⟨hu, hv, hn, hz⟩ := dec8_outputs m
  exact ⟨hu, ⟨hn, hz⟩, hv, rfl⟩

theorem inc8_incrementOf (m : Byte) (cc : CC) : IncrementOf m cc (inc8 m).u (rowIncDec.apply (inc8 m) cc) := by
  obtain ⟨hu, hv, hn, hz⟩ := inc8_outputs m
  exact ⟨hu, ⟨hn, hz⟩, hv, rfl⟩

/-- Settles O43: one ALU function, on A and as a read-modify-write of a cell. -/
theorem negationOfAAndCell : Obligations.NegationOfAAndCell := by
  refine ⟨opcodeOf_of_encode rfl rfl, tableTM_of_cellBytes (fun _ => rfl) fun _ => rfl, fun s => ?nega, fun c s => ?neg⟩
  case nega => exact ⟨_, exec_nega s, writeA_changedA _ s _, neg8_negationOf s.a s.cc⟩
  case neg =>
    exact ⟨_, _, exec_neg c s, modifyCell_modifiedCell _ _ s c, modifyCell_cc .. ▸ neg8_negationOf _ s.cc⟩

/-- Settles O44: one ALU function whose columns keep C, on A and as a read-modify-write of a cell. -/
theorem decrementOfAAndCell : Obligations.DecrementOfAAndCell := by
  refine ⟨opcodeOf_of_encode rfl rfl, tableTM_of_cellBytes (fun _ => rfl) fun _ => rfl, fun s => ?deca, fun c s => ?dec⟩
  case deca => exact ⟨_, exec_deca s, writeA_changedA _ s _, dec8_decrementOf s.a s.cc⟩
  case dec =>
    exact ⟨_, _, exec_dec c s, modifyCell_modifiedCell _ _ s c, modifyCell_cc .. ▸ dec8_decrementOf _ s.cc⟩

/-- Settles O45: V of the increment is set for $7F only (D21). -/
theorem incrementOfAAndCell : Obligations.IncrementOfAAndCell := by
  refine ⟨opcodeOf_of_encode rfl rfl, tableTM_of_cellBytes (fun _ => rfl) fun _ => rfl, fun s => ?inca, fun c s => ?inc⟩
  case inca => exact ⟨_, exec_inca s, writeA_changedA _ s _, inc8_incrementOf s.a s.cc⟩
  case inc =>
    exact ⟨_, _, exec_inc c s, modifyCell_modifiedCell _ _ s c, modifyCell_cc .. ▸ inc8_incrementOf _ s.cc⟩

/-! Addition of two bytes each (`43_integer_arithmetic.md` R200, R201, `70_reset_and_hazards.md` R385). -/

/-- C of a sum is the digit it carries to the next byte. -/
theorem carry_of_sumOf {a m u : Byte} {carry : Bool} {cc : CC} (h : SumOf a m carry u cc) :
    cc.c.toNat * 256 + u.toNat = a.toNat + m.toNat + carry.toNat := by
  obtain ⟨hu, -, -, hc⟩ := h
  have ha := a.isLt
  have hm := m.isLt
  have hcarry := carry.toNat_le
  rw [← Bool.toNat_eq_one] at hc
  have hdigit := cc.c.toNat_le
  omega

/-- Two sums, the second with the carry of the first, are one sum of 16-bit numbers. -/
theorem sixteenBitSum_of_sumOf {l1 l2 h1 h2 low high : Byte} {lowCc highCc : CC} (hlow : SumOf l1 l2 false low lowCc)
    (hhigh : SumOf h1 h2 lowCc.c high highCc) :
    high.toNat * 256 + low.toNat = (h1.toNat * 256 + l1.toNat + (h2.toNat * 256 + l2.toNat)) % 65536 ∧
      (highCc.c = true ↔ 65536 ≤ h1.toNat * 256 + l1.toNat + (h2.toNat * 256 + l2.toNat)) := by
  have hlowDigit := carry_of_sumOf hlow
  have hhighDigit := carry_of_sumOf hhigh
  have hl := low.isLt
  have hh := high.isLt
  have hc := highCc.c.toNat_le
  rw [Bool.toNat_false] at hlowDigit
  rw [← Bool.toNat_eq_one]
  omega

/-- Settles O46: LDA hands the carry of the low sum on to the high sum. -/
theorem sixteenBitSumThroughCarry : Obligations.SixteenBitSumThroughCarry := by
  intro l1 h1 l2 h2 s t u v hadda hlda hadca
  rw [exec_adda] at hadda; injection hadda with ht
  rw [exec_lda_im_spec] at hlda; injection hlda with hu
  rw [exec_adca] at hadca; injection hadca with hv
  have hlow : SumOf l1 l2 false t.a t.cc := ht ▸ accumulate_add8_sumOf false (.im l2) { s with a := l1 }
  have hloaded : u.a = h1 := by rw [← hu]
  have hcarry : u.cc.c = t.cc.c := by rw [← hu]; rfl
  have hhigh : SumOf u.a h2 u.cc.c v.a v.cc := hv ▸ accumulate_add8_sumOf u.cc.c (.im h2) u
  rw [hloaded, hcarry] at hhigh
  exact sixteenBitSum_of_sumOf hlow hhigh

end Sys2Proof.Machine

/-! Integer test (`44_integer_test.md`): the instructions that write the flags of a result and drop the result itself. -/

namespace Sys2Proof.Machine

open Sys2Proof

/-! What the shape of a test changes, and the flags it leaves. -/

theorem testSource_testedSource (row : FlagRow) (f : Byte → AluOut) (o : Source) (s : State) :
    TestedSource o s (testSource row f o s) := by
  rw [testSource_spec]; exact ⟨rfl, rfl⟩

/-- A compare leaves the flags of the difference that the subtraction puts out, whichever register it subtracts from. -/
theorem testSource_sub8_differenceOf (r : Byte) (o : Source) (s : State) :
    DifferenceOf r (readSource o s).1 false (sub8 r (readSource o s).1 false).u
      (testSource rowArith (fun m => sub8 r m false) o s).cc := by
  rw [testSource_cc]
  exact sub8_differenceOf r (readSource o s).1 false s.cc

/-- A bit test leaves the flags of the bitwise and. -/
theorem testSource_and_logicFlags (r : Byte) (o : Source) (s : State) :
    LogicFlags s.cc (r &&& (readSource o s).1) (testSource rowLogic (fun m => logic8 (r &&& m)) o s).cc := by
  rw [testSource_cc]
  exact logic8_flags (r &&& (readSource o s).1) s.cc

/-! Compares (`44_integer_test.md` R220 to R223). -/

/-- Any instruction that executes as the test of a register minus its operand is a compare of that register. -/
theorem compare_of_exec {i : Instr} {r : Byte} {o : Source} {s : State}
    (hexec : exec i s = .next (testSource rowArith (fun m => sub8 r m false) o s)) :
    ∃ (t : State) (u : Byte), exec i s = .next t ∧ TestedSource o s t ∧
      DifferenceOf r (readSource o s).1 false u t.cc :=
  ⟨_, _, hexec, testSource_testedSource _ _ o s, testSource_sub8_differenceOf r o s⟩

/-- Settles O47: the four compares are one test, of A, X, Y or SP minus the operand. -/
theorem comparesSetFlagsOnly : Obligations.ComparesSetFlagsOnly := by
  have row {mk : Byte → Instr} {op : Byte} {clocks : Nat}
      (h : ∀ b, encode (mk b) = some [op, b] ∧ cycles (mk b) = some clocks) : OneForm op mk clocks :=
    oneForm_of_encode (fun b => (h b).left) fun b => (h b).right
  refine ⟨tableTA_of_sourceBytes (fun _ => rfl) fun _ => rfl,
    row fun _ => ⟨rfl, rfl⟩, row fun _ => ⟨rfl, rfl⟩, row fun _ => ⟨rfl, rfl⟩,
    row fun _ => ⟨rfl, rfl⟩, row fun _ => ⟨rfl, rfl⟩, row fun _ => ⟨rfl, rfl⟩,
    row fun _ => ⟨rfl, rfl⟩, row fun _ => ⟨rfl, rfl⟩, fun o s => ⟨?cmpa, ?cmpx, ?cmpy, ?cmpsp⟩⟩
  case cmpa => exact compare_of_exec (exec_cmpa o s)
  case cmpx => exact compare_of_exec (exec_cmpx o s)
  case cmpy => exact compare_of_exec (exec_cmpy o s)
  case cmpsp => exact compare_of_exec (exec_cmpsp o s)

/-! Bit test and test of A (`44_integer_test.md` R224, R225). -/

/-- Settles O48: BITA is the flags of ANDA without its result, TSTA those of A itself. -/
theorem bitTestAndTestOfA : Obligations.BitTestAndTestOfA := by
  refine ⟨tableTA_of_sourceBytes (fun _ => rfl) fun _ => rfl, opcodeOf_of_encode rfl rfl, fun o s => ?bita, fun s => ?tsta⟩
  case bita => exact ⟨_, exec_bita o s, testSource_testedSource _ _ o s, testSource_and_logicFlags s.a o s⟩
  case tsta => exact ⟨_, exec_tsta s, rfl, rfl, pass8_testFlags s.a s.cc⟩

end Sys2Proof.Machine

/-! Logical operations (`45_logical.md`): a bitwise function of A and its operand, the complement of A and of a cell, and the
masks on CC. -/

namespace Sys2Proof.Machine

open Sys2Proof

/-! Bitwise and, or, exclusive or (`45_logical.md` R235, R236, R239). -/

/-- An instruction that accumulates a logical result leaves it in A, with its flags, whichever function of the operand it is. -/
theorem logicOnA_of_exec {i : Instr} {f : Byte → Byte} {o : Source} {s : State}
    (hexec : exec i s = .next (accumulate rowLogic (fun m => logic8 (f m)) o s)) :
    ∃ t : State, exec i s = .next t ∧ CombinedA o s t ∧ t.a = f (readSource o s).1 ∧ LogicFlags s.cc t.a t.cc := by
  refine ⟨_, hexec, accumulate_combinedA _ _ s o, accumulate_a _ _ s o, ?flags⟩
  rw [accumulate_a, accumulate_cc]
  exact logic8_flags (f (readSource o s).1) s.cc

/-- Settles O49: the three instructions are one shape, with another bitwise function each. -/
theorem bitwiseLogicOnA : Obligations.BitwiseLogicOnA := by
  refine ⟨tableTA_of_sourceBytes (fun _ => rfl) fun _ => rfl, tableTA_of_sourceBytes (fun _ => rfl) fun _ => rfl,
    tableTA_of_sourceBytes (fun _ => rfl) fun _ => rfl, fun o s => ⟨?anda, ?ora, ?eora⟩⟩
  case anda => exact logicOnA_of_exec (exec_anda o s)
  case ora => exact logicOnA_of_exec (exec_ora o s)
  case eora => exact logicOnA_of_exec (exec_eora o s)

/-! Complement (`45_logical.md` R240, R241). -/

/-- The complement of a byte on integers, with the flags of a logical result. -/
theorem logic8_not_spec (m : Byte) (cc : CC) :
    (logic8 (~~~m)).u.toNat = 255 - m.toNat ∧ LogicFlags cc (logic8 (~~~m)).u (rowLogic.apply (logic8 (~~~m)) cc) :=
  ⟨BitVec.toNat_not, logic8_flags (~~~m) cc⟩

/-- Settles O50: one ALU function, on A and as a read-modify-write of a cell. -/
theorem complementOfAAndCell : Obligations.ComplementOfAAndCell := by
  refine ⟨opcodeOf_of_encode rfl rfl, tableTM_of_cellBytes (fun _ => rfl) fun _ => rfl, fun s => ?coma, fun c s => ?com⟩
  case coma => exact ⟨_, exec_coma s, writeA_changedA _ s _, logic8_not_spec s.a s.cc⟩
  case com =>
    exact ⟨_, _, exec_com c s, modifyCell_modifiedCell _ _ s c, modifyCell_cc .. ▸ logic8_not_spec _ s.cc⟩

/-! Masks on CC (`45_logical.md` R237, R238). -/

/-- Settles O51: the operand byte is read as a CC, flag by flag; bits 7 to 5 of it stand in no flag. -/
theorem flagMasksWithImmediate : Obligations.FlagMasksWithImmediate :=
  ⟨oneForm_of_encode (fun _ => rfl) fun _ => rfl, oneForm_of_encode (fun _ => rfl) fun _ => rfl,
    fun b s => ⟨exec_andcc b s, exec_orcc b s⟩⟩

end Sys2Proof.Machine

/-! Shifts and rotates (`46_shift_rotate.md`): the results and flags of the two shift helpers under each row of flag columns,
and the rotation of the nine bits that C and A make. -/

namespace Sys2Proof.Machine

open Sys2Proof

/-! Left shifts and rotates (`46_shift_rotate.md` R252, R253, R256, R257). -/

theorem shl8_leftShiftOf (m : Byte) (bit : Bool) (cc : CC) :
    LeftShiftOf m bit (shl8 m bit).u (rowArith.apply (shl8 m bit) cc) := by
  obtain ⟨hu, hv, hc, hn, hz⟩ := shl8_outputs m bit
  exact ⟨hu, ⟨hn, hz⟩, hv, hc⟩

/-- Settles O52: one ALU function, with 0 or the old C shifted in, on A and as a read-modify-write of a cell. -/
theorem leftShiftsAndRotates : Obligations.LeftShiftsAndRotates := by
  refine ⟨opcodeOf_of_encode rfl rfl, tableTM_of_cellBytes (fun _ => rfl) fun _ => rfl,
    opcodeOf_of_encode rfl rfl, tableTM_of_cellBytes (fun _ => rfl) fun _ => rfl,
    fun s => ?lsla, fun s => ?rola, fun c s => ?lsl, fun c s => ?rol⟩
  case lsla => exact ⟨_, exec_lsla s, writeA_changedA _ s _, shl8_leftShiftOf s.a false s.cc⟩
  case rola => exact ⟨_, exec_rola s, writeA_changedA _ s _, shl8_leftShiftOf s.a s.cc.c s.cc⟩
  case lsl =>
    exact ⟨_, _, exec_lsl c s, modifyCell_modifiedCell _ _ s c, modifyCell_cc .. ▸ shl8_leftShiftOf _ false s.cc⟩
  case rol =>
    exact ⟨_, _, exec_rol c s, modifyCell_modifiedCell _ _ s c, modifyCell_cc .. ▸ shl8_leftShiftOf _ s.cc.c s.cc⟩

/-! Right shifts and rotates (`46_shift_rotate.md` R250, R251, R254, R255, R258, R259). -/

/-- The result and N, Z, C of a shift right, under any columns that take these three flags from the ALU. -/
theorem shr8_rightShiftOf {row : FlagRow} (hn : row.n = .delta) (hz : row.z = .delta) (hc : row.c = .delta)
    (m : Byte) (bit : Bool) (cc : CC) : RightShiftOf m bit (shr8 m bit).u (row.apply (shr8 m bit) cc) := by
  obtain ⟨hu, -, hcOut, hnOut, hzOut⟩ := shr8_outputs m bit
  rw [RightShiftOf, SignZero, FlagRow.apply_n, FlagRow.apply_z, FlagRow.apply_c, hn, hz, hc]
  exact ⟨hu, ⟨hnOut, hzOut⟩, hcOut⟩

/-- A rotate right takes all its flags from the ALU: V says that the bit shifted in differs from the sign it replaces. -/
theorem shr8_rotate_spec (m : Byte) (bit : Bool) (cc : CC) :
    RightShiftOf m bit (shr8 m bit).u (rowArith.apply (shr8 m bit) cc) ∧
      ((rowArith.apply (shr8 m bit) cc).v = true ↔ bit ≠ decide (128 ≤ m.toNat)) := by
  obtain ⟨-, hv, -⟩ := shr8_outputs m bit
  exact ⟨shr8_rightShiftOf rfl rfl rfl m bit cc, hv⟩

/-- An arithmetic shift right shifts the sign in again, so the sign cannot change and V is cleared. -/
theorem shr8_arithmetic_spec (m : Byte) (cc : CC) :
    RightShiftOf m (decide (128 ≤ m.toNat)) (shr8 m (m.getLsbD 7)).u (rowAsr.apply (shr8 m (m.getLsbD 7)) cc) ∧
      (rowAsr.apply (shr8 m (m.getLsbD 7)) cc).v = false := by
  rw [bit7_iff]
  exact ⟨shr8_rightShiftOf rfl rfl rfl m _ cc, rfl⟩

/-- With 0 shifted in, the ALU's N is 0 already: the cleared column of LSR writes what Δ would. -/
theorem rowLsr_apply_shr8 (m : Byte) (cc : CC) : rowLsr.apply (shr8 m false) cc = rowArith.apply (shr8 m false) cc := by
  have hn : (shr8 m false).n = false := by
    obtain ⟨hu, -, -, hnOut, -⟩ := shr8_outputs m false
    rw [Bool.toNat_false] at hu
    have hm := m.isLt
    rw [← Bool.not_eq_true, hnOut]
    omega
  simp [FlagRow.apply, rowLsr, rowArith, hn]

/-- A logical shift right: N is cleared, and V is the old sign, which the 0 shifted in replaces (R305, R312). -/
theorem shr8_logical_spec (m : Byte) (cc : CC) :
    RightShiftOf m false (shr8 m false).u (rowLsr.apply (shr8 m false) cc) ∧
      (rowLsr.apply (shr8 m false) cc).n = false ∧
      ((rowLsr.apply (shr8 m false) cc).v = true ↔ 128 ≤ m.toNat) := by
  obtain ⟨hshift, hv⟩ := shr8_rotate_spec m false cc
  rw [← rowLsr_apply_shr8] at hshift hv
  refine ⟨hshift, rfl, hv.trans ?sign⟩
  case sign => rw [ne_comm, Bool.ne_false_iff, decide_eq_true_iff]

/-- Settles O53: one ALU function, with the old bit 7 or the old C shifted in, on A and as a read-modify-write of a cell. -/
theorem arithmeticShiftAndRotateRight : Obligations.ArithmeticShiftAndRotateRight := by
  refine ⟨opcodeOf_of_encode rfl rfl, tableTM_of_cellBytes (fun _ => rfl) fun _ => rfl,
    opcodeOf_of_encode rfl rfl, tableTM_of_cellBytes (fun _ => rfl) fun _ => rfl,
    fun s => ?asra, fun s => ?rora, fun c s => ?asr, fun c s => ?ror⟩
  case asra => exact ⟨_, exec_asra s, writeA_changedA _ s _, shr8_arithmetic_spec s.a s.cc⟩
  case rora => exact ⟨_, exec_rora s, writeA_changedA _ s _, shr8_rotate_spec s.a s.cc.c s.cc⟩
  case asr =>
    exact ⟨_, _, exec_asr c s, modifyCell_modifiedCell _ _ s c, modifyCell_cc .. ▸ shr8_arithmetic_spec _ s.cc⟩
  case ror =>
    exact ⟨_, _, exec_ror c s, modifyCell_modifiedCell _ _ s c, modifyCell_cc .. ▸ shr8_rotate_spec _ s.cc.c s.cc⟩

/-- Settles O54: the shift right with 0 shifted in, on A and as a read-modify-write of a cell. -/
theorem logicalShiftRight : Obligations.LogicalShiftRight := by
  refine ⟨opcodeOf_of_encode rfl rfl, tableTM_of_cellBytes (fun _ => rfl) fun _ => rfl, fun s => ?lsra, fun c s => ?lsr⟩
  case lsra => exact ⟨_, exec_lsra s, writeA_changedA _ s _, shr8_logical_spec s.a s.cc⟩
  case lsr =>
    exact ⟨_, _, exec_lsr c s, modifyCell_modifiedCell _ _ s c, modifyCell_cc .. ▸ shr8_logical_spec _ s.cc⟩

/-! Rotations of a bit vector of any width, read from its most significant bit. -/

theorem rotateLeft_rotateLeft {w : Nat} (x : BitVec w) (m n : Nat) :
    (x.rotateLeft m).rotateLeft n = x.rotateLeft (m + n) := by
  refine BitVec.eq_of_getMsbD_eq fun i hi => ?_
  have hw : 0 < w := by omega
  have hindex : (m + (n + i) % w) % w = (m + n + i) % w := by rw [Nat.add_mod_mod, Nat.add_assoc]
  simp [BitVec.getMsbD_rotateLeft, hi, Nat.mod_lt _ hw, hindex]

theorem rotateLeft_width {w : Nat} (x : BitVec w) : x.rotateLeft w = x := by
  refine BitVec.eq_of_getMsbD_eq fun i hi => ?_
  simp [BitVec.getMsbD_rotateLeft, hi, Nat.mod_eq_of_lt hi]

theorem rotateLeft_one_iterate {w : Nat} (x : BitVec w) (n : Nat) : (BitVec.rotateLeft · 1)^[n] x = x.rotateLeft n := by
  induction n with
  | zero => exact BitVec.eq_of_getMsbD_eq fun i hi => by simp [BitVec.getMsbD_rotateLeft, hi, Nat.mod_eq_of_lt hi]
  | succ n ih => rw [Function.iterate_succ_apply', ih, rotateLeft_rotateLeft]

theorem rotateRight_rotateLeft_one {w : Nat} (x : BitVec w) (hw : 1 < w) : (x.rotateLeft 1).rotateRight 1 = x := by
  refine BitVec.eq_of_getMsbD_eq fun i hi => ?_
  rw [BitVec.getMsbD_rotateRight_of_lt hw, Nat.mod_eq_of_lt hw]
  cases i with
  | zero =>
    have hlast : w - 1 < w := by omega
    have hfirst : 1 + (w - 1) = w := by omega
    simp [BitVec.getMsbD_rotateLeft, hi, Nat.mod_eq_of_lt hlast, hlast, hfirst]
  | succ i =>
    have hi' : i < w := by omega
    have hback : (1 + i) % w = i + 1 := by rw [Nat.add_comm, Nat.mod_eq_of_lt hi]
    simp [BitVec.getMsbD_rotateLeft, hi, hi', hback]

/-! The rotation of nine bits (`46_shift_rotate.md` R256, R258). -/

/-- The nine bits that ROLA and RORA rotate: C above the eight bits of A. -/
def State.carryA (s : State) : BitVec (1 + 8) := BitVec.ofBool s.cc.c ++ s.a

@[simp] theorem State.carryA_setWidth (s : State) : s.carryA.setWidth 8 = s.a := BitVec.setWidth_append_eq_right

@[simp] theorem State.carryA_msb (s : State) : s.carryA.msb = s.cc.c := by
  rw [State.carryA, BitVec.msb_append, if_neg Nat.one_ne_zero, BitVec.msb_ofBool]

/-- The nine bits determine A and C. -/
theorem State.eq_of_carryA_eq {s t : State} (h : t.carryA = s.carryA) : t.a = s.a ∧ t.cc.c = s.cc.c :=
  ⟨by simpa using congrArg (BitVec.setWidth 8) h, by simpa using congrArg BitVec.msb h⟩

/-- The state after ROLA. -/
def rotatedLeft (s : State) : State := writeA rowArith (shl8 s.a s.cc.c) s

/-- The state after RORA. -/
def rotatedRight (s : State) : State := writeA rowArith (shr8 s.a s.cc.c) s

theorem exec_rola_rotatedLeft (s : State) : exec .rola s = .next (rotatedLeft s) := exec_rola s

theorem exec_rora_rotatedRight (s : State) : exec .rora s = .next (rotatedRight s) := exec_rora s

/-- A shift left of A with C shifted in rotates the nine bits by one place. -/
theorem shl8_rotateLeft (m : Byte) (bit : Bool) :
    BitVec.ofBool (shl8 m bit).c ++ (shl8 m bit).u = (BitVec.ofBool bit ++ m).rotateLeft 1 := by
  revert m bit; decide

theorem shr8_rotateRight (m : Byte) (bit : Bool) :
    BitVec.ofBool (shr8 m bit).c ++ (shr8 m bit).u = (BitVec.ofBool bit ++ m).rotateRight 1 := by
  revert m bit; decide

theorem rotatedLeft_carryA (s : State) : (rotatedLeft s).carryA = s.carryA.rotateLeft 1 := shl8_rotateLeft s.a s.cc.c

theorem rotatedRight_carryA (s : State) : (rotatedRight s).carryA = s.carryA.rotateRight 1 := shr8_rotateRight s.a s.cc.c

theorem rotatedLeft_iterate_carryA (n : Nat) (s : State) : (rotatedLeft^[n] s).carryA = s.carryA.rotateLeft n := by
  have hstep : Function.Semiconj State.carryA rotatedLeft (BitVec.rotateLeft · 1) := rotatedLeft_carryA
  exact (hstep.iterate_right n s).trans (rotateLeft_one_iterate s.carryA n)

theorem changedA_trans {s t u : State} (hst : ChangedA s t) (htu : ChangedA t u) : ChangedA s u := by
  obtain ⟨ht, hti⟩ := hst
  obtain ⟨hu, hui⟩ := htu
  exact ⟨hu.trans (by rw [ht]), hui.trans hti⟩

theorem rotatedLeft_iterate_changedA (n : Nat) (s : State) : ChangedA s (rotatedLeft^[n] s) := by
  induction n with
  | zero => exact ⟨rfl, rfl⟩
  | succ n ih =>
    rw [Function.iterate_succ_apply']
    exact changedA_trans ih (writeA_changedA _ _ _)

/-- Running ROLA again and again is the iteration of its next state, however the run passes an outcome on. -/
theorem foldl_replicate_rola {run : Result → Instr → Result} (hrun : ∀ s, run (.next s) .rola = .next (rotatedLeft s))
    (n : Nat) (s : State) : (List.replicate n Instr.rola).foldl run (.next s) = .next (rotatedLeft^[n] s) := by
  induction n generalizing s with
  | zero => rfl
  | succ n ih => rw [List.replicate_succ, List.foldl_cons, hrun, ih, Function.iterate_succ_apply]

/-- Settles O55: ROLA and RORA rotate the nine bits of C and A, so nine steps to the left come round, and one step to the
right undoes one to the left. -/
theorem nineRotatesRestore : Obligations.NineRotatesRestore := by
  refine fun s => ⟨?nine, fun t u hrola hrora => ?undo⟩
  case nine =>
    obtain ⟨hframe, hmask⟩ := rotatedLeft_iterate_changedA 9 s
    obtain ⟨ha, hc⟩ := State.eq_of_carryA_eq ((rotatedLeft_iterate_carryA 9 s).trans (rotateLeft_width s.carryA))
    rw [ha] at hframe
    exact ⟨_, foldl_replicate_rola exec_rola_rotatedLeft 9 s, ha, hc, hframe, hmask⟩
  case undo =>
    rw [exec_rola_rotatedLeft] at hrola; injection hrola with ht
    rw [exec_rora_rotatedRight] at hrora; injection hrora with hu
    have hcarry : u.carryA = s.carryA := by
      rw [← hu, rotatedRight_carryA, ← ht, rotatedLeft_carryA, rotateRight_rotateLeft_one _ (by decide)]
    exact State.eq_of_carryA_eq hcarry

end Sys2Proof.Machine

/-! The stack (`47_stack.md`): a push and a pull as operations on the whole state, a pull right after a push, and CC on its
way to the stack and back. -/

namespace Sys2Proof.Machine

open Sys2Proof

/-! Pushes and pulls of registers (`47_stack.md` R270 to R274, R276 to R278). -/

/-- A push changes SP, the memory and the output events at most. -/
theorem push_frame (v : Byte) (s : State) :
    push v s = { s with sp := s.sp - 1, mem := (push v s).mem, out := (push v s).out } := by
  apply State.ext_fields <;> simp

/-- Settles O56: each push is one `Push`, and each pull one `Pull` whose value goes to the register and to no flag. -/
theorem pushesAndPullsOfRegisters : Obligations.PushesAndPullsOfRegisters := by
  refine ⟨opcodeOf_of_encode rfl rfl, opcodeOf_of_encode rfl rfl, opcodeOf_of_encode rfl rfl, opcodeOf_of_encode rfl rfl,
    opcodeOf_of_encode rfl rfl, opcodeOf_of_encode rfl rfl, fun s => ⟨?psha, ?pshx, ?pshy, ?pula, ?pulx, ?puly⟩⟩
  case psha => exact ⟨_, exec_psha s, push_frame s.a s, push_stored s s.a⟩
  case pshx => exact ⟨_, exec_pshx s, push_frame s.x s, push_stored s s.x⟩
  case pshy => exact ⟨_, exec_pshy s, push_frame s.y s, push_stored s s.y⟩
  case pula => rw [exec_pula, pull_spec]; rfl
  case pulx => rw [exec_pulx, pull_spec]; rfl
  case puly => rw [exec_puly, pull_spec]; rfl

/-! Push and pull of CC (`47_stack.md` R275, R279). -/

/-- PSHC changes what a push changes, and by its copy of CC the environment. -/
theorem push_copyCc_frame (v : Byte) (s : State) :
    push v (copyCc s).2 = { s with
      sp := s.sp - 1, mem := (push v (copyCc s).2).mem, out := (push v (copyCc s).2).out,
      env := (push v (copyCc s).2).env } := by
  apply State.ext_fields <;> simp

/-- The copy touches neither memory nor SP, so the store is the one of a push where the copy was taken. -/
theorem push_copyCc_stored (v : Byte) (s : State) : Stored s (push v (copyCc s).2) (s.sp - 1) v := by
  have hstored := push_stored (copyCc s).2 v
  simpa only [Stored, State.keeps, copyCc_sp, copyCc_params, copyCc_out, State.cell_congr (copyCc_mem s)] using hstored

/-- A pull right after a push gives the byte back, and SP, if the cell keeps what is written (`47_stack.md` R270, R271). -/
theorem pull_push {s : State} (hk : s.keeps (s.sp - 1)) (v : Byte) :
    pull (push v s) = (v, { push v s with sp := s.sp }) := by
  obtain ⟨hcell, hwritable⟩ := hk
  have hsp : s.sp - 1 + 1 = s.sp := by bv_omega
  rw [pull_cell (by rwa [push_sp]), push_sp, push_cell_self hcell hwritable, hsp]
  rfl

/-- A load of CC from its own copy changes no flag: I is either in the copy or not loaded at all (D14). -/
theorem loadCc_copyCc_cc {s t : State} (h : t.cc = s.cc) : (loadCc (copyCc s).1 t).cc = s.cc := by
  have hi : (copyCc s).1.getLsbD 4 = s.cc.i := congrArg CC.i (ccOfByte_copyCc s)
  rw [loadCc_cc, ccOfByte_copyCc, hi, h, ite_self]

/-- Settles O57: PSHC pushes a copy of CC, PULC loads CC from the byte pulled, and the byte pulled right after PSHC is that
copy. -/
theorem pushAndPullOfCc : Obligations.PushAndPullOfCc := by
  refine ⟨opcodeOf_of_encode rfl rfl, opcodeOf_of_encode rfl rfl, fun s => ?pshc, fun s => ?pulc,
    fun s t u hk hpush hpull => ?restored⟩
  case pshc =>
    have henv := congrArg State.env (copyCc_frame s)
    exact ⟨_, (copyCc s).1, exec_pshc s, copyCc_image s, push_copyCc_frame _ s, (push_env _ _).trans henv,
      push_copyCc_stored _ s⟩
  case pulc => rw [exec_pulc, pull_spec, loadCc_spec]
  case restored =>
    rw [exec_pshc] at hpush; injection hpush with ht
    have hk' : (copyCc s).2.keeps ((copyCc s).2.sp - 1) := by
      rwa [State.keeps, copyCc_sp, copyCc_params]
    rw [exec_pulc, ← ht, pull_push hk'] at hpull; injection hpull with hu
    subst hu
    exact ⟨loadCc_copyCc_cc (by simp), by simp⟩

end Sys2Proof.Machine

/-! Resets, exceptions, the end of a run, NOP and the ALU functions (`48_misc.md`, `49_alu_functions.md`, `60_exceptions.md`,
`70_reset_and_hazards.md`): the events of a boundary, the frame of an entry, and the return that undoes it. -/

namespace Sys2Proof.Machine

open Sys2Proof

/-! What a boundary leads to (`60_exceptions.md` R330, R340). -/

theorem step_of_reset {s : State} (hreset : s.pinsNow.reset = true) : step s = .next (takeReset s.passBoundary) := by
  rcases step_cases s with ⟨-, hs⟩ | ⟨hr, -⟩ | ⟨hr, -⟩
  · exact hs
  · simp [hreset] at hr
  · simp [hreset] at hr

theorem step_of_irq {s : State} (hreset : s.pinsNow.reset = false) (hirq : s.pinsNow.irq = true) (hmask : s.cc.i = false) :
    step s = .next (takeIrq s.passBoundary) := by
  rcases step_cases s with ⟨hr, -⟩ | ⟨-, -, -, hs⟩ | ⟨-, hnone, -⟩
  · simp [hreset] at hr
  · exact hs
  · simp [hirq, hmask] at hnone

/-- Settles O8: Reset goes before every other event, and the vector cell is no port. -/
theorem resetEventMasksAndLoadsVector : Obligations.ResetEventMasksAndLoadsVector := by
  intro s hreset
  rw [step_of_reset hreset, takeReset_spec]
  rfl

/-- Settles O6, by the format of the instruction. -/
theorem stepRunsDecodedInstruction : Obligations.StepRunsDecodedInstruction :=
  fun _ hf => ⟨fun _ h => step_of_decode_one hf h, fun _ h => step_of_decode_two hf h⟩

/-- No meaning ends in a fault or a refusal. -/
theorem exec_answers_next (i : Instr) (s : State) : ∃ t : State, exec i s = .next t := by
  cases i <;> exact ⟨_, rfl⟩

/-- Settles O16: a reset and an interrupt entry answer a next state, and so does every instruction. -/
theorem everyStepAnswersNext : Obligations.EveryStepAnswersNext := by
  intro s
  rcases step_cases s with ⟨-, hs⟩ | ⟨-, -, -, hs⟩ | ⟨-, -, hs⟩
  · exact ⟨_, hs⟩
  · exact ⟨_, hs⟩
  · rw [hs]; exact exec_answers_next _ _

/-! Instructions fetched from cells (`30_encoding.md` R90): the fetch has no side effect but on PC. -/

theorem step_of_cell_one {s : State} {op : Byte} {i : Instr} (hf : s.fetches) (hport : portOf s.pc = none)
    (hop : s.cell s.pc = op) (hd : decode [op] = .ok (i, [])) :
    step s = exec i { s.passBoundary with pc := s.pc + 1 } := by
  have hread : memRead s.passBoundary s.pc = (op, s.passBoundary) := by rw [memRead_cell hport, ← hop]; rfl
  have hstep := step_of_decode_one (i := i) hf (by rwa [hread])
  rwa [hread] at hstep

theorem step_of_cells_two {s : State} {op b : Byte} {i : Instr} (hf : s.fetches) (hport : portOf s.pc = none)
    (hport' : portOf (s.pc + 1) = none) (hop : s.cell s.pc = op) (hb : s.cell (s.pc + 1) = b)
    (hd : decode [op, b] = .ok (i, [])) : step s = exec i { s.passBoundary with pc := s.pc + 2 } := by
  have hread : memRead s.passBoundary s.pc = (op, s.passBoundary) := by rw [memRead_cell hport, ← hop]; rfl
  have hread' : memRead s.passBoundary (s.pc + 1) = (b, s.passBoundary) := by rw [memRead_cell hport', ← hb]; rfl
  have hstep := step_of_decode_two (i := i) hf (by rwa [hread, hread'])
  rwa [hread, hread'] at hstep

/-- Settles O58: NOP is fetched and does nothing more. -/
theorem nopDoesNothing : Obligations.NopDoesNothing := by
  refine ⟨opcodeOf_of_encode rfl rfl, exec_nop, fun s hf hport hop => ?_⟩
  rw [step_of_cell_one hf hport hop rfl, exec_nop]
  rfl

/-- Settles O15: the offset $FE takes back the two bytes of BRA, and JMP goes to the address where it stands. -/
theorem endOfRunLoopsInPlace : Obligations.EndOfRunLoopsInPlace := by
  rintro s ⟨hf, hport, hport', ⟨hop, hb⟩ | ⟨hop, hb⟩⟩
  case inl =>
    have hback : s.pc + 2 + 0xFE = s.pc := by bv_omega
    rw [step_of_cells_two hf hport hport' hop hb (i := .bra 0xFE) rfl, exec_bra, branchIf_true, hback]
    rfl
  case inr =>
    rw [step_of_cells_two hf hport hport' hop hb (i := .jmp (.ab s.pc)) rfl, exec_jmp]
    rfl

/-! The ALU functions (`49_alu_functions.md` R291 to R306, R315). -/

/-- Settles O59, helper by helper: a function of one operand does not look at the other. -/
theorem helpersAreTheAluTable : Obligations.HelpersAreTheAluTable :=
  fun d e b => ⟨add8_eq_alu d e b, sub8_eq_alu d e b, inc8_eq_alu d, dec8_eq_alu d, neg8_eq_alu d, rfl, rfl, rfl, rfl,
    shl8_eq_alu d b, shr8_eq_alu d b, shr8_sign_eq_alu d, rfl, rfl, rfl, rfl⟩

/-! The frame of an entry (`60_exceptions.md` R336): what its five pushes leave in memory, send out and draw. -/

/-- The four registers of a frame on the stack, its copy of CC not yet taken. -/
def pushRegisters (s : State) : State := push s.a (push s.x (push s.y (push s.pc s)))

/-- The byte of CC that a frame holds. -/
def frameCc (s : State) : Byte := (copyCc (pushRegisters s)).1

theorem pushFrame_eq (s : State) : pushFrame s = push (frameCc s) (copyCc (pushRegisters s)).2 := rfl

@[simp] theorem pushRegisters_cc (s : State) : (pushRegisters s).cc = s.cc := by simp [pushRegisters]
@[simp] theorem pushRegisters_env (s : State) : (pushRegisters s).env = s.env := by simp [pushRegisters]

theorem frameCc_image (s : State) : CcImage (frameCc s) (s.env.ccHi.headD (Config.ccHi s.env.draws)) s.cc := by
  simpa only [frameCc, pushRegisters_cc, pushRegisters_env] using copyCc_image (pushRegisters s)

/-- The one draw of an entry, for its copy of CC. -/
theorem pushFrame_env (s : State) :
    (pushFrame s).env =
      if s.env.ccHi = [] then { s.env with draws := s.env.draws + 1 } else { s.env with ccHi := s.env.ccHi.tail } := by
  rw [pushFrame_eq, push_env, copyCc_frame, pushRegisters_env]

theorem pushFrame_out (s : State) :
    (pushFrame s).out = s.out ++ frameOutputs s.sp s.pc s.y s.x s.a (frameCc s) := by
  simp [pushFrame_eq, pushRegisters, push_out, frameOutputs, List.filterMap_eq_flatMap_toList, sub_sub]

/-- A byte that keeps what is written to it, after a push. -/
theorem push_cell_of_keeps {s : State} {b : Byte} (hk : s.keeps b) (v : Byte) :
    (push v s).cell b = if b = s.sp - 1 then v else s.cell b := by
  by_cases hb : b = s.sp - 1
  · subst hb; rw [if_pos rfl, push_cell_self hk.1 hk.2]
  · rw [if_neg hb, push_cell_other s v hb]

/-- A byte that keeps what is written to it, after the five pushes of an entry. -/
theorem pushFrame_cell_of_keeps {s : State} {b : Byte} (hk : s.keeps b) :
    (pushFrame s).cell b =
      if b = s.sp - 5 then frameCc s else if b = s.sp - 4 then s.a else if b = s.sp - 3 then s.x
      else if b = s.sp - 2 then s.y else if b = s.sp - 1 then s.pc else s.cell b := by
  have hpush {u : State} (hu : u.params = s.params) (v : Byte) :
      (push v u).cell b = if b = u.sp - 1 then v else u.cell b := push_cell_of_keeps (by rwa [State.keeps, hu]) v
  rw [pushFrame_eq, hpush (by simp [pushRegisters]), State.cell_congr (copyCc_mem _), pushRegisters,
    hpush (by simp), hpush (by simp), hpush (by simp), hpush rfl]
  simp only [copyCc_sp, push_sp, sub_sub]
  rfl

/-- The five pushes go to five addresses, so each cell that keeps what is written to it holds its byte. -/
theorem pushFrame_cells (s : State) :
    (s.keeps (s.sp - 1) → (pushFrame s).cell (s.sp - 1) = s.pc) ∧
    (s.keeps (s.sp - 2) → (pushFrame s).cell (s.sp - 2) = s.y) ∧
    (s.keeps (s.sp - 3) → (pushFrame s).cell (s.sp - 3) = s.x) ∧
    (s.keeps (s.sp - 4) → (pushFrame s).cell (s.sp - 4) = s.a) ∧
    (s.keeps (s.sp - 5) → (pushFrame s).cell (s.sp - 5) = frameCc s) := by
  refine ⟨?_, ?_, ?_, ?_, ?_⟩ <;> exact fun hk => (pushFrame_cell_of_keeps hk).trans (by simp)

/-- What no push reaches, or none can change, stays. -/
theorem pushFrame_cell_unchanged {s : State} {b : Byte} (h : b ∈ s.frameAddresses → ¬ s.keeps b) :
    (pushFrame s).cell b = s.cell b := by
  by_cases hb : b ∈ s.frameAddresses
  · exact (pushFrame_storesAt s).cell_of_not_keeps (h hb)
  · exact (pushFrame_storesAt s).cell_of_not_mem hb

/-! Entry (`60_exceptions.md` R336 to R338). -/

/-- The vector is read from a cell, so an entry draws for its copy of CC only. -/
theorem enterException_env {vec : Byte} (hv : portOf vec = none) (setI : Bool) (s : State) :
    (enterException vec setI s).env = (pushFrame s).env := by
  unfold enterException
  cases setI <;> simp [memRead_cell hv]

/-- Every entry through a vector cell pushes its frame and changes nothing it should not. -/
theorem enterException_entered {vec : Byte} (hv : portOf vec = none) (setI : Bool) (s : State) :
    Entered vec setI s (enterException vec setI s) := by
  have hcell (b : Byte) : (enterException vec setI s).cell b = (pushFrame s).cell b :=
    State.cell_congr (enterException_mem vec setI s) b
  obtain ⟨hpc, hy, hx, ha, hcc⟩ := pushFrame_cells s
  refine ⟨frameCc s, frameCc_image s, ?frame, fun hk => (hcell _).trans (hpc hk), fun hk => (hcell _).trans (hy hk),
    fun hk => (hcell _).trans (hx hk), fun hk => (hcell _).trans (ha hk), fun hk => (hcell _).trans (hcc hk),
    fun b hb => (hcell b).trans (pushFrame_cell_unchanged hb), (enterException_out vec setI s).trans (pushFrame_out s)⟩
  case frame =>
    apply State.ext_fields <;> simp [hcell, enterException_pc hv, enterException_env hv, pushFrame_env]

/-- Settles O9: an unmasked interrupt is the entry through the cell $FD. -/
theorem interruptEntryPushesFrame : Obligations.InterruptEntryPushesFrame :=
  fun s hreset hirq hmask => ⟨_, step_of_irq hreset hirq hmask, enterException_entered rfl true s.passBoundary⟩

/-- The meaning of every illegal opcode is the trap (`60_exceptions.md` R332). -/
theorem exec_of_isIllegal {i : Instr} (h : isIllegal i = true) (s : State) : exec i s = .next (takeTrap s) := by
  cases i with
  | illegal03 | illegal04 | illegalDF | illegalE0 | illegalEF | illegalFF => rfl
  | _ => cases h

theorem takeTrap_entered (s : State) : Entered 0xFE s.params.trapSetsI s (takeTrap s) :=
  enterException_entered rfl s.params.trapSetsI s

/-- Settles O10: an illegal opcode is the entry through the cell $FE. -/
theorem trapEntryPushesFrame : Obligations.TrapEntryPushesFrame := by
  intro i s hi
  have hillegal : ∀ j ∈ [Instr.illegal03, .illegal04, .illegalDF, .illegalE0, .illegalEF, .illegalFF],
      isIllegal j = true := by decide
  exact ⟨_, exec_of_isIllegal (hillegal i hi) s, takeTrap_entered s⟩

/-! Entry and return (`60_exceptions.md` R341, `42_flow_control.md` R190). -/

/-- A byte with the five flags in bits 4..0 is read back as those flags. -/
theorem ccOfByte_of_ccImage {b : Byte} {hi : BitVec 3} {cc : CC} (h : CcImage b hi cc) : ccOfByte b = cc := by
  obtain ⟨-, hI, hN, hZ, hV, hC⟩ := h
  rw [ccOfByte, hI, hN, hZ, hV, hC]

/-- Pushes to cells send nothing out. -/
theorem frameOutputs_of_frameKept {s : State} (hk : s.frameKept) (pc y x a cc : Byte) :
    frameOutputs s.sp pc y x a cc = [] := by
  obtain ⟨⟨h1, -⟩, ⟨h2, -⟩, ⟨h3, -⟩, ⟨h4, -⟩, ⟨h5, -⟩⟩ := hk
  simp only [frameOutputs, List.filterMap_cons, List.filterMap_nil, h1, h2, h3, h4, h5, Option.map_none]

/-- RTI takes a kept frame back, wherever PC and the scripts are by then. -/
theorem returnFromException_of_entered {vec : Byte} {setI : Bool} {s t : State} (hk : s.frameKept)
    (h : Entered vec setI s t) (pc : Byte) (env : Env) :
    returnFromException { t with pc := pc, env := env } = { s with mem := t.mem, env := env } := by
  obtain ⟨copy, himage, ht, hpc, hy, hx, ha, hcc, -, hout⟩ := h
  have houtputs := frameOutputs_of_frameKept hk s.pc s.y s.x s.a copy
  obtain ⟨k1, k2, k3, k4, k5⟩ := hk
  have hsp : t.sp = s.sp - 5 := congrArg State.sp ht
  have hparams : t.params = s.params := by rw [ht]
  have e1 : t.sp + 1 = s.sp - 4 := by rw [hsp]; bv_omega
  have e2 : t.sp + 2 = s.sp - 3 := by rw [hsp]; bv_omega
  have e3 : t.sp + 3 = s.sp - 2 := by rw [hsp]; bv_omega
  have e4 : t.sp + 4 = s.sp - 1 := by rw [hsp]; bv_omega
  have e5 : t.sp + 5 = s.sp := by rw [hsp]; bv_omega
  rw [houtputs, List.append_nil] at hout
  rw [returnFromException_cells (hsp ▸ k5.1) (e1 ▸ k4.1) (e2 ▸ k3.1) (e3 ▸ k2.1) (e4 ▸ k1.1)]
  apply State.ext_fields
  case hcc => exact (congrArg ccOfByte (hsp ▸ hcc k5)).trans (ccOfByte_of_ccImage himage)
  case ha => exact e1 ▸ ha k4
  case hx => exact e2 ▸ hx k3
  case hy => exact e3 ▸ hy k2
  case hpc => exact e4 ▸ hpc k1
  case hsp => exact e5
  case ho => exact hout
  case hp => exact hparams
  case hm => rfl
  case he => rfl

/-- A handler that starts with RTI undoes the entry, but for the five cells below SP. -/
theorem step_rti_of_entered {vec : Byte} {setI : Bool} {s t : State} (h : Entered vec setI s t) (hk : s.frameKept)
    (hf : t.fetches) (hport : portOf t.pc = none) (hop : t.cell t.pc = 0x44) :
    ∃ u : State, step t = .next u ∧ u = { s with mem := t.mem, env := u.env } ∧
      ∀ b : Byte, b ∉ [s.sp - 1, s.sp - 2, s.sp - 3, s.sp - 4, s.sp - 5] → u.cell b = s.cell b := by
  have hstep : step t = .next { s with mem := t.mem, env := t.passBoundary.env } := by
    rw [step_of_cell_one hf hport hop (i := .rti) rfl, exec_rti]
    exact congrArg _ (returnFromException_of_entered hk h (t.pc + 1) t.passBoundary.env)
  obtain ⟨-, -, -, -, -, -, -, -, hother, -⟩ := h
  exact ⟨_, hstep, rfl, fun b hb => hother b fun hmem => absurd hmem hb⟩

/-- Settles O12: the entry masks the interrupt, so the handler's RTI runs even with the pin still asserted. -/
theorem interruptThenReturnRestores : Obligations.InterruptThenReturnRestores := by
  intro s t hreset hirq hmask hk hstep hport hop hreset'
  rw [step_of_irq hreset hirq hmask] at hstep; injection hstep with ht
  have hmasked : t.cc.i = true := by rw [← ht, takeIrq_cc, Bool.true_or]
  have hentered : Entered irqVector true s.passBoundary t := ht ▸ enterException_entered rfl true s.passBoundary
  exact (step_rti_of_entered hentered hk ⟨hreset', .inr hmasked⟩ hport hop :)

/-- Settles O13: the frame holds the PC past the opcode byte, so the handler's RTI goes on there. -/
theorem trapThenReturnResumesAfterOpcode : Obligations.TrapThenReturnResumesAfterOpcode := by
  intro s t hf hport hop hk hstep hf' hport' hop'
  obtain ⟨i, hd, hillegal⟩ := decodeOp_of_mem_illegal hop
  rw [step_of_cell_one hf hport rfl (decode_f1 hd []), exec_of_isIllegal hillegal] at hstep; injection hstep with ht
  have hentered : Entered trapVector s.params.trapSetsI { s.passBoundary with pc := s.pc + 1 } t :=
    ht ▸ takeTrap_entered { s.passBoundary with pc := s.pc + 1 }
  exact (step_rti_of_entered hentered hk hf' hport' hop' :)

end Sys2Proof.Machine
